-- ==== Sys2Proof/Word.lean ====
section
/-! DEFINITION. The 32-bit word of BPCORE and its two readings (spec/00_scope.md R11, R15). -/

namespace Sys2Proof

/-- Every register, memory entry and codec value is one 32-bit word (R11). -/
abbrev Word := BitVec 32

/-- `u32(w)`: the unsigned value of a word (R15). -/
abbrev Word.u32 (w : Word) : Nat := w.toNat

/-- `s32(w)`: the two's-complement value of a word (R15). -/
abbrev Word.s32 (w : Word) : Int := w.toInt

/-- A codec value or utility operand is negative when `s32` of it is below 0 (R15). -/
abbrev Word.negative (w : Word) : Bool := decide (w.s32 < 0)

end Sys2Proof
end

