-- ==== Sys2Proof/Syntax.lean ====
section
/-! DEFINITION. The commands of BPCORE, its modes, registers, host accesses and host-program notation
(spec/30_encoding.md R73, R78, R81 to R88; spec/10_state.md R34). -/

namespace Sys2Proof

/-- One constructor per row of spec/opcode_table.json (R73). A command has no field of its own: its operands
are the words in ARG0..ARG3 when CMD is written (R70, R74). -/
inductive Instr where
  | nop
  | cfg
  | compress
  | get
  | decompress
  | size
  | bpv
  | cbitlen
  | crosses
  | compressed
  | bitsReq
  | mask
  | ceilDiv
  | ceilLog2
  | slotExtract
  | slotInsert
  deriving DecidableEq, Repr

/-- The six strategy modes (R78). -/
inductive Mode where
  | noCrossing
  | crossing
  | overflowNoCrossing
  | overflowCrossing
  | searchNoCrossing
  | searchCrossing
  deriving DecidableEq, Repr

/-- The four operand registers (10_state.md R22, R25). -/
inductive ArgReg where
  | arg0
  | arg1
  | arg2
  | arg3
  deriving DecidableEq, Repr

/-- The registers of host space 0 (10_state.md R34). -/
inductive Reg where
  | cmd
  | arg (r : ArgReg)
  | result
  | status
  | mode
  | n
  | k
  | words
  | ovtM
  | smallW
  | idxW
  | ew
  | hbits
  | capN
  | capPbuf
  | capOvt
  | features
  deriving DecidableEq, Repr

/-- A host access: the only two primitive operations of a host program (R81). -/
inductive Access where
  | wr (addr data : Word)
  | rd (addr : Word)
  deriving DecidableEq, Repr

/-- What reaches BPCORE from outside: a host access, or the reset input between commands
(70_reset_and_hazards.md R300). -/
inductive Event where
  | access (a : Access)
  | reset
  deriving DecidableEq, Repr

/-- The host-program notation: the primitive accesses and the pseudo-instructions (R81 to R88). -/
inductive Pseudo where
  | wr (addr data : Word)
  | rd (addr : Word)
  | cmd (i : Instr)
  | wait
  | form (i : Instr) (args : List Word)
  | loadv (values : List Word)
  | readv (m : Nat)
  | readp (m : Nat)
  | rdres
  | rdstat
  deriving DecidableEq, Repr

end Sys2Proof
end

