-- ==== Sys2Proof/Decode.lean ====
section
/-! DEFINITION. The decoder of CMD words, total on all 2^32 of them, and the encoder (spec/30_encoding.md R71 to
R76). The encoder is written from the opcode map of R73, the decoder from R72. -/

namespace Sys2Proof

/-- Why a CMD word is no command (R72). -/
inductive DecodeError where
  /-- bits 31:5 are not zero (RESERVED_BITS) -/
  | reservedBits
  /-- bits 31:5 are zero and the opcode is 0x10..0x1F (RESERVED_OPCODE) -/
  | reservedOpcode
  deriving DecidableEq, Repr

/-- The field OPCODE, bits 4:0 (R71). -/
def opcodeField (c : Word) : BitVec 5 := c.extractLsb' 0 5

/-- The field MBZ, bits 31:5 (R71). -/
def mbzField (c : Word) : BitVec 27 := c.extractLsb' 5 27

/-- The command of an opcode, and none for the reserved opcodes 0x10..0x1F (R73). -/
def instrOfOpcode (op : BitVec 5) : Option Instr :=
  match op.toNat with
  | 0x00 => some .nop
  | 0x01 => some .cfg
  | 0x02 => some .compress
  | 0x03 => some .get
  | 0x04 => some .decompress
  | 0x05 => some .size
  | 0x06 => some .bpv
  | 0x07 => some .cbitlen
  | 0x08 => some .crosses
  | 0x09 => some .compressed
  | 0x0A => some .bitsReq
  | 0x0B => some .mask
  | 0x0C => some .ceilDiv
  | 0x0D => some .ceilLog2
  | 0x0E => some .slotExtract
  | 0x0F => some .slotInsert
  | _ => none

/-- The decoder: the MBZ check comes before the opcode check (R72). -/
def decode (c : Word) : Except DecodeError Instr :=
  if mbzField c ≠ 0 then .error .reservedBits
  else
    match instrOfOpcode (opcodeField c) with
    | some i => .ok i
    | none => .error .reservedOpcode

/-- The opcode of a command (R73). -/
def opcodeOf : Instr → BitVec 5
  | .nop => 0x00
  | .cfg => 0x01
  | .compress => 0x02
  | .get => 0x03
  | .decompress => 0x04
  | .size => 0x05
  | .bpv => 0x06
  | .cbitlen => 0x07
  | .crosses => 0x08
  | .compressed => 0x09
  | .bitsReq => 0x0A
  | .mask => 0x0B
  | .ceilDiv => 0x0C
  | .ceilLog2 => 0x0D
  | .slotExtract => 0x0E
  | .slotInsert => 0x0F

/-- The CMD word of a command is its opcode, zero-extended (R73). -/
def encode (i : Instr) : Word := (opcodeOf i).setWidth 32

/-- The command in a row of `nbits` bits whose bits are `w`: BPCORE's only instruction length is one CMD word,
and the bits above `nbits` are 0. Mark: DESIGN CHOICE, notes/assumptions/14.md, safe. -/
def decodeTableWord (nbits w : Nat) : Option Instr :=
  match decode (BitVec.ofNat 32 (w % 2 ^ nbits)) with
  | .ok i => some i
  | .error _ => none

end Sys2Proof
end

