-- ==== Sys2Proof/Config.lean ====
section
/-! DEFINITION. The implementation parameters of BPCORE (spec/00_scope.md R13). The spec fixes none of them:
State carries them in its capability registers, so a statement about every state holds for every choice. -/

namespace Sys2Proof

/-- The four parameters a model takes (R13). Each width is the constraint R13 puts on it: N_MAX is at most
2^31 - 1, PBUF_WORDS at most 2^27 - 1. OVT_MAX has no bound of its own; 32 bits is the width of CAP_OVT, which
always holds it (10_state.md R33). Mark: DEDUCED, notes/assumptions/4.md, safe. -/
structure Params where
  nMax : BitVec 31
  pbufWords : BitVec 27
  ovtMax : BitVec 32
  ovfDedup : Bool
  deriving DecidableEq, Repr

/-- The parameters `State.reset` carries: those of spec/95_test_vectors.md. Mark: DESIGN CHOICE,
notes/assumptions/3.md, unsafe: no statement rests on these numbers. -/
def Config.params : Params :=
  { nMax := 16, pbufWords := 32, ovtMax := 16, ovfDedup := false }

end Sys2Proof
end

