-- ==== Sys2Proof/Machine/State.lean ====
section
/-! DEFINITION. The state of BPCORE as plain data (spec/10_state.md), what a step can stop with, and the state
after reset (R40, R41; spec/70_reset_and_hazards.md R300 to R302). -/

namespace Sys2Proof.Machine

/-- Error classes, the values of STATUS.ERR that are ever reported (60_exceptions.md R270). -/
inductive ErrClass where
  | ok
  | invalidArgument
  | outOfRange
  | illegalCommand
  | capacity
  deriving DecidableEq, Repr

/-- Error causes, the values of STATUS.CAUSE that are ever reported (60_exceptions.md R270). Mark: DEDUCED,
notes/assumptions/12.md, safe. -/
inductive Cause where
  | noCause
  | argLength
  | argNegative
  | argMode
  | argK
  | argUtil
  | outLength
  | indexRange
  | reservedOpcode
  | reservedBits
  | notConfigured
  | idxCapacity
  | ovtFull
  | pbufFull
  | nCapacity
  deriving DecidableEq, Repr

/-- Where the model faults: the spec calls the value read or written unspecified and says that a model faults. -/
inductive Fault where
  /-- raised by GET: VALID = 0 and the index is in range (42_contract.md R156, U1); safe -/
  | getUnencoded
  /-- raised by DECOMPRESS: VALID = 0 and outLen = N (42_contract.md R156, U2); safe -/
  | decompressUnencoded
  /-- raised by COMPRESS: a VIN word it reads was not written since reset (20_memory.md R69, U6); safe -/
  | compressVinUnwritten
  /-- raised by a host read of a VIN word not written since reset (20_memory.md R69, U7); safe -/
  | vinUnwritten
  /-- raised by a host read of VOUT outside its defined range (20_memory.md R67, U5); safe -/
  | voutUndefined
  /-- raised by a read of PBUF outside [0, WORDS) or while VALID = 0 (20_memory.md R66, U3); safe -/
  | pbufUndefined
  /-- raised by a read of OVT outside [0, OVT_M) or while VALID = 0 (20_memory.md R67, U4); safe -/
  | ovtUndefined
  deriving DecidableEq, Repr

/-- What the model refuses: host accesses outside the defined interface (93_implementation_defined.md). -/
inductive Refusal where
  /-- an instruction of the table that has no meaning in the model; no arm of `exec` answers it now; safe -/
  | notModelled (mnemonic : String)
  /-- a host access to space 5..15 (20_memory.md R52, U9); safe -/
  | reservedSpace
  /-- a host access at or past the depth of its space (20_memory.md R52, U9); safe -/
  | beyondDepth
  /-- a host write to VOUT, PBUF or OVT (20_memory.md R52, U9); safe -/
  | readOnlySpace
  /-- a host access to a register index of 0x14 or above (10_state.md R35, U10); safe -/
  | reservedRegister
  /-- a host access other than a STATUS read while BUSY = 1 (70_reset_and_hazards.md R310, U11); no run of
  the model meets it; safe -/
  | accessWhileBusy
  deriving DecidableEq, Repr

/-- A word memory: (index, word) pairs with the indices strictly rising. BPCORE's smallest unit of storage is
the 32-bit word (20_memory.md R53, R55). An index that is not listed holds no value: reading it faults
(10_state.md R41). Mark: DEDUCED, notes/assumptions/5.md and 6.md, safe. -/
abbrev Memory := List (Nat × Word)

/-- The state of BPCORE (10_state.md R22 to R43), with the host events still to come and the words the host has
read so far (30_encoding.md R84). -/
structure State where
  /-- N_MAX, PBUF_WORDS, OVT_MAX, OVF_DEDUP, seen in CAP_N, CAP_PBUF, CAP_OVT and FEATURES (R33); no step writes it -/
  params : Params
  /-- ARG0 (R25) -/
  arg0 : Word
  /-- ARG1 (R25) -/
  arg1 : Word
  /-- ARG2 (R25) -/
  arg2 : Word
  /-- ARG3 (R25) -/
  arg3 : Word
  /-- RESULT (R26) -/
  result : Word
  /-- STATUS.BUSY (R28) -/
  busy : Bool
  /-- STATUS.VALID (R29) -/
  valid : Bool
  /-- STATUS.CROSS (R30) -/
  cross : Bool
  /-- STATUS.FAULTSEEN (R31) -/
  faultSeen : Bool
  /-- STATUS.CONFIGURED (R30) -/
  configured : Bool
  /-- STATUS.DELEG (R30) -/
  deleg : Bool
  /-- STATUS.ERR (R31) -/
  err : ErrClass
  /-- STATUS.CAUSE (R31) -/
  cause : Cause
  /-- MODE (R32, R39 b) -/
  mode : Mode
  /-- N (R32) -/
  n : Word
  /-- K (R32) -/
  k : BitVec 6
  /-- WORDS (R32) -/
  words : Word
  /-- OVT_M (R32) -/
  ovtM : Word
  /-- SMALLW (R32) -/
  smallW : BitVec 6
  /-- IDXW (R32) -/
  idxW : BitVec 6
  /-- EW (R32) -/
  ew : BitVec 6
  /-- HBITS (R32) -/
  hbits : Word
  /-- VIN (R36) -/
  vin : Memory
  /-- VOUT (R36) -/
  vout : Memory
  /-- PBUF (R36) -/
  pbuf : Memory
  /-- OVT (R36, R37) -/
  ovt : Memory
  /-- the model's own: the host events still to be performed, the next one first. Mark: DESIGN CHOICE,
  notes/assumptions/1.md, safe -/
  pending : List Event
  /-- the model's own: the words returned by the host's reads, the oldest first (30_encoding.md R84). Mark: DESIGN
  CHOICE, notes/assumptions/2.md, safe -/
  observed : List Word
  deriving DecidableEq, Repr

/-- The state after reset with the parameters `p`: every register 0, the memories unspecified (R40, R41). -/
def State.resetWith (p : Params) : State :=
  { params := p
    arg0 := 0, arg1 := 0, arg2 := 0, arg3 := 0, result := 0
    busy := false, valid := false, cross := false, faultSeen := false, configured := false, deleg := false
    err := .ok, cause := .noCause
    mode := .noCrossing, n := 0, k := 0, words := 0, ovtM := 0, smallW := 0, idxW := 0, ew := 0, hbits := 0
    vin := [], vout := [], pbuf := [], ovt := []
    pending := [], observed := [] }

/-- The machine right after reset (70_reset_and_hazards.md R300, R302). -/
def State.reset : State := State.resetWith Config.params

end Sys2Proof.Machine
end

