-- ==== Sys2Proof/Machine/Flags.lean ====
section
/-! DEFINITION. The numeric codes of the modes, error classes and causes, and the STATUS and FEATURES words
(spec/10_state.md R27, R33; spec/30_encoding.md R78; spec/60_exceptions.md R270; spec/42_contract.md R143). -/

namespace Sys2Proof.Machine

/-- The number of a mode (30_encoding.md R78). -/
def modeCode : Mode → BitVec 3
  | .noCrossing => 0
  | .crossing => 1
  | .overflowNoCrossing => 2
  | .overflowCrossing => 3
  | .searchNoCrossing => 4
  | .searchCrossing => 5

/-- The mode of a number; 6 and above are reserved (30_encoding.md R78). -/
def modeOf : Nat → Option Mode
  | 0 => some .noCrossing
  | 1 => some .crossing
  | 2 => some .overflowNoCrossing
  | 3 => some .overflowCrossing
  | 4 => some .searchNoCrossing
  | 5 => some .searchCrossing
  | _ => none

/-- `crossOf(mode)` (42_contract.md R143). -/
def crossOf : Mode → Bool
  | .noCrossing => false
  | .crossing => true
  | .overflowNoCrossing => false
  | .overflowCrossing => true
  | .searchNoCrossing => false
  | .searchCrossing => true

/-- The code of an error class in STATUS.ERR (60_exceptions.md R270). -/
def errCode : ErrClass → BitVec 4
  | .ok => 0
  | .invalidArgument => 1
  | .outOfRange => 2
  | .illegalCommand => 3
  | .capacity => 4

/-- The code of a cause in STATUS.CAUSE (60_exceptions.md R270). -/
def causeCode : Cause → BitVec 8
  | .noCause => 0x00
  | .argLength => 0x01
  | .argNegative => 0x02
  | .argMode => 0x03
  | .argK => 0x04
  | .argUtil => 0x05
  | .outLength => 0x06
  | .indexRange => 0x10
  | .reservedOpcode => 0x20
  | .reservedBits => 0x21
  | .notConfigured => 0x22
  | .idxCapacity => 0x30
  | .ovtFull => 0x31
  | .pbufFull => 0x32
  | .nCapacity => 0x33

/-- The class each cause is reported with: the ERR column of the table of causes (60_exceptions.md R270). -/
def classOf : Cause → ErrClass
  | .noCause => .ok
  | .argLength | .argNegative | .argMode | .argK | .argUtil | .outLength => .invalidArgument
  | .indexRange => .outOfRange
  | .reservedOpcode | .reservedBits | .notConfigured => .illegalCommand
  | .idxCapacity | .ovtFull | .pbufFull | .nCapacity => .capacity

/-- One flag as a one-bit field. -/
def flagBit (b : Bool) : BitVec 1 := BitVec.ofBool b

/-- The STATUS word the host reads: its fields at their places, the reserved bits 0 (10_state.md R27). -/
def statusWord (s : State) : Word :=
  (0 : BitVec 8) ++ causeCode s.cause ++ (0 : BitVec 4) ++ errCode s.err ++ (0 : BitVec 2) ++ flagBit s.deleg ++
    flagBit s.configured ++ flagBit s.faultSeen ++ flagBit s.cross ++ flagBit s.valid ++ flagBit s.busy

/-- FEATURES: bit 0 is OVF_DEDUP, the rest reads 0 (10_state.md R33). -/
def featuresWord (p : Params) : Word := (flagBit p.ovfDedup).setWidth 32

end Sys2Proof.Machine
end

