-- ==== Sys2Proof/Machine/Operands.lean ====
section
/-! DEFINITION. The operand forms of a command: one whole ARG word, read as u32, s32 or raw
(spec/30_encoding.md R74, R77). -/

namespace Sys2Proof.Machine

/-- The operand word of an ARG register: the form `raw` (30_encoding.md R74). -/
def State.arg (s : State) : ArgReg → Word
  | .arg0 => s.arg0
  | .arg1 => s.arg1
  | .arg2 => s.arg2
  | .arg3 => s.arg3

/-- The form `u32`: counts, indices, offsets, widths of SLOT_* and the CFG fields (30_encoding.md R74). -/
def State.argU32 (s : State) (r : ArgReg) : Nat := (s.arg r).u32

/-- The form `s32`: the operands of the bit utilities (30_encoding.md R74). -/
def State.argS32 (s : State) (r : ArgReg) : Int := (s.arg r).s32

/-- A host write to an ARG register: all 32 bits are stored (10_state.md R25). -/
def State.setArg (s : State) (r : ArgReg) (v : Word) : State :=
  match r with
  | .arg0 => { s with arg0 := v }
  | .arg1 => { s with arg1 := v }
  | .arg2 => { s with arg2 := v }
  | .arg3 => { s with arg3 := v }

end Sys2Proof.Machine
end

