-- ==== Sys2Proof/Machine/Ops.lean ====
section
/-! DEFINITION. The named operations over the word memories and the registers: reading and writing a word, the
defined ranges of the memories, ending a command with success or with an error report, the effects of a failed
COMPRESS, and the reset input (spec/20_memory.md R64 to R69, spec/60_exceptions.md R271, R273,
spec/42_contract.md R149, R151, spec/70_reset_and_hazards.md R300). -/

namespace Sys2Proof.Machine

/-- `MemRead` on one memory: the word listed at an index, none where nothing is listed (00_scope.md R17). -/
def Memory.read : Memory → Nat → Option Word
  | [], _ => none
  | (a, w) :: m, i => if a = i then some w else Memory.read m i

/-- `MemWrite` on one memory, keeping the indices strictly rising (00_scope.md R17). -/
def Memory.write : Memory → Nat → Word → Memory
  | [], i, v => [(i, v)]
  | (a, w) :: m, i, v =>
    if i < a then (i, v) :: (a, w) :: m
    else if i = a then (i, v) :: m
    else (a, w) :: Memory.write m i v

/-- Read, change and write back one listed word; an index that is not listed stays so. -/
def Memory.modify (m : Memory) (i : Nat) (f : Word → Word) : Memory :=
  m.map fun c => if c.1 = i then (c.1, f c.2) else c

/-- The memory that lists the words `vs` from index `a` on. -/
def Memory.ofWordsFrom : Nat → List Word → Memory
  | _, [] => []
  | a, v :: vs => (a, v) :: Memory.ofWordsFrom (a + 1) vs

/-- `count` words of zero from index 0 on (20_memory.md R65). -/
def Memory.zeros (count : Nat) : Memory := Memory.ofWordsFrom 0 (List.replicate count 0)

/-- `MemWrite` of the words `vs` at the indices from `a` on, in that order. -/
def Memory.writeFrom (m : Memory) (a : Nat) : List Word → Memory
  | [] => m
  | v :: vs => Memory.writeFrom (m.write a v) (a + 1) vs

/-- `MemRead` of `count` words from index `a` on; none if one of them is not listed. -/
def Memory.readRange (m : Memory) (a : Nat) : Nat → Option (List Word)
  | 0 => some []
  | count + 1 =>
    match m.read a, Memory.readRange m (a + 1) count with
    | some v, some vs => some (v :: vs)
    | _, _ => none

/-- Every index listed is at least `lo`, and they rise strictly. -/
def Memory.risingFrom : Nat → Memory → Bool
  | _, [] => true
  | lo, (a, _) :: m => decide (lo ≤ a) && Memory.risingFrom (a + 1) m

/-- The canonical form of a memory: strictly rising indices. An unlisted index holds no value, so no entry can
equal what an unlisted one reads as. -/
def Memory.wf (m : Memory) : Bool := Memory.risingFrom 0 m

/-- The PBUF word at index `j`: defined in [0, WORDS) while VALID = 1 (20_memory.md R66). -/
def State.pbufWord (s : State) (j : Nat) : Except Fault Word :=
  if s.valid = true ∧ j < s.words.toNat then
    match s.pbuf.read j with
    | some w => .ok w
    | none => .error .pbufUndefined
  else .error .pbufUndefined

/-- The OVT entry at index `j`: defined in [0, OVT_M) while VALID = 1 (20_memory.md R67). -/
def State.ovtWord (s : State) (j : Nat) : Except Fault Word :=
  if s.valid = true ∧ j < s.ovtM.toNat then
    match s.ovt.read j with
    | some w => .ok w
    | none => .error .ovtUndefined
  else .error .ovtUndefined

/-- The VOUT entry at index `j`: defined in [0, N) after a DECOMPRESS, until CFG or reset (20_memory.md R67). -/
def State.voutWord (s : State) (j : Nat) : Except Fault Word :=
  if j < s.n.toNat then
    match s.vout.read j with
    | some w => .ok w
    | none => .error .voutUndefined
  else .error .voutUndefined

/-- The VIN word at index `j`: what the host wrote (20_memory.md R51, R69). -/
def State.vinWord (s : State) (j : Nat) : Except Fault Word :=
  match s.vin.read j with
  | some w => .ok w
  | none => .error .vinUnwritten

/-- A command starts: BUSY is 1 from the CMD write on (10_state.md R28). Mark: DEDUCED,
notes/assumptions/10.md, safe. -/
def State.startCommand (s : State) : State := { s with busy := true }

/-- A command ends without error: ERR = OK, CAUSE = none, and BUSY returns to 0 (60_exceptions.md R273;
10_state.md R28). -/
def State.complete (s : State) : State := { s with err := .ok, cause := .noCause, busy := false }

/-- `raise Error(ERR, CAUSE)`: the error report and nothing else; BUSY then returns to 0 (60_exceptions.md R271).
This is all that taking an exception is on BPCORE: no state is saved and control goes nowhere (R280). -/
def State.raise (s : State) (c : Cause) : State :=
  { s with err := classOf c, cause := c, faultSeen := true, busy := false }

/-- The core writes RESULT (10_state.md R26). -/
def State.setResult (s : State) (v : Word) : State := { s with result := v }

/-- The effects of a failed COMPRESS: VALID, DELEG and the layout registers 0, PBUF and OVT unspecified, which
the model holds as nothing listed (42_contract.md R151). Mark: DEDUCED, notes/assumptions/7.md, unsafe. -/
def State.dropEncoding (s : State) : State :=
  { s with
    valid := false, deleg := false
    words := 0, ovtM := 0, smallW := 0, idxW := 0, ew := 0, hbits := 0
    pbuf := [], ovt := [] }

/-- A command succeeds with the scalar result `v`. -/
def succeedWith (v : Word) (s : State) : Host.Outcome State Fault Refusal := .next (s.setResult v).complete

/-- A command fails with the cause `c`: an error report is an outcome of the hardware, not a model fault
(60_exceptions.md R276). -/
def failWith (c : Cause) (s : State) : Host.Outcome State Fault Refusal := .next (s.raise c)

/-- A COMPRESS fails: the effects of R151 come first, then the error report (42_contract.md R151;
60_exceptions.md R271). -/
def failCompress (c : Cause) (s : State) : Host.Outcome State Fault Refusal := .next (s.dropEncoding.raise c)

/-- The check of every codec command: while CONFIGURED = 0 it fails with NOT_CONFIGURED (42_contract.md R149). -/
def requireConfigured (s : State) (run : State → Host.Outcome State Fault Refusal) :
    Host.Outcome State Fault Refusal :=
  if s.configured then run s else failWith .notConfigured s

/-- The reset input: every register at its reset value, the memories unspecified, the parameters kept
(70_reset_and_hazards.md R300). The host's events still to come and the words it has read are not BPCORE's. Mark:
DESIGN CHOICE, notes/assumptions/11.md, safe. -/
def State.applyReset (s : State) : State :=
  { State.resetWith s.params with pending := s.pending, observed := s.observed }

end Sys2Proof.Machine
end

