-- ==== Sys2Proof/Machine/BitUtil.lean ====
section
/-! DEFINITION. The bit-width decoder and the bit utilities, as functions and as the commands BITS_REQ, MASK,
CEIL_DIV and CEIL_LOG2 (spec/40_bitutil.md R100 to R110). -/

namespace Sys2Proof.Machine

/-- Leading zeros of the low `count` bits of `x`, from bit `count - 1` down. -/
def leadingZeros : Nat → Word → Nat
  | 0, _ => 0
  | count + 1, x => if x.getLsbD count then 0 else leadingZeros count x + 1

/-- `clz32(x)`: leading zero bits, 32 for x = 0 (00_scope.md R16). -/
def clz32 (x : Word) : Nat := leadingZeros 32 x

/-- `bitsReq(v)`: 1 when `s32(v) <= 0`, else `32 - clz32(v)` (R100). -/
def bitsReq (v : Word) : Nat := if v.s32 ≤ 0 then 1 else 32 - clz32 v

/-- `mask(w)`: all ones when `w >= 32`, else `2^w - 1` (R102). -/
def mask (w : Nat) : Word := if 32 ≤ w then BitVec.allOnes 32 else BitVec.ofNat 32 (2 ^ w - 1)

/-- `ceil_div(a, b)`: the exact ceiling of a / b, with no intermediate wrap (R104). -/
def ceilDiv (a b : Nat) : Nat := a / b + if a % b = 0 then 0 else 1

/-- `ceilLog2(x)`: 0 for `x <= 1`, else the smallest w with `2^w >= x` (R106). -/
def ceilLog2 (x : Nat) : Nat := if x ≤ 1 then 0 else Nat.log2 (x - 1) + 1

/-- `vpw(w)`: slots per word in a word-aligned layout (R108). -/
def vpw (w : Nat) : Nat := 32 / w

/-- The greater of two words by `s32`. -/
def maxS32 (a b : Word) : Word := if a.s32 < b.s32 then b else a

/-- `maxVal(x[0..n))`: the value with the greatest `s32`, and 0 for no values (R109). -/
def maxVal : List Word → Word
  | [] => 0
  | v :: vs => vs.foldl maxS32 v

/-- BITS_REQ (R101): RESULT is `bitsReq` of ARG0; it never fails. -/
def execBitsReq (s : State) : Host.Outcome State Fault Refusal :=
  succeedWith (BitVec.ofNat 32 (bitsReq (s.arg .arg0))) s

/-- MASK (R103): a negative width fails with ARG_UTIL. -/
def execMask (s : State) : Host.Outcome State Fault Refusal :=
  let w := s.argS32 .arg0
  if w < 0 then failWith .argUtil s else succeedWith (mask w.toNat) s

/-- CEIL_DIV (R105): `a < 0` or `b <= 0` fails with ARG_UTIL. -/
def execCeilDiv (s : State) : Host.Outcome State Fault Refusal :=
  let a := s.argS32 .arg0
  let b := s.argS32 .arg1
  if a < 0 ∨ b ≤ 0 then failWith .argUtil s
  else succeedWith (BitVec.ofNat 32 (ceilDiv a.toNat b.toNat)) s

/-- CEIL_LOG2 (R107): RESULT is `ceilLog2` of `s32(ARG0)`, 0 for every x ≤ 1; it never fails. -/
def execCeilLog2 (s : State) : Host.Outcome State Fault Refusal :=
  succeedWith (BitVec.ofNat 32 (ceilLog2 (s.argS32 .arg0).toNat)) s

end Sys2Proof.Machine
end

