-- ==== Sys2Proof/Machine/Barrel.lean ====
section
/-! DEFINITION. The barrel shifter, sub-word slot access, fields of PBUF and slot positions, and the commands
SLOT_EXTRACT and SLOT_INSERT (spec/41_barrel.md R120 to R130). -/

namespace Sys2Proof.Machine

/-- `shl32(x, s)`: shift left, bits above 31 dropped (R120). -/
def shl32 (x : Word) (s : Nat) : Word := x <<< s

/-- `shr32(x, s)`: logical shift right (R120). -/
def shr32 (x : Word) (s : Nat) : Word := x >>> s

/-- `extract(word, off, w)`: shift, then mask (R121). -/
def extract (word : Word) (off w : Nat) : Word := shr32 word off &&& mask w

/-- `insert(word, off, w, v)`: the low `w` bits of `v` at bit `off`, the other bits of `word` unchanged (R122). -/
def insertField (word : Word) (off w : Nat) (v : Word) : Word :=
  (word &&& ~~~(shl32 (mask w) off)) ||| shl32 (v &&& mask w) off

/-- `fieldOK(off, w)`, on exact values (R125). -/
def fieldOK (off w : Nat) : Bool := decide (off ≤ 31) && decide (w ≤ 32) && decide (off + w ≤ 32)

/-- `readField(pos, w)`: the field of width `w` at bit position `pos` of PBUF, from one word or from two
consecutive ones (R127; 20_memory.md R56). -/
def State.readField (s : State) (pos w : Nat) : Except Fault Word :=
  let wi := pos / 32
  let off := pos % 32
  if w ≤ 32 - off then
    match s.pbufWord wi with
    | .ok word => .ok (extract word off w)
    | .error f => .error f
  else
    let r := 32 - off
    match s.pbufWord wi, s.pbufWord (wi + 1) with
    | .ok low, .ok high => .ok (extract low off r ||| shl32 (extract high 0 (w - r)) r)
    | .error f, _ => .error f
    | .ok _, .error f => .error f

/-- `writeField(pos, w, v)`: the low `w` bits of `v` at bit position `pos`, every other bit unchanged (R128). -/
def Memory.writeField (m : Memory) (pos w : Nat) (v : Word) : Memory :=
  let wi := pos / 32
  let off := pos % 32
  let v := v &&& mask w
  if w ≤ 32 - off then m.modify wi fun word => insertField word off w v
  else
    let r := 32 - off
    (m.modify wi fun word => insertField word off r v).modify (wi + 1)
      fun word => insertField word 0 (w - r) (shr32 v r)

/-- The two classes of slot placement (R129; 10_state.md R38). -/
inductive LayoutClass where
  | alignedClass
  | contigClass
  deriving DecidableEq, Repr

/-- `slotPos(cls, i, w)`: the bit position of slot `i` of width `w` (R129). -/
def slotPos (cls : LayoutClass) (i w : Nat) : Nat :=
  match cls with
  | .alignedClass => i / vpw w * 32 + i % vpw w * w
  | .contigClass => i * w

/-- One field to be placed in PBUF: position, width, value. -/
structure FieldWrite where
  pos : Nat
  width : Nat
  value : Word
  deriving DecidableEq, Repr

/-- Place the fields in order with `writeField` (42_contract.md R152). -/
def Memory.place (m : Memory) : List FieldWrite → Memory
  | [] => m
  | f :: fs => Memory.place (m.writeField f.pos f.width f.value) fs

/-- The writes that place `values` as slots `i`, `i + 1`, ... of width `w` in a layout of class `cls`. -/
def slotWrites (cls : LayoutClass) (w : Nat) : Nat → List Word → List FieldWrite
  | _, [] => []
  | i, v :: vs => { pos := slotPos cls i w, width := w, value := v } :: slotWrites cls w (i + 1) vs

/-- SLOT_EXTRACT (R124): a field that leaves the word fails with ARG_UTIL. -/
def execSlotExtract (s : State) : Host.Outcome State Fault Refusal :=
  let off := s.argU32 .arg1
  let w := s.argU32 .arg2
  if fieldOK off w then succeedWith (extract (s.arg .arg0) off w) s else failWith .argUtil s

/-- SLOT_INSERT (R126): a field that leaves the word fails with ARG_UTIL. -/
def execSlotInsert (s : State) : Host.Outcome State Fault Refusal :=
  let off := s.argU32 .arg1
  let w := s.argU32 .arg2
  if fieldOK off w then succeedWith (insertField (s.arg .arg0) off w (s.arg .arg3)) s else failWith .argUtil s

end Sys2Proof.Machine
end

