-- ==== Sys2Proof/Machine/Plan.lean ====
section
/-! DEFINITION. The record a COMPRESS plan computes, with the writes of its mode, and how the core installs it
(spec/42_contract.md R150, R152; spec/10_state.md R38). -/

namespace Sys2Proof.Machine

/-- The plan of a COMPRESS: WORDS, K, CROSS, DELEG, the table, SMALLW, IDXW, EW, HBITS, and the fields that the
mode's write part places (R152). All numbers are exact (00_scope.md R16). -/
structure Plan where
  words : Nat
  k : Nat
  cross : Bool
  deleg : Bool
  table : List Word
  smallW : Nat
  idxW : Nat
  ew : Nat
  hbits : Nat
  writes : List FieldWrite
  deriving DecidableEq, Repr

/-- How the slots in PBUF are placed and decoded (10_state.md R38). -/
inductive Layout where
  | aligned
  | contig
  | ovfAligned
  | ovfContig
  deriving DecidableEq, Repr

/-- `layoutOf(MODE, DELEG)` (10_state.md R38). -/
def layoutOf (mode : Mode) (deleg : Bool) : Layout :=
  match mode, deleg with
  | .noCrossing, _ => .aligned
  | .crossing, _ => .contig
  | .searchNoCrossing, true => .contig
  | .searchCrossing, true => .contig
  | .overflowNoCrossing, _ => .ovfAligned
  | .overflowCrossing, _ => .ovfContig
  | .searchNoCrossing, false => .ovfAligned
  | .searchCrossing, false => .ovfContig

/-- The PBUF a plan leaves: WORDS words of zero, then the mode's writes (R150; 20_memory.md R65). -/
def Plan.buffer (p : Plan) : Memory := (Memory.zeros p.words).place p.writes

/-- The state changes of a successful COMPRESS (R150): PBUF and OVT anew, the layout registers, VALID. -/
def State.install (s : State) (p : Plan) : State :=
  { s with
    pbuf := p.buffer
    ovt := Memory.ofWordsFrom 0 p.table
    k := BitVec.ofNat 6 p.k
    cross := p.cross
    deleg := p.deleg
    words := BitVec.ofNat 32 p.words
    ovtM := BitVec.ofNat 32 p.table.length
    smallW := BitVec.ofNat 6 p.smallW
    idxW := BitVec.ofNat 6 p.idxW
    ew := BitVec.ofNat 6 p.ew
    hbits := BitVec.ofNat 32 p.hbits
    valid := true }

end Sys2Proof.Machine
end

