-- ==== Sys2Proof/Machine/Aligned.lean ====
section
/-! DEFINITION. The word-aligned bit-packer, mode 0 (spec/43_aligned.md R170 to R178). -/

namespace Sys2Proof.Machine

/-- The plan and write of mode 0, for slot width `k` (R172, R174); it never fails. -/
def planAligned (k : Nat) (vals : List Word) : Plan :=
  let words := ceilDiv vals.length (vpw k)
  { words := words, k := k, cross := false, deleg := false, table := []
    smallW := 0, idxW := 0, ew := 0, hbits := words * 32
    writes := slotWrites .alignedClass k 0 vals }

/-- `decodeAligned(i)` (R173). -/
def State.decodeAligned (s : State) (i : Nat) : Except Fault Word :=
  s.readField (slotPos .alignedClass i s.k.toNat) s.k.toNat

end Sys2Proof.Machine
end

