-- ==== Sys2Proof/Machine/Contiguous.lean ====
section
/-! DEFINITION. The contiguous bit-packer, mode 1 (spec/44_contiguous.md R190 to R197). -/

namespace Sys2Proof.Machine

/-- The plan and write of mode 1: the slot width is derived from the data (R190, R192, R193); it never fails. -/
def planContig (vals : List Word) : Plan :=
  let k := bitsReq (maxVal vals)
  { words := ceilDiv (vals.length * k) 32, k := k, cross := true, deleg := false, table := []
    smallW := 0, idxW := 0, ew := 0, hbits := vals.length * k
    writes := slotWrites .contigClass k 0 vals }

/-- `decodeContig(i)` (R194). -/
def State.decodeContig (s : State) (i : Nat) : Except Fault Word :=
  s.readField (slotPos .contigClass i s.k.toNat) s.k.toNat

end Sys2Proof.Machine
end

