-- ==== Sys2Proof/Machine/Overflow.lean ====
section
/-! DEFINITION. The two-tier overflow codec with the fixed split, modes 2 and 3, and the decode of every two-tier
layout (spec/45_overflow.md R210 to R225). -/

namespace Sys2Proof.Machine

/-- The slot of a small value: tag 0, direct payload (R212). -/
def slotSmall (bb : Nat) (v : Word) : Word := shl32 (v &&& mask bb) 1

/-- The slot of a large value with table index `j`: tag 1, payload `j` (R213). -/
def slotLarge (bb j : Nat) : Word := shl32 (BitVec.ofNat 32 j &&& mask bb) 1 ||| 1

/-- Build the slots and the table in input order, `table` being the entries so far (R214). A large value reuses
the first entry that holds it when `dedup` is set, and gets a new entry otherwise. -/
def splitFixed (dedup : Bool) (bb : Nat) (table : List Word) : List Word → List Word × List Word
  | [] => ([], table)
  | v :: vs =>
    if v.toNat < 2 ^ bb then
      let rest := splitFixed dedup bb table vs
      (slotSmall bb v :: rest.1, rest.2)
    else
      match if dedup then table.idxOf? v else none with
      | some j =>
        let rest := splitFixed dedup bb table vs
        (slotLarge bb j :: rest.1, rest.2)
      | none =>
        let rest := splitFixed dedup bb (table ++ [v]) vs
        (slotLarge bb table.length :: rest.1, rest.2)

/-- The words that `slots` slots of width `k` take in a layout of class `cls` (R218). -/
def slotWords (cls : LayoutClass) (slots k : Nat) : Nat :=
  match cls with
  | .alignedClass => ceilDiv slots (vpw k)
  | .contigClass => ceilDiv (slots * k) 32

/-- The plan and write of modes 2 and 3 for slot width `k` (R218, R219): more than 2^(K-1) entries fail with
IDX_CAPACITY (R216), then more than OVT_MAX with OVT_FULL (R217). Table entry j is placed as slot N + j. -/
def planFixed (p : Params) (cls : LayoutClass) (cross : Bool) (k : Nat) (vals : List Word) : Except Cause Plan :=
  let bb := k - 1
  let split := splitFixed p.ovfDedup bb [] vals
  let slots := split.1
  let table := split.2
  if 2 ^ bb < table.length then .error .idxCapacity
  else if p.ovtMax.toNat < table.length then .error .ovtFull
  else .ok
    { words := slotWords cls (vals.length + table.length) k
      k := k, cross := cross, deleg := false, table := table
      smallW := bb, idxW := bb, ew := k
      hbits := slotPos cls vals.length k
      writes := slotWrites cls k 0 slots ++ slotWrites cls k vals.length table }

/-- `decodeOvf(i)`: tag 0 returns the payload, tag 1 indexes the resident table (R221, R222). -/
def State.decodeOvf (s : State) (cls : LayoutClass) (i : Nat) : Except Fault Word :=
  let k := s.k.toNat
  match s.readField (slotPos cls i k) k with
  | .error f => .error f
  | .ok slot =>
    let tag := extract slot 0 1
    let payload := extract slot 1 (k - 1)
    if tag = 0 then .ok payload else s.ovtWord payload.toNat

end Sys2Proof.Machine
end

