-- ==== Sys2Proof/Machine/Search.lean ====
section
/-! DEFINITION. The configuration search, modes 4 and 5 (spec/46_search.md R240 to R257). -/

namespace Sys2Proof.Machine

/-- One candidate of the search: the small-value width, the large values in input order, their greatest width,
the index and slot widths, the header size and the cost, all in exact bits (R243 to R245). -/
structure Candidate where
  bb : Nat
  large : List Word
  kOv : Nat
  idxBits : Nat
  slotWidth : Nat
  header : Nat
  cost : Nat
  deriving DecidableEq, Repr

/-- The header cost of `n` slots of width `w` (R245). -/
def headerBits (cls : LayoutClass) (n w : Nat) : Nat :=
  match cls with
  | .contigClass => n * w
  | .alignedClass => ceilDiv n (vpw w) * 32

/-- `L_bb`: the values above `2^bb - 1`, in input order, every occurrence (R243). -/
def largeValues (bb : Nat) (vals : List Word) : List Word := vals.filter fun v => decide (2 ^ bb - 1 < v.toNat)

/-- The greatest `bitsReq` of a list of values (R243). -/
def maxBitsReq (vals : List Word) : Nat := vals.foldl (fun w v => max w (bitsReq v)) 0

/-- The candidate of small-value width `bb` (R243 to R245). -/
def candidate (cls : LayoutClass) (vals : List Word) (bb : Nat) : Candidate :=
  let large := largeValues bb vals
  let kOv := maxBitsReq large
  let idxBits := ceilLog2 large.length
  let slotWidth := 1 + max bb idxBits
  let header := headerBits cls vals.length slotWidth
  { bb := bb, large := large, kOv := kOv, idxBits := idxBits, slotWidth := slotWidth
    header := header, cost := header + large.length * kOv }

/-- Keep the candidate of the lower cost; a tie keeps the one found first (R246). -/
def better (best : Option Candidate) (c : Candidate) : Option Candidate :=
  match best with
  | none => some c
  | some b => if c.cost < b.cost then some c else some b

/-- The best of the candidates bb = 1, ..., `upTo`, tried in increasing order (R242, R246). -/
def bestUpTo (cls : LayoutClass) (vals : List Word) : Nat → Option Candidate
  | 0 => none
  | upTo + 1 => better (bestUpTo cls vals upTo) (candidate cls vals (upTo + 1))

/-- `maxBits` (R241). -/
def dataBits (vals : List Word) : Nat := bitsReq (maxVal vals)

/-- The selected candidate, or none when the COMPRESS delegates: no candidate, or none that beats the plain cost
of the contiguous codec (R246). -/
def selectSplit (cls : LayoutClass) (vals : List Word) : Option Candidate :=
  match bestUpTo cls vals (dataBits vals - 1) with
  | none => none
  | some best => if vals.length * dataBits vals ≤ best.cost then none else some best

/-- The header slots, `j` being the next table index: a small value with tag 0, the j-th large value with tag 1
and payload j (R249). -/
def searchSlots (bb : Nat) : Nat → List Word → List Word
  | _, [] => []
  | j, v :: vs =>
    if v.toNat ≤ 2 ^ bb - 1 then shl32 v 1 :: searchSlots bb j vs
    else (shl32 (BitVec.ofNat 32 j) 1 ||| 1) :: searchSlots bb (j + 1) vs

/-- The writes of the appended table: entry j at bit position `base + j * w`, of width `w` (R252). -/
def entryWrites (base w : Nat) : Nat → List Word → List FieldWrite
  | _, [] => []
  | j, v :: vs => { pos := base + j * w, width := w, value := v } :: entryWrites base w (j + 1) vs

/-- The plan and write of a delegated COMPRESS: mode 1's, with DELEG set (R247). -/
def planDelegated (vals : List Word) : Plan := { planContig vals with deleg := true }

/-- The plan and write of modes 4 and 5 (R246 to R252): the check against OVT_MAX is made on the selected
candidate only (R251). -/
def planSearch (p : Params) (cls : LayoutClass) (cross : Bool) (vals : List Word) : Except Cause Plan :=
  match selectSplit cls vals with
  | none => .ok (planDelegated vals)
  | some c =>
    if p.ovtMax.toNat < c.large.length then .error .ovtFull
    else .ok
      { words := ceilDiv (c.header + c.large.length * c.kOv) 32
        k := c.slotWidth, cross := cross, deleg := false, table := c.large
        smallW := c.bb, idxW := c.idxBits, ew := c.kOv, hbits := c.header
        writes := slotWrites cls c.slotWidth 0 (searchSlots c.bb 0 vals) ++ entryWrites c.header c.kOv 0 c.large }

end Sys2Proof.Machine
end

