-- ==== Sys2Proof/Machine/Contract.lean ====
section
/-! DEFINITION. The codec contract commands: NOP, CFG, COMPRESS, GET, DECOMPRESS and the accessors
(spec/42_contract.md R140 to R160). -/

namespace Sys2Proof.Machine

/-- NOP (R140): the status update only. -/
def execNop (s : State) : Host.Outcome State Fault Refusal := .next s.complete

/-- `kOK(mode, k)` (R142). -/
def kOK (mode : Mode) (k : Nat) : Bool :=
  match mode with
  | .noCrossing | .overflowNoCrossing | .overflowCrossing => decide (1 ≤ k) && decide (k ≤ 32)
  | .crossing | .searchNoCrossing | .searchCrossing => decide (k ≤ 32)

/-- The instance a successful CFG constructs; what was encoded before becomes unspecified (R141). -/
def State.construct (s : State) (mode : Mode) (n k : Nat) : State :=
  { s.dropEncoding with
    mode := mode
    n := BitVec.ofNat 32 n
    k := BitVec.ofNat 6 k
    cross := crossOf mode
    configured := true
    vout := [] }

/-- CFG (R141): ARG_MODE, then ARG_K, then N_CAPACITY. -/
def execCfg (s : State) : Host.Outcome State Fault Refusal :=
  let n := s.argU32 .arg1
  let k := s.argU32 .arg2
  match modeOf (s.argU32 .arg0) with
  | none => failWith .argMode s
  | some mode =>
    if kOK mode k = false then failWith .argK s
    else if s.params.nMax.toNat < n then failWith .nCapacity s
    else .next (s.construct mode n k).complete

/-- SIZE (R144): RESULT is N. -/
def execSize (s : State) : Host.Outcome State Fault Refusal := requireConfigured s fun s => succeedWith s.n s

/-- BPV (R145): RESULT is K. -/
def execBpv (s : State) : Host.Outcome State Fault Refusal :=
  requireConfigured s fun s => succeedWith (s.k.setWidth 32) s

/-- CROSSES (R146): RESULT is STATUS.CROSS. -/
def execCrosses (s : State) : Host.Outcome State Fault Refusal :=
  requireConfigured s fun s => succeedWith ((flagBit s.cross).setWidth 32) s

/-- CBITLEN (R147): RESULT is WORDS * 32. -/
def execCbitlen (s : State) : Host.Outcome State Fault Refusal :=
  requireConfigured s fun s => succeedWith (BitVec.ofNat 32 (s.words.toNat * 32)) s

/-- COMPRESSED (R148): RESULT is WORDS; the host reads the buffer itself through space 3. -/
def execCompressed (s : State) : Host.Outcome State Fault Refusal :=
  requireConfigured s fun s => succeedWith s.words s

/-- The mode's plan, for slot width `k` where the mode keeps the one of CFG (R152). -/
def plan (p : Params) (mode : Mode) (k : Nat) (vals : List Word) : Except Cause Plan :=
  match mode with
  | .noCrossing => .ok (planAligned k vals)
  | .crossing => .ok (planContig vals)
  | .overflowNoCrossing => planFixed p .alignedClass false k vals
  | .overflowCrossing => planFixed p .contigClass true k vals
  | .searchNoCrossing => planSearch p .alignedClass false vals
  | .searchCrossing => planSearch p .contigClass true vals

/-- The values COMPRESS reads: VIN[0..N) (R153; 20_memory.md R64). -/
def State.inputs (s : State) : Option (List Word) := s.vin.readRange 0 s.n.toNat

/-- COMPRESS on the values it read: the negative check of modes 1 to 5, the plan, the PBUF check, the write
(R150). -/
def compressValues (s : State) (vals : List Word) : Host.Outcome State Fault Refusal :=
  if s.mode ≠ .noCrossing ∧ vals.any Word.negative = true then failCompress .argNegative s
  else
    match plan s.params s.mode s.k.toNat vals with
    | .error c => failCompress c s
    | .ok p =>
      if s.params.pbufWords.toNat < p.words then failCompress .pbufFull s
      else .next (s.install p).complete

/-- COMPRESS (R150). Every failure, NOT_CONFIGURED among them, is a failed COMPRESS with the effects of R151
(60_exceptions.md R271, R274). -/
def execCompress (s : State) : Host.Outcome State Fault Refusal :=
  if s.configured = false then failCompress .notConfigured s
  else if s.argU32 .arg0 ≠ s.n.toNat then failCompress .argLength s
  else
    match s.inputs with
    | none => .fault .compressVinUnwritten
    | some vals => compressValues s vals

/-- `decodeAt(i)` (R154). -/
def State.decodeAt (s : State) (i : Nat) : Except Fault Word :=
  match layoutOf s.mode s.deleg with
  | .aligned => s.decodeAligned i
  | .contig => s.decodeContig i
  | .ovfAligned => s.decodeOvf .alignedClass i
  | .ovfContig => s.decodeOvf .contigClass i

/-- GET (R155, R156): INDEX_RANGE comes before the VALID precondition (60_exceptions.md R277). -/
def execGet (s : State) : Host.Outcome State Fault Refusal :=
  requireConfigured s fun s =>
    let i := s.argU32 .arg0
    if s.n.toNat ≤ i then failWith .indexRange s
    else if s.valid = false then .fault .getUnencoded
    else
      match s.decodeAt i with
      | .ok v => succeedWith v s
      | .error f => .fault f

/-- The decoded values of `count` indices from `i` on, in order (R158). -/
def State.decodeFrom (s : State) (i : Nat) : Nat → Except Fault (List Word)
  | 0 => .ok []
  | count + 1 =>
    match s.decodeAt i, State.decodeFrom s (i + 1) count with
    | .ok v, .ok vs => .ok (v :: vs)
    | .error f, _ => .error f
    | .ok _, .error f => .error f

/-- DECOMPRESS (R158, R156): VOUT[0..N) and RESULT; on a length mismatch nothing is written. -/
def execDecompress (s : State) : Host.Outcome State Fault Refusal :=
  requireConfigured s fun s =>
    if s.argU32 .arg0 ≠ s.n.toNat then failWith .outLength s
    else if s.valid = false then .fault .decompressUnencoded
    else
      match s.decodeFrom 0 s.n.toNat with
      | .ok vs => succeedWith s.n { s with vout := s.vout.writeFrom 0 vs }
      | .error f => .fault f

end Sys2Proof.Machine
end

