-- ==== Sys2Proof/Machine/Dispatch.lean ====
section
/-! DEFINITION. One arm per command: a direct call of its meaning (spec/30_encoding.md R73, R77). -/

namespace Sys2Proof.Machine

def exec (i : Instr) (s : State) : Host.Outcome State Fault Refusal :=
  match i with
  | .nop => Sys2Proof.Machine.execNop s
  | .cfg => Sys2Proof.Machine.execCfg s
  | .compress => Sys2Proof.Machine.execCompress s
  | .get => Sys2Proof.Machine.execGet s
  | .decompress => Sys2Proof.Machine.execDecompress s
  | .size => Sys2Proof.Machine.execSize s
  | .bpv => Sys2Proof.Machine.execBpv s
  | .cbitlen => Sys2Proof.Machine.execCbitlen s
  | .crosses => Sys2Proof.Machine.execCrosses s
  | .compressed => Sys2Proof.Machine.execCompressed s
  | .bitsReq => Sys2Proof.Machine.execBitsReq s
  | .mask => Sys2Proof.Machine.execMask s
  | .ceilDiv => Sys2Proof.Machine.execCeilDiv s
  | .ceilLog2 => Sys2Proof.Machine.execCeilLog2 s
  | .slotExtract => Sys2Proof.Machine.execSlotExtract s
  | .slotInsert => Sys2Proof.Machine.execSlotInsert s

end Sys2Proof.Machine
end

