-- ==== Sys2Proof/Machine/Port.lean ====
section
/-! DEFINITION. The host port: the register map, reads and writes of the five spaces, the CMD write that runs a
command, and the next host event (spec/10_state.md R24 to R35; spec/20_memory.md R50 to R54, R59;
spec/70_reset_and_hazards.md R300, R310). -/

namespace Sys2Proof.Machine

/-- The space of an address, bits 31:28 (20_memory.md R50). -/
def spaceOf (addr : Word) : Nat := (addr.extractLsb' 28 4).toNat

/-- The word index of an address, bits 27:0 (20_memory.md R50). -/
def indexOf (addr : Word) : Nat := (addr.extractLsb' 0 28).toNat

/-- The register map (10_state.md R34). -/
def regAt : Nat → Option Reg
  | 0x00 => some .cmd
  | 0x01 => some (.arg .arg0)
  | 0x02 => some (.arg .arg1)
  | 0x03 => some (.arg .arg2)
  | 0x04 => some (.arg .arg3)
  | 0x05 => some .result
  | 0x06 => some .status
  | 0x07 => some .mode
  | 0x08 => some .n
  | 0x09 => some .k
  | 0x0A => some .words
  | 0x0B => some .ovtM
  | 0x0C => some .smallW
  | 0x0D => some .idxW
  | 0x0E => some .ew
  | 0x0F => some .hbits
  | 0x10 => some .capN
  | 0x11 => some .capPbuf
  | 0x12 => some .capOvt
  | 0x13 => some .features
  | _ => none

/-- The word a register reads as; bits above its width read 0 (10_state.md R24 to R33). -/
def readReg (s : State) : Reg → Word
  | .cmd => 0
  | .arg r => s.arg r
  | .result => s.result
  | .status => statusWord s
  | .mode => (modeCode s.mode).setWidth 32
  | .n => s.n
  | .k => s.k.setWidth 32
  | .words => s.words
  | .ovtM => s.ovtM
  | .smallW => s.smallW.setWidth 32
  | .idxW => s.idxW.setWidth 32
  | .ew => s.ew.setWidth 32
  | .hbits => s.hbits
  | .capN => s.params.nMax.setWidth 32
  | .capPbuf => s.params.pbufWords.setWidth 32
  | .capOvt => s.params.ovtMax
  | .features => featuresWord s.params

/-- A memory word as the outcome of a read. -/
def readOutcome (r : Except Fault Word) : Host.Outcome Word Fault Refusal :=
  match r with
  | .ok w => .next w
  | .error f => .fault f

/-- The word a host read of an address returns (20_memory.md R51, R52). -/
def portRead (s : State) (addr : Word) : Host.Outcome Word Fault Refusal :=
  let i := indexOf addr
  match spaceOf addr with
  | 0 =>
    match regAt i with
    | some r => .next (readReg s r)
    | none => .refused .reservedRegister
  | 1 => if i < s.params.nMax.toNat then readOutcome (s.vinWord i) else .refused .beyondDepth
  | 2 => if i < s.params.nMax.toNat then readOutcome (s.voutWord i) else .refused .beyondDepth
  | 3 => if i < s.params.pbufWords.toNat then readOutcome (s.pbufWord i) else .refused .beyondDepth
  | 4 => if i < s.params.ovtMax.toNat then readOutcome (s.ovtWord i) else .refused .beyondDepth
  | _ => .refused .reservedSpace

/-- The cause an illegal CMD word is reported with (30_encoding.md R72). -/
def causeOfDecode : DecodeError → Cause
  | .reservedBits => .reservedBits
  | .reservedOpcode => .reservedOpcode

/-- A host write of the word `c` to CMD: decode it and perform the command on the ARG words as they are, all in
one step (30_encoding.md R71, R72; 70_reset_and_hazards.md R312). -/
def runCommand (s : State) (c : Word) : Host.Outcome State Fault Refusal :=
  match decode c with
  | .ok i => exec i s.startCommand
  | .error e => failWith (causeOfDecode e) s.startCommand

/-- A host write to a register: CMD runs a command, ARG0..ARG3 store the word, a read-only register ignores it
(10_state.md R24, R25, R35). -/
def writeReg (s : State) (r : Reg) (data : Word) : Host.Outcome State Fault Refusal :=
  match r with
  | .cmd => runCommand s data
  | .arg r => .next (s.setArg r data)
  | .result | .status | .mode | .n | .k | .words | .ovtM | .smallW | .idxW | .ew | .hbits | .capN | .capPbuf
  | .capOvt | .features => .next s

/-- A host write (20_memory.md R51, R52). Which breach a refusal names first is a DESIGN CHOICE,
notes/assumptions/13.md, safe. -/
def portWrite (s : State) (addr data : Word) : Host.Outcome State Fault Refusal :=
  let i := indexOf addr
  match spaceOf addr with
  | 0 =>
    match regAt i with
    | some r => writeReg s r data
    | none => .refused .reservedRegister
  | 1 => if i < s.params.nMax.toNat then .next { s with vin := s.vin.write i data } else .refused .beyondDepth
  | 2 => .refused .readOnlySpace
  | 3 => .refused .readOnlySpace
  | 4 => .refused .readOnlySpace
  | _ => .refused .reservedSpace

/-- The address of a register (30_encoding.md R82: `REG.STATUS` is index 0x06 of space 0). -/
def statusAddr : Word := 0x00000006

/-- The address of CMD. -/
def cmdAddr : Word := 0x00000000

/-- A host read: no side effect but that the host now has the word (20_memory.md R54; 30_encoding.md R84). -/
def hostRead (s : State) (addr : Word) : Host.Outcome State Fault Refusal :=
  match portRead s addr with
  | .next w => .next { s with observed := s.observed ++ [w] }
  | .fault f => .fault f
  | .refused r => .refused r

/-- One host access. While BUSY = 1 only a read of STATUS is inside the interface (70_reset_and_hazards.md
R310); BUSY is 0 in every state a run exposes. -/
def performAccess (s : State) (a : Access) : Host.Outcome State Fault Refusal :=
  if s.busy = true ∧ a ≠ .rd statusAddr then .refused .accessWhileBusy
  else
    match a with
    | .wr addr data => portWrite s addr data
    | .rd addr => hostRead s addr

/-- One host event: an access, or the reset input between commands (70_reset_and_hazards.md R300). -/
def performEvent (s : State) : Event → Host.Outcome State Fault Refusal
  | .access a => performAccess s a
  | .reset => .next s.applyReset

/-- One step: the next host event. With none to come BPCORE does nothing and keeps its state
(10_state.md R20; 60_exceptions.md R289). -/
def nextEvent (s : State) : Host.Outcome State Fault Refusal :=
  match s.pending with
  | [] => .next s
  | e :: rest => performEvent { s with pending := rest } e

/-- Put a CMD write of the word `c` before the host's other events. -/
def State.placeCommand (s : State) (c : Word) : State :=
  { s with pending := .access (.wr cmdAddr c) :: s.pending }

end Sys2Proof.Machine
end

