-- ==== Sys2Proof/Machine/HostProgram.lean ====
section
/-! DEFINITION. Host programs: symbolic addresses, the expansion of the pseudo-instructions into accesses, the
listing of an access in hexadecimal, and loading a program (spec/30_encoding.md R81 to R89). -/

namespace Sys2Proof.Machine

/-- The port address `{space, index}` (30_encoding.md R82; 20_memory.md R50). -/
def portAddr (space : BitVec 4) (index : BitVec 28) : Word := space ++ index

/-- The index of a register, the inverse of the register map (10_state.md R34). -/
def regIndex : Reg → BitVec 28
  | .cmd => 0x00
  | .arg .arg0 => 0x01
  | .arg .arg1 => 0x02
  | .arg .arg2 => 0x03
  | .arg .arg3 => 0x04
  | .result => 0x05
  | .status => 0x06
  | .mode => 0x07
  | .n => 0x08
  | .k => 0x09
  | .words => 0x0A
  | .ovtM => 0x0B
  | .smallW => 0x0C
  | .idxW => 0x0D
  | .ew => 0x0E
  | .hbits => 0x0F
  | .capN => 0x10
  | .capPbuf => 0x11
  | .capOvt => 0x12
  | .features => 0x13

/-- `REG.<name>` (30_encoding.md R82). -/
def regAddr (r : Reg) : Word := portAddr 0x0 (regIndex r)

/-- `VIN[i]` (30_encoding.md R82). -/
def vinAddr (i : Nat) : Word := portAddr 0x1 (BitVec.ofNat 28 i)

/-- `VOUT[i]` (30_encoding.md R82). -/
def voutAddr (i : Nat) : Word := portAddr 0x2 (BitVec.ofNat 28 i)

/-- `PBUF[i]` (30_encoding.md R82). -/
def pbufAddr (i : Nat) : Word := portAddr 0x3 (BitVec.ofNat 28 i)

/-- `OVT[i]` (30_encoding.md R82). -/
def ovtAddr (i : Nat) : Word := portAddr 0x4 (BitVec.ofNat 28 i)

/-- `CMD <MNEMONIC>` (R83). -/
def cmdAccess (i : Instr) : Access := .wr (regAddr .cmd) (encode i)

/-- `WAIT`: in the model BUSY is 0 between steps, so it is exactly one read of STATUS (R85). -/
def waitAccess : Access := .rd (regAddr .status)

/-- The ARG writes of the command form, for the operands given (R86). -/
def argWrites (args : List Word) : List Access :=
  List.zipWith (fun r a => Access.wr (regAddr (.arg r)) a) [.arg0, .arg1, .arg2, .arg3] args

/-- The expansion of a line of a host program into accesses (R81 to R88). -/
def expand : Pseudo → List Access
  | .wr addr data => [.wr addr data]
  | .rd addr => [.rd addr]
  | .cmd i => [cmdAccess i]
  | .wait => [waitAccess]
  | .form i args => argWrites args ++ [cmdAccess i, waitAccess]
  | .loadv values => values.mapIdx fun i v => .wr (vinAddr i) v
  | .readv m => (List.range m).map fun i => .rd (voutAddr i)
  | .readp m => (List.range m).map fun i => .rd (pbufAddr i)
  | .rdres => [.rd (regAddr .result)]
  | .rdstat => [.rd (regAddr .status)]

/-- A whole host program as the accesses it stands for (R84). -/
def expandAll (program : List Pseudo) : List Access := program.flatMap expand

/-- A state whose host still has to run `program` (R84). -/
def State.load (s : State) (program : List Pseudo) : State :=
  { s with pending := s.pending ++ (expandAll program).map Event.access }

/-- One hexadecimal digit, capitals as in the listings of spec/95_test_vectors.md. Mark: DEDUCED,
notes/assumptions/17.md, safe. -/
def hexDigit (d : Nat) : Char := if d < 10 then Char.ofNat (48 + d) else Char.ofNat (55 + d)

/-- The last `digits` hexadecimal digits of a number. -/
def hexDigits : Nat → Nat → List Char
  | 0, _ => []
  | digits + 1, v => hexDigits digits (v / 16) ++ [hexDigit (v % 16)]

/-- A word as 8 hexadecimal digits (R89). -/
def hex8 (w : Word) : List Char := hexDigits 8 w.toNat

/-- A listing line: `W addr data` or `R addr` (R89). -/
def listing : Access → List Char
  | .wr addr data => ['W', ' '] ++ hex8 addr ++ [' '] ++ hex8 data
  | .rd addr => ['R', ' '] ++ hex8 addr

end Sys2Proof.Machine
end

