-- ==== Sys2Proof/Machine/Step.lean ====
section
/-! DEFINITION. One step of the machine, and a CMD word placed where the step takes its next event
(spec/10_state.md R20, R23; spec/30_encoding.md R71, R84). -/

namespace Sys2Proof.Machine

/-- One step: the next host event (30_encoding.md R84; 70_reset_and_hazards.md R312). -/
def step (s : State) : Host.Outcome State Fault Refusal := nextEvent s

/-- `s` with a CMD write of the word `w` as its next host event, so that the very next step runs it. BPCORE
fetches nothing (10_state.md R23): a program is the host's accesses (notes/assumptions/1.md). -/
def State.withFetchWord (s : State) (nbits w : Nat) : State := s.placeCommand (BitVec.ofNat 32 (w % 2 ^ nbits))

end Sys2Proof.Machine
end

