-- ==== Sys2Proof/Safety.lean ====
section
/-! DEFINITION. The terms claims are stated in: what the error report, a result and a failed COMPRESS leave, what a
safe step is, and the invariants of spec/10_state.md R28, R29, R39. Each is written out from the rule it cites and
not in terms of the operations of Machine/Ops.lean. -/

namespace Sys2Proof.Machine

/-! ### What a command leaves -/

/-- `s` after a command that succeeds and writes nothing else (60_exceptions.md R273; 10_state.md R28). -/
def State.afterSuccess (s : State) : State := { s with err := .ok, cause := .noCause, busy := false }

/-- `s` after a command that succeeds with RESULT `v` and writes nothing else. -/
def State.afterResult (s : State) (v : Word) : State :=
  { s with result := v, err := .ok, cause := .noCause, busy := false }

/-- `s` after `raise Error(e, c)`: the error report and nothing else (60_exceptions.md R271). -/
def State.afterError (s : State) (e : ErrClass) (c : Cause) : State :=
  { s with err := e, cause := c, faultSeen := true, busy := false }

/-- `s` after a failed COMPRESS: the effects of 42_contract.md R151, then the error report. -/
def State.afterFailedCompress (s : State) (e : ErrClass) (c : Cause) : State :=
  { s with
    valid := false, deleg := false, words := 0, ovtM := 0, smallW := 0, idxW := 0, ew := 0, hbits := 0
    pbuf := [], ovt := [], err := e, cause := c, faultSeen := true, busy := false }

/-- A step that neither faults nor is refused. -/
def Runs (o : Host.Outcome State Fault Refusal) : Prop := ∃ t, o = .next t

/-- The outcome is a refusal: the host left the defined interface. -/
def Refuses (o : Host.Outcome State Fault Refusal) : Prop := ∃ r, o = .refused r

/-! ### The overflow table of modes 2 and 3 -/

/-- The large values of an input for the base width `bb`, in input order (45_overflow.md R211). -/
def largeOf (bb : Nat) (vals : List Word) : List Word :=
  vals.filter fun v => decide (2 ^ bb ≤ v.toNat)

/-- The overflow table R214 builds: every large value in input order, or each at its first occurrence only. -/
def tableOf (dedup : Bool) (bb : Nat) (vals : List Word) : List Word :=
  if dedup then (largeOf bb vals).eraseDups else largeOf bb vals

/-- The table index of the large value `v` at place `i` of an input (R214): its first place in the table where a
repeated value reuses its entry, else the number of large values before it. -/
def entryOf (dedup : Bool) (bb : Nat) (vals : List Word) (i : Nat) (v : Word) : Nat :=
  if dedup then (tableOf true bb vals).idxOf v else (largeOf bb (vals.take i)).length

/-! ### The packed buffer, bit by bit -/

/-- Bit `p` of a packed buffer is bit `p mod 32` of word `p div 32` (20_memory.md R56); none where no word is
listed. -/
def Memory.bitAt (m : Memory) (p : Nat) : Option Bool := (m.read (p / 32)).map fun w => w.getLsbD (p % 32)

/-- Bit `p` is inside the field. -/
def FieldWrite.covers (f : FieldWrite) (p : Nat) : Prop := f.pos ≤ p ∧ p < f.pos + f.width

/-- PBUF holds these fields and nothing else: each field the low bits of its value, every other bit of
[0, WORDS * 32) zero (20_memory.md R65). -/
def State.PacksExactly (s : State) (fields : List FieldWrite) : Prop :=
  (∀ f ∈ fields, ∀ b < f.width, s.pbuf.bitAt (f.pos + b) = some (f.value.getLsbD b)) ∧
    ∀ p < s.words.toNat * 32, (∀ f ∈ fields, ¬ f.covers p) → s.pbuf.bitAt p = some false

/-- Values as the slots `first`, `first + 1`, ... of width `w` (43_aligned.md R171; 44_contiguous.md R191; the
appended table of 45_overflow.md R219). -/
def valueFields (cls : LayoutClass) (w first : Nat) (vals : List Word) : List FieldWrite :=
  vals.mapIdx fun i v => { pos := slotPos cls (first + i) w, width := w, value := v }

/-- The tag and the payload of the slot of each value: the tag is bit 0 of the slot, 0 for a small value and 1 for a
large one; the payload above it is the value itself or its table index (45_overflow.md R210, R212, R213;
46_search.md R249). -/
def headerFields (cls : LayoutClass) (w bb : Nat) (dedup : Bool) (vals : List Word) : List FieldWrite :=
  vals.zipIdx.flatMap fun x =>
    let large := 2 ^ bb ≤ x.1.toNat
    [{ pos := slotPos cls x.2 w, width := 1, value := if large then 1 else 0 },
      { pos := slotPos cls x.2 w + 1, width := w - 1
        value := if large then BitVec.ofNat 32 (entryOf dedup bb vals x.2 x.1) else x.1 }]

/-- Table entries one after the other from bit `base` on, each of width `w` (46_search.md R252). -/
def entryFields (base w : Nat) (table : List Word) : List FieldWrite :=
  table.mapIdx fun j v => { pos := base + j * w, width := w, value := v }

/-! ### Invariants -/

/-- Every memory has its canonical form. -/
def State.MemoriesWf (s : State) : Prop :=
  s.vin.wf = true ∧ s.vout.wf = true ∧ s.pbuf.wf = true ∧ s.ovt.wf = true

/-- `m` lists the indices below `count` and no other. -/
def Memory.ListsExactly (m : Memory) (count : Nat) : Prop := ∀ j, (m.read j).isSome = decide (j < count)

/-- Whenever VALID is 0, the layout registers and DELEG are 0 (10_state.md R29). -/
def State.LayoutClearWhenInvalid (s : State) : Prop :=
  s.valid = false →
    s.words = 0 ∧ s.ovtM = 0 ∧ s.smallW = 0 ∧ s.idxW = 0 ∧ s.ew = 0 ∧ s.hbits = 0 ∧ s.deleg = false

/-- K, N, WORDS and OVT_M stay within their bounds (10_state.md R39 a, b, c). -/
def State.WithinBounds (s : State) : Prop :=
  s.k.toNat ≤ 32 ∧ (s.valid = true → 1 ≤ s.k.toNat) ∧ s.n.toNat ≤ s.params.nMax.toNat ∧
    s.words.toNat ≤ s.params.pbufWords.toNat ∧ s.ovtM.toNat ≤ s.params.ovtMax.toNat

/-- The mode keeps the slot width of CFG: modes 0, 2 and 3 (42_contract.md R142). -/
def KeepsWidth (mode : Mode) : Prop :=
  mode = .noCrossing ∨ mode = .overflowNoCrossing ∨ mode = .overflowCrossing

/-- Before the first CFG nothing is encoded (70_reset_and_hazards.md R301); in the modes that keep it, K is one
that CFG accepts (42_contract.md R142). -/
def State.InstanceLegal (s : State) : Prop :=
  (s.configured = false → s.valid = false ∧ s.mode = .noCrossing ∧ s.n = 0 ∧ s.k = 0) ∧
    (s.configured = true → KeepsWidth s.mode → 1 ≤ s.k.toNat)

/-- BUSY reads 0 between steps (10_state.md R28); ERR is the class of CAUSE (60_exceptions.md R270); an error
report comes with FAULTSEEN (60_exceptions.md R271). -/
def State.StatusConsistent (s : State) : Prop :=
  s.busy = false ∧ s.err = classOf s.cause ∧ (s.err ≠ .ok → s.faultSeen = true)

/-- WORDS as the layout gives it, per-word padding included (10_state.md R39 e; 90_conflicts.md C1). -/
def State.layoutWords (s : State) : Nat :=
  match s.mode, s.deleg with
  | .noCrossing, _ => ceilDiv s.n.toNat (vpw s.k.toNat)
  | .crossing, _ => ceilDiv (s.n.toNat * s.k.toNat) 32
  | .overflowNoCrossing, _ => ceilDiv (s.n.toNat + s.ovtM.toNat) (vpw s.k.toNat)
  | .overflowCrossing, _ => ceilDiv ((s.n.toNat + s.ovtM.toNat) * s.k.toNat) 32
  | .searchNoCrossing, true => ceilDiv (s.n.toNat * s.k.toNat) 32
  | .searchCrossing, true => ceilDiv (s.n.toNat * s.k.toNat) 32
  | .searchNoCrossing, false => ceilDiv (s.hbits.toNat + s.ovtM.toNat * s.ew.toNat) 32
  | .searchCrossing, false => ceilDiv (s.hbits.toNat + s.ovtM.toNat * s.ew.toNat) 32

/-- While VALID = 1: PBUF lists exactly [0, WORDS) and OVT exactly [0, OVT_M) (20_memory.md R66, R67), WORDS is
that of the layout (10_state.md R39 e), and every slot decodes, so that every tag-1 payload of the header is below
OVT_M (10_state.md R39 d). -/
def State.EncodingReadable (s : State) : Prop :=
  s.valid = true →
    s.pbuf.ListsExactly s.words.toNat ∧ s.ovt.ListsExactly s.ovtM.toNat ∧ s.words.toNat = s.layoutWords ∧
      ∀ i < s.n.toNat, ∃ v, s.decodeAt i = .ok v

/-- VIN and VOUT list no index at or past their depth (20_memory.md R51). -/
def State.WithinDepth (s : State) : Prop :=
  ∀ j, s.params.nMax.toNat ≤ j → s.vin.read j = none ∧ s.vout.read j = none

/-- Everything that holds in every state between commands. -/
def State.Inv (s : State) : Prop :=
  s.MemoriesWf ∧ s.LayoutClearWhenInvalid ∧ s.WithinBounds ∧ s.InstanceLegal ∧ s.StatusConsistent ∧
    s.EncodingReadable ∧ s.WithinDepth

end Sys2Proof.Machine
end

