-- ==== Sys2Proof/WellFormed.lean ====
section
/-! DEFINITION. What a well-formed host access and host-program line are: the host's duties of
spec/20_memory.md R52 and spec/10_state.md R35, and the shape of the notation (spec/30_encoding.md R82 to R87).
A command has no field, so every term of `Instr` is well formed. -/

namespace Sys2Proof

/-- Every command is well formed: it carries no operand field (30_encoding.md R70, R76). -/
def Instr.wf : Instr → Bool
  | .nop | .cfg | .compress | .get | .decompress | .size | .bpv | .cbitlen | .crosses | .compressed
  | .bitsReq | .mask | .ceilDiv | .ceilLog2 | .slotExtract | .slotInsert => true

/-- How many words a space has, by the number in address bits 31:28; a reserved space has none (R51). -/
def Params.depth (p : Params) (space : Nat) : Nat :=
  match space with
  | 0 => 0x14
  | 1 => p.nMax.toNat
  | 2 => p.nMax.toNat
  | 3 => p.pbufWords.toNat
  | 4 => p.ovtMax.toNat
  | _ => 0

/-- An access inside the defined interface: its word index is below the depth of its space, and a write goes to
the registers or to VIN (R51, R52; 10_state.md R35). -/
def Access.wf (p : Params) : Access → Bool
  | .wr addr _ => decide (addr.toNat % 2 ^ 28 < p.depth (addr.toNat / 2 ^ 28)) && decide (addr.toNat / 2 ^ 28 < 2)
  | .rd addr => decide (addr.toNat % 2 ^ 28 < p.depth (addr.toNat / 2 ^ 28))

/-- A well-formed line of a host program: at most four operands in the command form (R86), and indices that fit
the 28 bits of a symbolic address (R82). -/
def Pseudo.wf : Pseudo → Bool
  | .wr _ _ | .rd _ | .wait | .rdres | .rdstat => true
  | .cmd i => i.wf
  | .form i args => i.wf && decide (args.length ≤ 4)
  | .loadv values => decide (values.length ≤ 2 ^ 28)
  | .readv m => decide (m ≤ 2 ^ 28)
  | .readp m => decide (m ≤ 2 ^ 28)

end Sys2Proof
end

