-- ==== Sys2Proof/Certificates/Slice0/Obligations.lean ====
section
/-! DEFINITION. The statements for the provers, from the numbered rules of spec/. Each docstring names the rule it
formalises. -/

open Sys2Proof Sys2Proof.Machine

/-! ### Command words and the step -/

/-- Every word of the opcode map of 30_encoding.md section 1, and a few of its reserved part, decode as the map says. -/
def Obligations.DecodeReadsSpecWords : Prop :=
  decode 0x00000000#32 = .ok .nop ∧ decode 0x00000001#32 = .ok .cfg ∧ decode 0x00000002#32 = .ok .compress ∧
    decode 0x00000003#32 = .ok .get ∧ decode 0x00000004#32 = .ok .decompress ∧ decode 0x00000005#32 = .ok .size ∧
    decode 0x00000006#32 = .ok .bpv ∧ decode 0x00000007#32 = .ok .cbitlen ∧ decode 0x00000008#32 = .ok .crosses ∧
    decode 0x00000009#32 = .ok .compressed ∧ decode 0x0000000A#32 = .ok .bitsReq ∧ decode 0x0000000B#32 = .ok .mask ∧
    decode 0x0000000C#32 = .ok .ceilDiv ∧ decode 0x0000000D#32 = .ok .ceilLog2 ∧
    decode 0x0000000E#32 = .ok .slotExtract ∧ decode 0x0000000F#32 = .ok .slotInsert ∧
    decode 0x00000010#32 = .error .reservedOpcode ∧ decode 0x0000001F#32 = .error .reservedOpcode ∧
    decode 0x00000020#32 = .error .reservedBits ∧ decode 0x00000030#32 = .error .reservedBits

/-- 30_encoding.md R72: a CMD write of any word is decoded in the order of the rule. Nonzero bits 31:5 report
RESERVED_BITS, then an opcode of 0x10 or above reports RESERVED_OPCODE, and any other word runs the command of
that opcode. -/
def Obligations.CmdWriteDecodesInOrder : Prop :=
  ∀ (s : State) (c : Word), s.busy = false →
    (c.extractLsb' 5 27 ≠ 0 →
      performAccess s (.wr 0x00000000#32 c) = .next (s.afterError .illegalCommand .reservedBits)) ∧
    (c.extractLsb' 5 27 = 0 → 0x10 ≤ (c.extractLsb' 0 5).toNat →
      performAccess s (.wr 0x00000000#32 c) = .next (s.afterError .illegalCommand .reservedOpcode)) ∧
    (c.extractLsb' 5 27 = 0 → (c.extractLsb' 0 5).toNat < 0x10 →
      ∃ i, opcodeOf i = c.extractLsb' 0 5 ∧ performAccess s (.wr 0x00000000#32 c) = exec i { s with busy := true })

/-- No command has more than one encoding, each legal word names exactly one command, and the legal words are
0x00000000..0x0000000F: the inference of 30_encoding.md section 1 from its opcode map. -/
def Obligations.LegalWordsNameOneCommand : Prop :=
  (∀ (c : Word) (i : Instr), decode c = .ok i ↔ c = encode i) ∧
    ∀ c : Word, (∃ i, decode c = .ok i) ↔ c.toNat ≤ 0x0F

/-- A step runs the decoded instruction: when the next host event writes a word that decodes to `i` to CMD, the step
is `exec i` on the state without that event and with BUSY = 1 (the start of the command). A step performs any access
on the state without that event, and `withFetchWord` places a CMD word to run next. The list of events is the model's
own (notes/assumptions/1.md). -/
def Obligations.StepRunsDecodedCommand : Prop :=
  (∀ (s : State) (c : Word) (i : Instr) (rest : List Event),
    s.busy = false → s.pending = .access (.wr 0x00000000#32 c) :: rest → decode c = .ok i → i.wf = true →
      step s = exec i { s with pending := rest, busy := true }) ∧
  (∀ (s : State) (a : Access) (rest : List Event), s.pending = .access a :: rest →
    step s = performAccess { s with pending := rest } a) ∧
  ∀ (s : State) (i : Instr), s.busy = false →
    step (s.withFetchWord 32 (encode i).toNat) = exec i { s with busy := true }

/-- With no host event to come BPCORE makes no step and keeps its state (10_state.md section 1). That a step of the
model is one host event is the model's choice (notes/assumptions/1.md). -/
def Obligations.IdleStepKeepsState : Prop := ∀ s : State, s.pending = [] → step s = .next s

/-! ### Bit utilities -/

/-- 40_bitutil.md R101: BITS_REQ always succeeds; RESULT is 1 for a maximum that is not positive, else the
smallest w with max < 2^w, and it lies in 1..31. -/
def Obligations.BitsReqGivesSmallestWidth : Prop :=
  encode .bitsReq = 0x0000000A#32 ∧
  ∀ s : State, ∃ w : Nat, exec .bitsReq s = .next (s.afterResult (BitVec.ofNat 32 w)) ∧ 1 ≤ w ∧ w ≤ 31 ∧
    (s.arg0.toInt ≤ 0 → w = 1) ∧
    (0 < s.arg0.toInt → s.arg0.toInt < 2 ^ w ∧ ∀ w' : Nat, s.arg0.toInt < 2 ^ w' → w ≤ w')

/-- 40_bitutil.md R103: MASK fails with ARG_UTIL on a negative width; else bit i of RESULT is 1 exactly for
i below the width, which is all ones from width 32 on. -/
def Obligations.MaskSetsLowBits : Prop :=
  encode .mask = 0x0000000B#32 ∧
  ∀ s : State,
    (s.arg0.toInt < 0 → exec .mask s = .next (s.afterError .invalidArgument .argUtil)) ∧
    (0 ≤ s.arg0.toInt → ∃ v : Word, exec .mask s = .next (s.afterResult v) ∧
      ∀ i : Nat, i < 32 → v.getLsbD i = decide ((i : Int) < s.arg0.toInt))

/-- 40_bitutil.md R105: CEIL_DIV fails with ARG_UTIL when a < 0 or b <= 0; else RESULT is the smallest q with
q * b >= a, at most 2^31 - 1. -/
def Obligations.CeilDivGivesSmallestQuotient : Prop :=
  encode .ceilDiv = 0x0000000C#32 ∧
  ∀ s : State,
    (s.arg0.toInt < 0 ∨ s.arg1.toInt ≤ 0 → exec .ceilDiv s = .next (s.afterError .invalidArgument .argUtil)) ∧
    (0 ≤ s.arg0.toInt → 0 < s.arg1.toInt → ∃ q : Nat,
      exec .ceilDiv s = .next (s.afterResult (BitVec.ofNat 32 q)) ∧ q < 2 ^ 31 ∧
        s.arg0.toInt ≤ q * s.arg1.toInt ∧ ∀ q' : Nat, s.arg0.toInt ≤ q' * s.arg1.toInt → q ≤ q')

/-- 40_bitutil.md R107: CEIL_LOG2 always succeeds; RESULT is 0 for x <= 1, else the smallest w with 2^w >= x,
and it lies in 0..31. -/
def Obligations.CeilLog2GivesSmallestPower : Prop :=
  encode .ceilLog2 = 0x0000000D#32 ∧
  ∀ s : State, ∃ w : Nat, exec .ceilLog2 s = .next (s.afterResult (BitVec.ofNat 32 w)) ∧ w ≤ 31 ∧
    (s.arg0.toInt ≤ 1 → w = 0) ∧
    (1 < s.arg0.toInt → s.arg0.toInt ≤ 2 ^ w ∧ ∀ w' : Nat, s.arg0.toInt ≤ 2 ^ w' → w ≤ w')

/-! ### Barrel shifter -/

/-- 41_barrel.md R121, R124, R125: SLOT_EXTRACT on a field inside the word gives word[off+w-1:off], zero-extended;
any other field fails with ARG_UTIL. The sum off + w is exact. -/
def Obligations.SlotExtractReadsField : Prop :=
  encode .slotExtract = 0x0000000E#32 ∧
  ∀ s : State,
    (s.arg1.toNat ≤ 31 ∧ s.arg2.toNat ≤ 32 ∧ s.arg1.toNat + s.arg2.toNat ≤ 32 →
      ∃ v : Word, exec .slotExtract s = .next (s.afterResult v) ∧
        ∀ i : Nat, v.getLsbD i = (decide (i < s.arg2.toNat) && s.arg0.getLsbD (s.arg1.toNat + i))) ∧
    (¬(s.arg1.toNat ≤ 31 ∧ s.arg2.toNat ≤ 32 ∧ s.arg1.toNat + s.arg2.toNat ≤ 32) →
      exec .slotExtract s = .next (s.afterError .invalidArgument .argUtil))

/-- 41_barrel.md R122, R125, R126: SLOT_INSERT on a field inside the word replaces word[off+w-1:off] by the low w
bits of v and keeps the other bits; any other field fails with ARG_UTIL. -/
def Obligations.SlotInsertWritesField : Prop :=
  encode .slotInsert = 0x0000000F#32 ∧
  ∀ s : State,
    (s.arg1.toNat ≤ 31 ∧ s.arg2.toNat ≤ 32 ∧ s.arg1.toNat + s.arg2.toNat ≤ 32 →
      ∃ v : Word, exec .slotInsert s = .next (s.afterResult v) ∧
        ∀ i : Nat, v.getLsbD i =
          if s.arg1.toNat ≤ i ∧ i < s.arg1.toNat + s.arg2.toNat then s.arg3.getLsbD (i - s.arg1.toNat)
          else s.arg0.getLsbD i) ∧
    (¬(s.arg1.toNat ≤ 31 ∧ s.arg2.toNat ≤ 32 ∧ s.arg1.toNat + s.arg2.toNat ≤ 32) →
      exec .slotInsert s = .next (s.afterError .invalidArgument .argUtil))

/-- The laws of extract and insert on their domain, (a) to (d) of 41_barrel.md section 1, which the spec infers from
their definitions. -/
def Obligations.ExtractInsertLaws : Prop :=
  ∀ (word v : Word) (off w : Nat), off ≤ 31 → w ≤ 32 → off + w ≤ 32 →
    extract (insertField word off w v) off w = v &&& mask w ∧
    (∀ off2 w2 : Nat, off2 ≤ 31 → w2 ≤ 32 → off2 + w2 ≤ 32 →
      (∀ b, off2 ≤ b → b < off2 + w2 → ¬(off ≤ b ∧ b < off + w)) →
      extract (insertField word off w v) off2 w2 = extract word off2 w2) ∧
    insertField word off w (extract word off w) = word ∧
    (off = 0 → w = 32 → insertField word off w v = v ∧ extract word off w = word)

/-- 41_barrel.md section 2: after writeField(pos, w, v) in defined words of PBUF, readField(pos, w) returns v masked
to w bits, and every field whose bit range does not meet [pos, pos + w) reads as before, so every other bit is
unchanged (the spec infers both). -/
def Obligations.FieldWriteReadsBack : Prop :=
  ∀ (s : State) (pos w : Nat) (v : Word), 1 ≤ w → w ≤ 32 → (∃ x, s.readField pos w = .ok x) →
    State.readField { s with pbuf := s.pbuf.writeField pos w v } pos w = .ok (v &&& mask w) ∧
    ∀ pos2 w2 : Nat, 1 ≤ w2 → w2 ≤ 32 → pos2 + w2 ≤ pos ∨ pos + w ≤ pos2 →
      State.readField { s with pbuf := s.pbuf.writeField pos w v } pos2 w2 = s.readField pos2 w2

/-- 41_barrel.md section 2, the spec's inference from its slot positions: in the aligned
class slot i lies in word i div vpw(w) alone; in the contiguous class slot i starts at bit i * w, crosses exactly when
(i * w mod 32) + w > 32, and never reaches a third word. -/
def Obligations.SlotsCrossOnlyWhenContiguous : Prop :=
  ∀ i w : Nat, 1 ≤ w → w ≤ 32 →
    slotPos .alignedClass i w / 32 = i / (32 / w) ∧
    slotPos .alignedClass i w % 32 = i % (32 / w) * w ∧ i % (32 / w) * w + w ≤ 32 ∧
    slotPos .contigClass i w = i * w ∧
    ((slotPos .contigClass i w + w - 1) / 32 ≠ slotPos .contigClass i w / 32 ↔ 32 < i * w % 32 + w) ∧
    (slotPos .contigClass i w + w - 1) / 32 ≤ i * w / 32 + 1

/-! ### NOP, CFG and the accessors -/

/-- 42_contract.md R140: NOP writes ERR = OK and CAUSE = 0x00, leaves FAULTSEEN, and does nothing else. -/
def Obligations.NopOnlyClearsReport : Prop :=
  encode .nop = 0x00000000#32 ∧ ∀ s : State, exec .nop s = .next (s.afterSuccess)

/-- 42_contract.md R141: CFG tests the mode, then the width (R142), then the count, each with its own report and
nothing else changed; otherwise it constructs the instance, with CROSS as R143 gives it, and PBUF, OVT and VOUT
become unspecified: a host read of any word of them faults. -/
def Obligations.CfgConstructsInstance : Prop :=
  encode .cfg = 0x00000001#32 ∧
  ∀ s : State,
    (5 < s.arg0.toNat → exec .cfg s = .next (s.afterError .invalidArgument .argMode)) ∧
    (s.arg0.toNat ≤ 5 →
      ¬(s.arg2.toNat ≤ 32 ∧ (s.arg0.toNat = 0 ∨ s.arg0.toNat = 2 ∨ s.arg0.toNat = 3 → 1 ≤ s.arg2.toNat)) →
      exec .cfg s = .next (s.afterError .invalidArgument .argK)) ∧
    (s.arg0.toNat ≤ 5 → s.arg2.toNat ≤ 32 →
      (s.arg0.toNat = 0 ∨ s.arg0.toNat = 2 ∨ s.arg0.toNat = 3 → 1 ≤ s.arg2.toNat) →
      (s.params.nMax.toNat < s.arg1.toNat → exec .cfg s = .next (s.afterError .capacity .nCapacity)) ∧
      (s.arg1.toNat ≤ s.params.nMax.toNat → ∃ t : State, exec .cfg s = .next t ∧
        (modeCode t.mode).toNat = s.arg0.toNat ∧
        t = { s with
              mode := t.mode, n := s.arg1, k := s.arg2.setWidth 6
              cross := decide (s.arg0.toNat = 1 ∨ s.arg0.toNat = 3 ∨ s.arg0.toNat = 5)
              configured := true, valid := false, deleg := false
              words := 0, ovtM := 0, smallW := 0, idxW := 0, ew := 0, hbits := 0
              pbuf := t.pbuf, ovt := t.ovt, vout := t.vout
              err := .ok, cause := .noCause, busy := false } ∧
        ∀ i : BitVec 28,
          (i.toNat < s.params.nMax.toNat → portRead t (0x2#4 ++ i) = .fault .voutUndefined) ∧
          (i.toNat < s.params.pbufWords.toNat → portRead t (0x3#4 ++ i) = .fault .pbufUndefined) ∧
          (i.toNat < s.params.ovtMax.toNat → portRead t (0x4#4 ++ i) = .fault .ovtUndefined)))

/-- 42_contract.md section 2: on a configured instance SIZE, BPV, CROSSES, CBITLEN and COMPRESSED give N, K,
STATUS.CROSS, WORDS * 32 (exact while WORDS is below 2^27) and WORDS, and change nothing else. -/
def Obligations.AccessorsReturnRegisters : Prop :=
  ∀ s : State, s.configured = true →
    exec .size s = .next (s.afterResult s.n) ∧
    exec .bpv s = .next (s.afterResult (s.k.setWidth 32)) ∧
    exec .crosses s = .next (s.afterResult (if s.cross then 1 else 0)) ∧
    exec .compressed s = .next (s.afterResult s.words) ∧
    ∃ v : Word, exec .cbitlen s = .next (s.afterResult v) ∧
      (s.words.toNat < 2 ^ 27 → v.toNat = s.words.toNat * 32)

/-- 60_exceptions.md R272: while CONFIGURED = 0 each of the eight codec commands fails with
ILLEGAL_COMMAND / NOT_CONFIGURED, whatever its operands. -/
def Obligations.CodecCommandsNeedInstance : Prop :=
  ∀ s : State, s.configured = false →
    (∀ i ∈ [Instr.size, .bpv, .cbitlen, .crosses, .compressed, .get, .decompress],
      exec i s = .next (s.afterError .illegalCommand .notConfigured)) ∧
    ∃ t, exec .compress s = .next t ∧ t.err = .illegalCommand ∧ t.cause = .notConfigured ∧ t.faultSeen = true

/-! ### COMPRESS -/

/-- 42_contract.md section 3, 60_exceptions.md section 2: the failures of COMPRESS in their order. A length
other than N comes first; a VIN word not written since reset faults; a negative value fails in modes 1 to 5; then
the mode's capacity causes; then PBUF_FULL. -/
def Obligations.CompressFailsInOrder : Prop :=
  ∀ s : State, s.configured = true →
    (s.arg0 ≠ s.n → exec .compress s = .next (s.afterFailedCompress .invalidArgument .argLength)) ∧
    (s.arg0 = s.n →
      ((∃ i < s.n.toNat, s.vin.read i = none) → exec .compress s = .fault .compressVinUnwritten) ∧
      ∀ vals : List Word, vals.length = s.n.toNat → (∀ i < s.n.toNat, s.vin.read i = vals[i]?) →
        (s.mode ≠ .noCrossing → (∃ v ∈ vals, v.toInt < 0) →
          exec .compress s = .next (s.afterFailedCompress .invalidArgument .argNegative)) ∧
        (s.mode = .noCrossing ∨ (∀ v ∈ vals, 0 ≤ v.toInt) →
          (∀ c, plan s.params s.mode s.k.toNat vals = .error c →
            exec .compress s = .next (s.afterFailedCompress .capacity c)) ∧
          ∀ p, plan s.params s.mode s.k.toNat vals = .ok p → s.params.pbufWords.toNat < p.words →
            exec .compress s = .next (s.afterFailedCompress .capacity .pbufFull)))

/-- 42_contract.md section 3: a COMPRESS whose length, values, plan and size pass installs the plan: PBUF is WORDS zero
words with the plan's fields placed in them, OVT is the table, the layout registers are the plan's, and VALID is 1.
Where each bit of PBUF then lies is said mode by mode below. -/
def Obligations.CompressInstallsPlan : Prop :=
  ∀ (s : State) (vals : List Word) (p : Plan),
    s.configured = true → s.arg0 = s.n → vals.length = s.n.toNat → (∀ i < s.n.toNat, s.vin.read i = vals[i]?) →
    (s.mode = .noCrossing ∨ ∀ v ∈ vals, 0 ≤ v.toInt) →
    plan s.params s.mode s.k.toNat vals = .ok p → p.words ≤ s.params.pbufWords.toNat →
      ∃ buf tab : Memory,
        exec .compress s = .next
          { s with
            pbuf := buf, ovt := tab
            k := BitVec.ofNat 6 p.k, cross := p.cross, deleg := p.deleg
            words := BitVec.ofNat 32 p.words, ovtM := BitVec.ofNat 32 p.table.length
            smallW := BitVec.ofNat 6 p.smallW, idxW := BitVec.ofNat 6 p.idxW, ew := BitVec.ofNat 6 p.ew
            hbits := BitVec.ofNat 32 p.hbits, valid := true
            err := .ok, cause := .noCause, busy := false } ∧
        (∀ j, tab.read j = p.table[j]?) ∧ buf.ListsExactly p.words ∧
        ∃ zero : Memory, (∀ j, zero.read j = if j < p.words then some 0 else none) ∧ buf = zero.place p.writes

/-- 42_contract.md R151: a failed COMPRESS sets VALID, DELEG and the layout registers to 0, leaves PBUF and OVT
unspecified (no value held, 93_implementation_defined.md U8), and keeps everything else but the error report: K,
CROSS, MODE, N, RESULT, VIN and VOUT. -/
def Obligations.FailedCompressEffects : Prop :=
  ∀ s t : State, exec .compress s = .next t → t.err ≠ .ok → t = s.afterFailedCompress t.err t.cause

/-- 43_aligned.md sections 1 to 3: in mode 0 a COMPRESS with the right length, written values and enough PBUF succeeds
with K unchanged, CROSS = DELEG = 0, WORDS = ceil_div(N, vpw(K)), HBITS = WORDS * 32 and the table registers 0; PBUF
holds the low K bits of value i in its aligned slot i, and zero in every other bit. -/
def Obligations.AlignedCompressRegisters : Prop :=
  ∀ (s : State) (vals : List Word), s.configured = true → s.mode = .noCrossing → 1 ≤ s.k.toNat → s.k.toNat ≤ 32 →
    s.arg0 = s.n → vals.length = s.n.toNat → (∀ i < s.n.toNat, s.vin.read i = vals[i]?) →
    (s.n.toNat + 32 / s.k.toNat - 1) / (32 / s.k.toNat) ≤ s.params.pbufWords.toNat →
      ∃ t, exec .compress s = .next t ∧ t.err = .ok ∧ t.valid = true ∧ t.k = s.k ∧ t.cross = false ∧
        t.deleg = false ∧ t.words.toNat = (s.n.toNat + 32 / s.k.toNat - 1) / (32 / s.k.toNat) ∧
        t.hbits.toNat = t.words.toNat * 32 ∧ t.ovtM = 0 ∧ t.smallW = 0 ∧ t.idxW = 0 ∧ t.ew = 0 ∧
        t.PacksExactly (valueFields .alignedClass s.k.toNat 0 vals)

/-- 44_contiguous.md R190, R191, R192: in mode 1 a COMPRESS of written, non-negative values with enough PBUF
succeeds; K is the least width from 1 on that holds every value, CROSS = 1, DELEG = 0, WORDS = ceil_div(N * K, 32),
HBITS = N * K and the table registers are 0; PBUF holds value i in bits [i * K, i * K + K), and zero in every other
bit. -/
def Obligations.ContiguousCompressRegisters : Prop :=
  ∀ (s : State) (vals : List Word), s.configured = true → s.mode = .crossing → s.arg0 = s.n →
    vals.length = s.n.toNat → (∀ i < s.n.toNat, s.vin.read i = vals[i]?) → (∀ v ∈ vals, 0 ≤ v.toInt) →
    ∃ w : Nat, 1 ≤ w ∧ w ≤ 31 ∧ (∀ v ∈ vals, v.toNat < 2 ^ w) ∧ (w = 1 ∨ ∃ v ∈ vals, 2 ^ (w - 1) ≤ v.toNat) ∧
      ((s.n.toNat * w + 31) / 32 ≤ s.params.pbufWords.toNat →
        ∃ t, exec .compress s = .next t ∧ t.err = .ok ∧ t.valid = true ∧ t.k.toNat = w ∧ t.cross = true ∧
          t.deleg = false ∧ t.words.toNat = (s.n.toNat * w + 31) / 32 ∧ t.hbits.toNat = s.n.toNat * w ∧
          t.ovtM = 0 ∧ t.smallW = 0 ∧ t.idxW = 0 ∧ t.ew = 0 ∧ t.PacksExactly (valueFields .contigClass w 0 vals))

/-- 45_overflow.md R216, R217: in modes 2 and 3 more than 2^(K-1) table entries fail with IDX_CAPACITY, and then
more than OVT_MAX entries with OVT_FULL; with at most 2^(K-1) and at most OVT_MAX entries, and enough PBUF, the
COMPRESS succeeds. The premise on K is part of the invariant. -/
def Obligations.FixedSplitChecksCapacity : Prop :=
  ∀ (s : State) (vals : List Word), s.configured = true →
    s.mode = .overflowNoCrossing ∨ s.mode = .overflowCrossing → s.arg0 = s.n → vals.length = s.n.toNat →
    (∀ i < s.n.toNat, s.vin.read i = vals[i]?) → (∀ v ∈ vals, 0 ≤ v.toInt) →
      (2 ^ (s.k.toNat - 1) < (tableOf s.params.ovfDedup (s.k.toNat - 1) vals).length →
        exec .compress s = .next (s.afterFailedCompress .capacity .idxCapacity)) ∧
      ((tableOf s.params.ovfDedup (s.k.toNat - 1) vals).length ≤ 2 ^ (s.k.toNat - 1) →
        (s.params.ovtMax.toNat < (tableOf s.params.ovfDedup (s.k.toNat - 1) vals).length →
          exec .compress s = .next (s.afterFailedCompress .capacity .ovtFull)) ∧
        ((tableOf s.params.ovfDedup (s.k.toNat - 1) vals).length ≤ s.params.ovtMax.toNat →
          1 ≤ s.k.toNat → s.k.toNat ≤ 32 →
          (s.mode = .overflowNoCrossing →
            (s.n.toNat + (tableOf s.params.ovfDedup (s.k.toNat - 1) vals).length + 32 / s.k.toNat - 1) /
              (32 / s.k.toNat) ≤ s.params.pbufWords.toNat) →
          (s.mode = .overflowCrossing →
            ((s.n.toNat + (tableOf s.params.ovfDedup (s.k.toNat - 1) vals).length) * s.k.toNat + 31) / 32 ≤
              s.params.pbufWords.toNat) →
          ∃ t, exec .compress s = .next t ∧ t.err = .ok ∧ t.cause = .noCause ∧ t.valid = true))

/-- 45_overflow.md R215, R219, and the registers and slots of sections 1 to 3: a successful COMPRESS in modes 2 and 3
keeps K, sets SMALLW = IDXW = K - 1 and EW = K, CROSS to 0 in mode 2 and 1 in mode 3, DELEG = 0, and leaves in OVT
exactly the table of original large values, with WORDS and HBITS as the plan gives them. PBUF holds the tag of value i
at bit 0 of slot i and its payload above, the low K bits of table entry j in slot N + j, and zero in every other
bit. -/
def Obligations.FixedSplitRegistersAndTable : Prop :=
  ∀ (s t : State) (vals : List Word) (cls : LayoutClass), s.configured = true →
    (s.mode = .overflowNoCrossing ∧ cls = .alignedClass) ∨ (s.mode = .overflowCrossing ∧ cls = .contigClass) →
    1 ≤ s.k.toNat → s.k.toNat ≤ 32 →
    s.n.toNat ≤ s.params.nMax.toNat → vals.length = s.n.toNat → (∀ i < s.n.toNat, s.vin.read i = vals[i]?) →
    exec .compress s = .next t → t.err = .ok →
      t.valid = true ∧ t.deleg = false ∧ t.k = s.k ∧ t.smallW.toNat = s.k.toNat - 1 ∧
      t.idxW.toNat = s.k.toNat - 1 ∧ t.ew = s.k ∧ t.cross = decide (s.mode = .overflowCrossing) ∧
      t.ovtM.toNat = (tableOf s.params.ovfDedup (s.k.toNat - 1) vals).length ∧
      (∀ j, t.ovt.read j = (tableOf s.params.ovfDedup (s.k.toNat - 1) vals)[j]?) ∧
      (s.mode = .overflowNoCrossing →
        t.words.toNat = (s.n.toNat + t.ovtM.toNat + 32 / s.k.toNat - 1) / (32 / s.k.toNat) ∧
        t.hbits.toNat = s.n.toNat / (32 / s.k.toNat) * 32 + s.n.toNat % (32 / s.k.toNat) * s.k.toNat) ∧
      (s.mode = .overflowCrossing →
        t.words.toNat = ((s.n.toNat + t.ovtM.toNat) * s.k.toNat + 31) / 32 ∧
        t.hbits.toNat = s.n.toNat * s.k.toNat) ∧
      t.PacksExactly
        (headerFields cls s.k.toNat (s.k.toNat - 1) s.params.ovfDedup vals ++
          valueFields cls s.k.toNat s.n.toNat (tableOf s.params.ovfDedup (s.k.toNat - 1) vals))

/-- 46_search.md R246: the candidate kept is one of bb = 1, ..., maxBits - 1, costs no more than any other and less
than every smaller bb, and beats the plain cost; and the COMPRESS delegates only when no candidate beats it. -/
def Obligations.SearchKeepsCheapestSplit : Prop :=
  ∀ (cls : LayoutClass) (vals : List Word),
    (∀ c, selectSplit cls vals = some c → ∃ bb, 1 ≤ bb ∧ bb < dataBits vals ∧ c = candidate cls vals bb ∧
      c.cost < vals.length * dataBits vals ∧
      (∀ b, 1 ≤ b → b < dataBits vals → c.cost ≤ (candidate cls vals b).cost) ∧
      ∀ b, 1 ≤ b → b < bb → c.cost < (candidate cls vals b).cost) ∧
    (selectSplit cls vals = none → ∀ b, 1 ≤ b → b < dataBits vals →
      vals.length * dataBits vals ≤ (candidate cls vals b).cost)

/-- 46_search.md section 1, of the data width and of a candidate: on fewer than 2^31 values without a negative one,
maxBits lies in 1..31 and is the least width that holds every value; and every candidate bb = 1, ..., maxBits - 1 has
a large value and its greatest width is maxBits, idxBits is the least width that counts the large values, the slot is
one bit wider than the greater of bb and idxBits, so at most 32 bits wide, and a small value and a table index both
fit in the payload; the header is that of N slots, and the cost is the header cost plus m * kOv. N <= N_MAX bounds the
number of values in every state that meets the invariant. -/
def Obligations.EveryCandidateHasLargeValue : Prop :=
  ∀ (cls : LayoutClass) (vals : List Word), (∀ v ∈ vals, 0 ≤ v.toInt) → vals.length < 2 ^ 31 →
    (1 ≤ dataBits vals ∧ dataBits vals ≤ 31 ∧ (∀ v ∈ vals, v.toNat < 2 ^ dataBits vals) ∧
      (dataBits vals = 1 ∨ ∃ v ∈ vals, 2 ^ (dataBits vals - 1) ≤ v.toNat)) ∧
    ∀ bb : Nat, 1 ≤ bb → bb < dataBits vals →
      (candidate cls vals bb).bb = bb ∧ (candidate cls vals bb).large = largeOf bb vals ∧
      1 ≤ (largeOf bb vals).length ∧
      (candidate cls vals bb).kOv = dataBits vals ∧ bb + 1 ≤ (candidate cls vals bb).kOv ∧
      (largeOf bb vals).length ≤ 2 ^ (candidate cls vals bb).idxBits ∧
      (∀ w, (largeOf bb vals).length ≤ 2 ^ w → (candidate cls vals bb).idxBits ≤ w) ∧
      (candidate cls vals bb).slotWidth = 1 + max bb (candidate cls vals bb).idxBits ∧
      (candidate cls vals bb).slotWidth ≤ 32 ∧
      (largeOf bb vals).length ≤ 2 ^ ((candidate cls vals bb).slotWidth - 1) ∧
      (cls = .contigClass → (candidate cls vals bb).header = vals.length * (candidate cls vals bb).slotWidth) ∧
      (cls = .alignedClass → (candidate cls vals bb).header =
        (vals.length + 32 / (candidate cls vals bb).slotWidth - 1) / (32 / (candidate cls vals bb).slotWidth) * 32) ∧
      (candidate cls vals bb).cost = (candidate cls vals bb).header + (largeOf bb vals).length * dataBits vals

/-- 46_search.md R248, R249, R250, R251, R252: with a selected candidate, more than OVT_MAX large values fail with
OVT_FULL; else, with enough PBUF, the COMPRESS succeeds with K = slotWidth, CROSS = 0 in mode 4 and 1 in mode 5,
DELEG = 0, SMALLW = bb, IDXW = idxBits, EW = kOv, HBITS = H, WORDS = ceil_div(cost, 32), and OVT holds the large
values in input order. PBUF holds the tag of value i at bit 0 of slot i and its payload above, table entry j in kOv
bits at H + j * kOv, and zero in every other bit. -/
def Obligations.SearchCompressRegisters : Prop :=
  ∀ (s : State) (vals : List Word) (cls : LayoutClass) (c : Candidate), s.configured = true →
    (s.mode = .searchNoCrossing ∧ cls = .alignedClass) ∨ (s.mode = .searchCrossing ∧ cls = .contigClass) →
    s.n.toNat ≤ s.params.nMax.toNat → s.arg0 = s.n → vals.length = s.n.toNat →
    (∀ i < s.n.toNat, s.vin.read i = vals[i]?) → (∀ v ∈ vals, 0 ≤ v.toInt) → selectSplit cls vals = some c →
      (s.params.ovtMax.toNat < c.large.length →
        exec .compress s = .next (s.afterFailedCompress .capacity .ovtFull)) ∧
      (c.large.length ≤ s.params.ovtMax.toNat → (c.cost + 31) / 32 ≤ s.params.pbufWords.toNat →
        ∃ t, exec .compress s = .next t ∧ t.err = .ok ∧ t.valid = true ∧ t.k.toNat = c.slotWidth ∧
          t.cross = decide (s.mode = .searchCrossing) ∧ t.deleg = false ∧ t.smallW.toNat = c.bb ∧
          t.idxW.toNat = c.idxBits ∧ t.ew.toNat = c.kOv ∧ t.hbits.toNat = c.header ∧
          t.words.toNat = (c.cost + 31) / 32 ∧ t.ovtM.toNat = c.large.length ∧
          (∀ j, t.ovt.read j = (largeOf c.bb vals)[j]?) ∧
          t.PacksExactly
            (headerFields cls c.slotWidth c.bb false vals ++ entryFields c.header c.kOv (largeOf c.bb vals)))

/-- 46_search.md R247: when no candidate is selected, modes 4 and 5 encode exactly as mode 1 on the same data, with
DELEG set, and the layout is contiguous. -/
def Obligations.DelegationEncodesAsContiguous : Prop :=
  ∀ (s u : State) (vals : List Word) (cls : LayoutClass),
    (s.mode = .searchNoCrossing ∧ cls = .alignedClass) ∨ (s.mode = .searchCrossing ∧ cls = .contigClass) →
    vals.length = s.n.toNat → (∀ i < s.n.toNat, s.vin.read i = vals[i]?) → selectSplit cls vals = none →
    exec .compress { s with mode := .crossing } = .next u → u.err = .ok →
      exec .compress s = .next { u with mode := s.mode, deleg := true } ∧
      layoutOf s.mode true = .contig ∧ u.cross = true ∧ u.ovtM = 0 ∧ u.smallW = 0 ∧ u.idxW = 0 ∧ u.ew = 0

/-- 20_memory.md section 3 (PBUF capacity), the spec's inference: with n <= N_MAX no layout needs more than 2 * n
words, so with PBUF_WORDS >= 2 * N_MAX a COMPRESS never fails with PBUF_FULL, and with OVT_MAX >= N_MAX never with
OVT_FULL; a layout that needs more than PBUF_WORDS words fails with PBUF_FULL. -/
def Obligations.CapacityBoundsSuffice : Prop :=
  ∀ s t : State, s.n.toNat ≤ s.params.nMax.toNat → s.k.toNat ≤ 32 → (KeepsWidth s.mode → 1 ≤ s.k.toNat) →
    exec .compress s = .next t →
      (∀ vals p, s.inputs = some vals → (s.mode = .noCrossing ∨ ∀ v ∈ vals, 0 ≤ v.toInt) →
        plan s.params s.mode s.k.toNat vals = .ok p → p.words ≤ 2 * s.n.toNat ∧
          (s.configured = true → s.arg0 = s.n → s.params.pbufWords.toNat < p.words → t.cause = .pbufFull)) ∧
      (2 * s.params.nMax.toNat ≤ s.params.pbufWords.toNat → t.cause ≠ .pbufFull) ∧
      (s.params.nMax.toNat ≤ s.params.ovtMax.toNat → t.cause ≠ .ovtFull)

/-- 42_contract.md section 4 (round trip), the spec's inference: after a successful COMPRESS every slot decodes to the
value encoded, masked to K bits in mode 0. The premises on K and N are part of the invariant. -/
def Obligations.CompressRoundTrip : Prop :=
  ∀ (s t : State) (vals : List Word), s.n.toNat ≤ s.params.nMax.toNat → s.k.toNat ≤ 32 →
    (KeepsWidth s.mode → 1 ≤ s.k.toNat) → vals.length = s.n.toNat → (∀ i < s.n.toNat, s.vin.read i = vals[i]?) →
    exec .compress s = .next t → t.err = .ok →
      ∀ (i : Nat) (x : Word), vals[i]? = some x →
        t.decodeAt i = .ok (if s.mode = .noCrossing then x &&& mask t.k.toNat else x)

/-- Nothing a COMPRESS leaves depends on PBUF, OVT or the layout registers before it, and it reads only MODE, N, the K
of CFG in modes 0, 2 and 3, ARG0, VIN and the parameters (42_contract.md section 4, the spec's inference; CONFIGURED
decides whether it runs at all). -/
def Obligations.CompressIgnoresEarlierEncoding : Prop :=
  (∀ (s : State) (pbuf ovt : Memory) (words ovtM hbits : Word) (smallW idxW ew : BitVec 6) (valid deleg : Bool),
    exec .compress { s with
      pbuf := pbuf, ovt := ovt, words := words, ovtM := ovtM, smallW := smallW, idxW := idxW, ew := ew
      hbits := hbits, valid := valid, deleg := deleg } = exec .compress s) ∧
  ∀ s u : State, u.params = s.params → u.mode = s.mode → u.n = s.n → u.arg0 = s.arg0 → u.vin = s.vin →
    u.configured = s.configured → (KeepsWidth s.mode → u.k = s.k) →
      (∀ f, exec .compress s = .fault f → exec .compress u = .fault f) ∧
      ∀ t, exec .compress s = .next t → ∃ t', exec .compress u = .next t' ∧
        t'.pbuf = t.pbuf ∧ t'.ovt = t.ovt ∧ t'.valid = t.valid ∧ t'.deleg = t.deleg ∧ t'.words = t.words ∧
        t'.ovtM = t.ovtM ∧ t'.smallW = t.smallW ∧ t'.idxW = t.idxW ∧ t'.ew = t.ew ∧ t'.hbits = t.hbits ∧
        t'.err = t.err ∧ t'.cause = t.cause ∧ (t.err = .ok → t'.k = t.k ∧ t'.cross = t.cross)

/-- 42_contract.md section 4 (size accounting), the spec's inference: after a successful COMPRESS the RESULT of
CBITLEN is that of COMPRESSED times 32, and in mode 1, and in modes 4 and 5 when delegated, N * K <= WORDS * 32 < N *
K + 32. -/
def Obligations.SizeAccounting : Prop :=
  ∀ s t : State, s.n.toNat ≤ s.params.nMax.toNat → exec .compress s = .next t → t.err = .ok →
    (∃ a b : Word, exec .cbitlen t = .next (t.afterResult a) ∧ exec .compressed t = .next (t.afterResult b) ∧
      a.toNat = b.toNat * 32) ∧
    (s.mode = .crossing ∨ t.deleg = true →
      t.n.toNat * t.k.toNat ≤ t.words.toNat * 32 ∧ t.words.toNat * 32 < t.n.toNat * t.k.toNat + 32)

/-! ### GET and DECOMPRESS -/

/-- 42_contract.md R155: GET reports NOT_CONFIGURED without an instance, then INDEX_RANGE for an index at or above N;
with VALID = 1 and an index in range RESULT is decodeAt(index) and nothing else changes; with VALID = 0 the value is
unspecified and the model faults (R156). -/
def Obligations.GetReturnsDecodedValue : Prop :=
  encode .get = 0x00000003#32 ∧
  ∀ s : State,
    (s.configured = false → exec .get s = .next (s.afterError .illegalCommand .notConfigured)) ∧
    (s.configured = true →
      (s.n.toNat ≤ s.arg0.toNat → exec .get s = .next (s.afterError .outOfRange .indexRange)) ∧
      (s.arg0.toNat < s.n.toNat →
        (s.valid = false → exec .get s = .fault .getUnencoded) ∧
        (s.valid = true → ∀ v, s.decodeAt s.arg0.toNat = .ok v → exec .get s = .next (s.afterResult v))))

/-- 42_contract.md section 4 (DECOMPRESS): it reports NOT_CONFIGURED without an instance, then OUT_LENGTH for a length
other than N, with no VOUT word written; with VALID = 1 and readable slots it writes VOUT[i] = decodeAt(i) for i < N
and no other word, and RESULT is N; with VALID = 0 the values are unspecified and the model faults. That it faults for
N = 0 too, where no value is open, is the model's reading (notes/assumptions/8.md, DEDUCED). -/
def Obligations.DecompressFillsVout : Prop :=
  encode .decompress = 0x00000004#32 ∧
  ∀ s : State,
    (s.configured = false → exec .decompress s = .next (s.afterError .illegalCommand .notConfigured)) ∧
    (s.configured = true →
      (s.arg0 ≠ s.n → exec .decompress s = .next (s.afterError .invalidArgument .outLength)) ∧
      (s.arg0 = s.n →
        (s.valid = false → exec .decompress s = .fault .decompressUnencoded) ∧
        (s.valid = true → (∀ i < s.n.toNat, ∃ v, s.decodeAt i = .ok v) →
          ∃ out : Memory, exec .decompress s = .next (State.afterResult { s with vout := out } s.n) ∧
            (∀ i < s.n.toNat, ∃ v, s.decodeAt i = .ok v ∧ out.read i = some v) ∧
            ∀ i, s.n.toNat ≤ i → out.read i = s.vout.read i)))

/-- 42_contract.md section 4 (the precondition of GET and DECOMPRESS): with VALID = 0 and an in-range operand they get
no value in the model: it faults. That DECOMPRESS faults for N = 0 too, where no value is open, is the model's reading
(notes/assumptions/8.md, DEDUCED). -/
def Obligations.UnencodedQueriesFault : Prop :=
  ∀ s : State, s.configured = true → s.valid = false →
    (s.arg0.toNat < s.n.toNat → exec .get s = .fault .getUnencoded) ∧
    (s.arg0 = s.n → exec .decompress s = .fault .decompressUnencoded)

/-- Every command runs to its end except where the spec says that the model faults: GET and DECOMPRESS with VALID = 0
and an operand in range, and COMPRESS with a VIN word that the host has not written (70_reset_and_hazards.md section
3, the spec's inference that no command hangs). The premise on the encoding is part of the invariant. -/
def Obligations.CommandsFaultOnlyWhereUnspecified : Prop :=
  ∀ (i : Instr) (s : State), s.EncodingReadable →
    (∃ t, exec i s = .next t) ∨
    (i = .get ∧ exec i s = .fault .getUnencoded ∧ s.configured = true ∧ s.valid = false ∧
      s.arg0.toNat < s.n.toNat) ∨
    (i = .decompress ∧ exec i s = .fault .decompressUnencoded ∧ s.configured = true ∧ s.valid = false ∧
      s.arg0 = s.n) ∨
    (i = .compress ∧ exec i s = .fault .compressVinUnwritten ∧ s.configured = true ∧ s.arg0 = s.n ∧
      ∃ j < s.n.toNat, s.vin.read j = none)

/-! ### Error reports and frames -/

/-- 60_exceptions.md section 1: after any command ERR and CAUSE describe that command alone, ERR being the class of
CAUSE; success leaves FAULTSEEN as it was, failure sets it; BUSY is 0. Whatever report stood before, the same command
leaves the same state, but for the FAULTSEEN that a success keeps. -/
def Obligations.EveryCommandReports : Prop :=
  ∀ (i : Instr) (s t : State), exec i s = .next t →
    t.busy = false ∧ (t.err = .ok ↔ t.cause = .noCause) ∧ t.err = classOf t.cause ∧
    (t.err = .ok → t.faultSeen = s.faultSeen) ∧ (t.err ≠ .ok → t.faultSeen = true) ∧
    ∀ (e : ErrClass) (c : Cause) (f : Bool),
      exec i { s with err := e, cause := c, faultSeen := f } =
        .next { t with faultSeen := if t.err = .ok then f else true }

/-- 60_exceptions.md R274: a failed command other than COMPRESS changes no state except ERR, CAUSE and FAULTSEEN
(and BUSY, which returns to 0); a failed COMPRESS also applies 42_contract.md R151. -/
def Obligations.FailedCommandsChangeNothingElse : Prop :=
  ∀ (i : Instr) (s t : State), exec i s = .next t → t.err ≠ .ok →
    (i ≠ .compress → t = s.afterError t.err t.cause) ∧
    (i = .compress → t = s.afterFailedCompress t.err t.cause)

/-- 70_reset_and_hazards.md section 1: no step but the reset input clears FAULTSEEN or CONFIGURED. -/
def Obligations.OnlyResetClearsStickyFlags : Prop :=
  ∀ (s t : State), step s = .next t → (∀ rest, s.pending ≠ .reset :: rest) →
    (s.faultSeen = true → t.faultSeen = true) ∧ (s.configured = true → t.configured = true)

/-- 10_state.md section 4 (STATUS.VALID): a successful COMPRESS sets VALID, a successful CFG or a failed COMPRESS
clears it, the reset input clears it, and no other command changes it; that the layout registers and DELEG are 0
whenever VALID is 0 holds after reset and every step keeps it, which the spec infers. -/
def Obligations.ValidFollowsCompressAndCfg : Prop :=
  (∀ s t : State, exec .compress s = .next t → (t.err = .ok → t.valid = true) ∧ (t.err ≠ .ok → t.valid = false)) ∧
  (∀ s t : State, exec .cfg s = .next t → (t.err = .ok → t.valid = false) ∧ (t.err ≠ .ok → t.valid = s.valid)) ∧
  (∀ (i : Instr) (s t : State), i ≠ .compress → i ≠ .cfg → exec i s = .next t → t.valid = s.valid) ∧
  (∀ (s t : State) (rest : List Event), s.pending = .reset :: rest → step s = .next t → t.valid = false) ∧
  (∀ p : Params, (State.resetWith p).LayoutClearWhenInvalid) ∧
  (∀ s t : State, s.LayoutClearWhenInvalid → step s = .next t → t.LayoutClearWhenInvalid)

/-- 30_encoding.md section 1 (operands and results of each command): the frame of every command. NOP writes only the
report; the accessors, GET and the utilities also RESULT; DECOMPRESS also VOUT; CFG the instance registers, the STATUS
flags and the memories it leaves unspecified; COMPRESS the encoding, K and the STATUS flags. ARG0..ARG3, VIN, the
parameters, the host's events and the words it has read are never written. -/
def Obligations.CommandFrames : Prop :=
  ∀ s t : State,
    (exec .nop s = .next t → t = { s with err := t.err, cause := t.cause, busy := t.busy }) ∧
    (∀ i ∈ [Instr.get, .size, .bpv, .cbitlen, .crosses, .compressed, .bitsReq, .mask, .ceilDiv, .ceilLog2,
        .slotExtract, .slotInsert],
      exec i s = .next t →
        t = { s with
              result := t.result, err := t.err, cause := t.cause, faultSeen := t.faultSeen, busy := t.busy }) ∧
    (exec .decompress s = .next t →
      t = { s with
            result := t.result, vout := t.vout, err := t.err, cause := t.cause, faultSeen := t.faultSeen
            busy := t.busy } ∧
      ∀ a, s.n.toNat ≤ a → t.vout.read a = s.vout.read a) ∧
    (exec .cfg s = .next t →
      t = { s with
            mode := t.mode, n := t.n, k := t.k, cross := t.cross, configured := t.configured, valid := t.valid
            deleg := t.deleg, words := t.words, ovtM := t.ovtM, smallW := t.smallW, idxW := t.idxW, ew := t.ew
            hbits := t.hbits, pbuf := t.pbuf, ovt := t.ovt, vout := t.vout
            err := t.err, cause := t.cause, faultSeen := t.faultSeen, busy := t.busy }) ∧
    (exec .compress s = .next t →
      t = { s with
            k := t.k, cross := t.cross, valid := t.valid, deleg := t.deleg, words := t.words, ovtM := t.ovtM
            smallW := t.smallW, idxW := t.idxW, ew := t.ew, hbits := t.hbits, pbuf := t.pbuf, ovt := t.ovt
            err := t.err, cause := t.cause, faultSeen := t.faultSeen, busy := t.busy } ∧
      (KeepsWidth s.mode → t.k = s.k))

/-- 70_reset_and_hazards.md section 3, the spec's inference: only COMPRESS reads VIN, so overwriting VIN changes
nothing that another command does. -/
def Obligations.OnlyCompressReadsVin : Prop :=
  ∀ (i : Instr) (s : State) (vin : Memory), i ≠ .compress →
    (∀ t, exec i s = .next t → exec i { s with vin := vin } = .next { t with vin := vin }) ∧
    ∀ f, exec i s = .fault f → exec i { s with vin := vin } = .fault f

/-- 30_encoding.md section 1 (operands and results of each command): a command does not read an operand that its row
marks with a dash, so another word there changes nothing that the command does. -/
def Obligations.UnlistedOperandsAreNotRead : Prop :=
  ∀ (i : Instr) (r : ArgReg) (s : State) (v : Word),
    i ∈ [Instr.nop, .size, .bpv, .cbitlen, .crosses, .compressed] ∨
    (i ∈ [Instr.compress, .get, .decompress, .bitsReq, .mask, .ceilLog2] ∧ r ≠ .arg0) ∨
    (i = .ceilDiv ∧ r ≠ .arg0 ∧ r ≠ .arg1) ∨ (i ∈ [Instr.cfg, .slotExtract] ∧ r = .arg3) →
      (∀ t, exec i s = .next t → exec i (s.setArg r v) = .next (t.setArg r v)) ∧
      ∀ f, exec i s = .fault f → exec i (s.setArg r v) = .fault f

/-! ### The host port -/

/-- 10_state.md section 2, 20_memory.md section 2: a host write to ARG0..ARG3 stores all 32 bits, a host write to a
VIN word below N_MAX stores that word and leaves every other one, and neither changes anything else. -/
def Obligations.HostWritesStoreOneWord : Prop :=
  ∀ (s : State) (data : Word), s.busy = false →
    performAccess s (.wr 0x00000001#32 data) = .next { s with arg0 := data } ∧
    performAccess s (.wr 0x00000002#32 data) = .next { s with arg1 := data } ∧
    performAccess s (.wr 0x00000003#32 data) = .next { s with arg2 := data } ∧
    performAccess s (.wr 0x00000004#32 data) = .next { s with arg3 := data } ∧
    ∀ i : BitVec 28, i.toNat < s.params.nMax.toNat →
      ∃ vin : Memory, performAccess s (.wr (0x1#4 ++ i) data) = .next { s with vin := vin } ∧
        vin.read i.toNat = some data ∧ ∀ j, j ≠ i.toNat → vin.read j = s.vin.read j

/-- 10_state.md R35: a host write to a read-only register has no effect, a host read of CMD returns 0, and an access
to a register index of 0x14 or above is refused. -/
def Obligations.RegisterAccessRules : Prop :=
  ∀ (s : State) (i : BitVec 28) (data : Word), s.busy = false →
    (0x05 ≤ i.toNat → i.toNat ≤ 0x13 → performAccess s (.wr (0x0#4 ++ i) data) = .next s) ∧
    portRead s 0x00000000#32 = .next 0 ∧
    (0x14 ≤ i.toNat →
      performAccess s (.wr (0x0#4 ++ i) data) = .refused .reservedRegister ∧
      performAccess s (.rd (0x0#4 ++ i)) = .refused .reservedRegister)

/-- 20_memory.md section 2: a host read returns the word of the port and changes nothing of BPCORE, so the port
returns the same word again. That the word joins the words the host has read is the model's choice
(notes/assumptions/2.md). -/
def Obligations.ReadsHaveNoSideEffects : Prop :=
  ∀ (s t : State) (addr : Word), performAccess s (.rd addr) = .next t →
    ∃ w : Word, portRead s addr = .next w ∧ t = { s with observed := s.observed ++ [w] } ∧ portRead t addr = .next w

/-- 10_state.md sections 2 and 4: what a host read of ARG0..ARG3, RESULT, MODE, N, K, WORDS, OVT_M, SMALLW, IDXW, EW
and HBITS returns, each at its index of the register map; MODE is the number of the mode (30_encoding.md section 2),
and a register narrower than the word is zero-extended. -/
def Obligations.RegisterReadsReturnState : Prop :=
  ∀ s : State,
    portRead s 0x00000001#32 = .next s.arg0 ∧ portRead s 0x00000002#32 = .next s.arg1 ∧
    portRead s 0x00000003#32 = .next s.arg2 ∧ portRead s 0x00000004#32 = .next s.arg3 ∧
    portRead s 0x00000005#32 = .next s.result ∧
    portRead s 0x00000007#32 = .next (match s.mode with
      | .noCrossing => 0
      | .crossing => 1
      | .overflowNoCrossing => 2
      | .overflowCrossing => 3
      | .searchNoCrossing => 4
      | .searchCrossing => 5) ∧
    portRead s 0x00000008#32 = .next s.n ∧ portRead s 0x00000009#32 = .next (BitVec.ofNat 32 s.k.toNat) ∧
    portRead s 0x0000000A#32 = .next s.words ∧ portRead s 0x0000000B#32 = .next s.ovtM ∧
    portRead s 0x0000000C#32 = .next (BitVec.ofNat 32 s.smallW.toNat) ∧
    portRead s 0x0000000D#32 = .next (BitVec.ofNat 32 s.idxW.toNat) ∧
    portRead s 0x0000000E#32 = .next (BitVec.ofNat 32 s.ew.toNat) ∧ portRead s 0x0000000F#32 = .next s.hbits

/-- 10_state.md section 4: the fields of the STATUS word the host reads, each at its place, the reserved bits 0; a host
write changes none of them. -/
def Obligations.StatusWordFields : Prop :=
  ∀ s : State,
    (∃ w : Word, portRead s 0x00000006#32 = .next w ∧
      w.getLsbD 0 = s.busy ∧ w.getLsbD 1 = s.valid ∧ w.getLsbD 2 = s.cross ∧ w.getLsbD 3 = s.faultSeen ∧
      w.getLsbD 4 = s.configured ∧ w.getLsbD 5 = s.deleg ∧ w.extractLsb' 6 2 = 0 ∧
      w.extractLsb' 8 4 = errCode s.err ∧ w.extractLsb' 12 4 = 0 ∧ w.extractLsb' 16 8 = causeCode s.cause ∧
      w.extractLsb' 24 8 = 0) ∧
    ∀ data : Word, s.busy = false → performAccess s (.wr 0x00000006#32 data) = .next s

/-- 60_exceptions.md section 1: the codes of the error classes and of the causes, and the class of each cause. -/
def Obligations.ErrorCodesAsListed : Prop :=
  [ErrClass.ok, .invalidArgument, .outOfRange, .illegalCommand, .capacity].map errCode = [0#4, 1#4, 2#4, 3#4, 4#4] ∧
  [Cause.noCause, .argLength, .argNegative, .argMode, .argK, .argUtil, .outLength, .indexRange, .reservedOpcode,
      .reservedBits, .notConfigured, .idxCapacity, .ovtFull, .pbufFull, .nCapacity].map
      (fun c => (causeCode c, (errCode (classOf c)).toNat)) =
    [(0x00#8, 0), (0x01#8, 1), (0x02#8, 1), (0x03#8, 1), (0x04#8, 1), (0x05#8, 1), (0x06#8, 1), (0x10#8, 2),
      (0x20#8, 3), (0x21#8, 3), (0x22#8, 3), (0x30#8, 4), (0x31#8, 4), (0x32#8, 4), (0x33#8, 4)]

/-- 10_state.md R33: CAP_N, CAP_PBUF, CAP_OVT and FEATURES always read as the parameters, a host write has no effect
on them, and no step, the reset input among them, changes a parameter. -/
def Obligations.CapabilityRegistersHoldParameters : Prop :=
  (∀ s t : State, step s = .next t → t.params = s.params) ∧
  ∀ s : State,
    portRead s 0x00000010#32 = .next (BitVec.ofNat 32 s.params.nMax.toNat) ∧
    portRead s 0x00000011#32 = .next (BitVec.ofNat 32 s.params.pbufWords.toNat) ∧
    portRead s 0x00000012#32 = .next s.params.ovtMax ∧
    portRead s 0x00000013#32 = .next (if s.params.ovfDedup then 1 else 0) ∧
    ∀ (i : BitVec 28) (data : Word), s.busy = false → 0x10 ≤ i.toNat → i.toNat ≤ 0x13 →
      performAccess s (.wr (0x0#4 ++ i) data) = .next s

/-- 20_memory.md R52: a host access is refused exactly when it is outside the defined interface: a reserved space, a
word index at or above the depth, or a write to a space the host may only read. -/
def Obligations.AccessRefusedExactlyOutsideInterface : Prop :=
  ∀ (s : State) (a : Access), s.busy = false → (Refuses (performAccess s a) ↔ a.wf s.params = false)

/-- 20_memory.md R66, and section 5: a host read of a word of PBUF, OVT, VOUT or VIN inside the space returns the word
held there when it is defined and faults when it is not. -/
def Obligations.MemoryReadsReturnDefinedWords : Prop :=
  ∀ (s : State) (i : BitVec 28),
    (i.toNat < s.params.nMax.toNat →
      portRead s (0x1#4 ++ i) = match s.vin.read i.toNat with
        | some w => .next w
        | none => .fault .vinUnwritten) ∧
    (i.toNat < s.params.nMax.toNat →
      (s.n.toNat ≤ i.toNat ∨ s.vout.read i.toNat = none → portRead s (0x2#4 ++ i) = .fault .voutUndefined) ∧
      ∀ w, i.toNat < s.n.toNat → s.vout.read i.toNat = some w → portRead s (0x2#4 ++ i) = .next w) ∧
    (i.toNat < s.params.pbufWords.toNat →
      (s.valid = false ∨ s.words.toNat ≤ i.toNat → portRead s (0x3#4 ++ i) = .fault .pbufUndefined) ∧
      ∀ w, s.valid = true → i.toNat < s.words.toNat → s.pbuf.read i.toNat = some w →
        portRead s (0x3#4 ++ i) = .next w) ∧
    (i.toNat < s.params.ovtMax.toNat →
      (s.valid = false ∨ s.ovtM.toNat ≤ i.toNat → portRead s (0x4#4 ++ i) = .fault .ovtUndefined) ∧
      ∀ w, s.valid = true → i.toNat < s.ovtM.toNat → s.ovt.read i.toNat = some w →
        portRead s (0x4#4 ++ i) = .next w)

/-- 30_encoding.md section 3: the command form `CFG 0, 5, 3` expands to the five accesses of the spec's
example, and their listing lines are those the spec prints. -/
def Obligations.CommandFormExpandsAsListed : Prop :=
  (expand (.form .cfg [0, 5, 3])).map listing =
    ["W 00000001 00000000".toList, "W 00000002 00000005".toList, "W 00000003 00000003".toList,
      "W 00000000 00000001".toList, "R 00000006".toList]

/-! ### Reset -/

/-- 10_state.md R40, and section 6: whatever the parameters, after reset every register and flag has the value listed,
the capability registers hold the parameters, and no memory word holds a value. -/
def Obligations.ResetLeavesListedValues : Prop :=
  ∀ p : Params,
    (∀ r ∈ [Reg.arg .arg0, .arg .arg1, .arg .arg2, .arg .arg3, .result, .status, .mode, .n, .k, .words, .ovtM,
        .smallW, .idxW, .ew, .hbits], readReg (State.resetWith p) r = 0) ∧
    (State.resetWith p).busy = false ∧ (State.resetWith p).valid = false ∧ (State.resetWith p).cross = false ∧
    (State.resetWith p).faultSeen = false ∧ (State.resetWith p).configured = false ∧
    (State.resetWith p).deleg = false ∧ (State.resetWith p).err = .ok ∧ (State.resetWith p).cause = .noCause ∧
    (State.resetWith p).mode = .noCrossing ∧ (State.resetWith p).params = p ∧
    ∀ j, (State.resetWith p).vin.read j = none ∧ (State.resetWith p).vout.read j = none ∧
      (State.resetWith p).pbuf.read j = none ∧ (State.resetWith p).ovt.read j = none

/-- 70_reset_and_hazards.md section 1: the reset input between commands leaves every register and flag at its reset
value, the parameters as they were, and no memory word defined. The host's later events and the words it has read are
kept, which is the model's choice (notes/assumptions/11.md). -/
def Obligations.ResetInputRestoresResetState : Prop :=
  ∀ (s : State) (rest : List Event), s.pending = .reset :: rest →
    step s = .next { State.resetWith s.params with pending := rest, observed := s.observed }

/-- The reset state meets the invariant, whatever the parameters. -/
def Obligations.ResetMeetsInvariant : Prop := ∀ p : Params, (State.resetWith p).Inv

/-! ### Invariants of the step -/

/-- Every step keeps the four memories in their canonical form, the indices strictly rising. The form is the model's own
representation of a memory (notes/assumptions/6.md, DEDUCED); the spec names none. -/
def Obligations.StepKeepsMemoryForm : Prop :=
  ∀ s t : State, s.MemoriesWf → step s = .next t → t.MemoriesWf

/-- The invariants (a) to (c) of 10_state.md section 5 and those of section 4, which the spec infers: from every state
that meets the invariant, a step leaves BUSY 0, ERR the class of CAUSE, the layout registers 0 while VALID is 0, K, N,
WORDS and OVT_M within their bounds, and an instance that CFG accepts. -/
def Obligations.StepKeepsRegisterInvariants : Prop :=
  ∀ s t : State, s.Inv → step s = .next t →
    t.LayoutClearWhenInvalid ∧ t.WithinBounds ∧ t.InstanceLegal ∧ t.StatusConsistent

/-- The invariants (d) and (e) of 10_state.md section 5, which the spec infers: from every state that meets the
invariant, a step leaves an encoding that can be read whole: while VALID is 1, PBUF and OVT list exactly their defined
words, WORDS is that of the layout, and every slot decodes; VIN and VOUT stay within their depth. -/
def Obligations.StepKeepsEncodingReadable : Prop :=
  ∀ s t : State, s.Inv → step s = .next t → t.EncodingReadable ∧ t.WithinDepth
end

