-- ==== Sys2Proof/Laws/BitUtil.lean ====
section
/-! SUPPORT. What the bit utilities compute (spec/40_bitutil.md R100 to R109). -/

namespace Sys2Proof.Machine

theorem leadingZeros_le (count : Nat) (x : Word) : leadingZeros count x ≤ count := by
  induction count with
  | zero => simp [leadingZeros]
  | succ count ih => unfold leadingZeros; split <;> omega

/-- A word whose bits from `count` up are 0 is below `2^(count - leadingZeros)`, and at least half of that when
it is not 0. -/
theorem leadingZeros_bounds (count : Nat) (x : Word) (h : x.toNat < 2 ^ count) :
    x.toNat < 2 ^ (count - leadingZeros count x) ∧
      (0 < x.toNat → 2 ^ (count - leadingZeros count x) ≤ 2 * x.toNat) := by
  induction count with
  | zero => exact ⟨by simpa [leadingZeros] using h, by intro hx; simp at h; omega⟩
  | succ count ih =>
    unfold leadingZeros
    have htest : x.getLsbD count = x.toNat.testBit count := rfl
    by_cases hb : x.getLsbD count = true
    · rw [if_pos hb, Nat.sub_zero]
      have := Nat.ge_two_pow_of_testBit (htest ▸ hb)
      exact ⟨h, fun _ => by rw [Nat.pow_succ]; omega⟩
    · rw [if_neg hb]
      have hlt : x.toNat < 2 ^ count := by
        apply Nat.lt_pow_two_of_testBit
        intro i hi
        rcases Nat.lt_or_eq_of_le hi with h1 | h1
        · exact Nat.testBit_lt_two_pow (Nat.lt_of_lt_of_le h (Nat.pow_le_pow_right (by omega) (by omega)))
        · subst h1; rw [← htest]; simpa using hb
      have := ih hlt
      rwa [show count + 1 - (leadingZeros count x + 1) = count - leadingZeros count x by omega]

theorem toNat_of_s32_pos {v : Word} (h : 0 < v.s32) : v.s32 = v.toNat ∧ v.toNat < 2 ^ 31 := by
  have := BitVec.toInt_eq_toNat_cond v
  have := v.isLt
  simp only [Word.s32] at *
  split at * <;> omega

/-- `bitsReq` of a positive value is the width that just holds it. -/
theorem bitsReq_bounds {v : Word} (h : 0 < v.s32) :
    v.toNat < 2 ^ bitsReq v ∧ 2 ^ bitsReq v ≤ 2 * v.toNat := by
  obtain ⟨hv, _⟩ := toNat_of_s32_pos h
  unfold bitsReq
  rw [if_neg (by omega)]
  obtain ⟨h1, h2⟩ := leadingZeros_bounds 32 v v.isLt
  exact ⟨h1, h2 (by omega)⟩

theorem bitsReq_nonpos {v : Word} (h : v.s32 ≤ 0) : bitsReq v = 1 := if_pos h

/-- The range of `bitsReq` is 1..31 (R100). -/
theorem bitsReq_range (v : Word) : 1 ≤ bitsReq v ∧ bitsReq v ≤ 31 := by
  by_cases h : v.s32 ≤ 0
  · simp [bitsReq_nonpos h]
  · obtain ⟨h1, h2⟩ := bitsReq_bounds (by omega : 0 < v.s32)
    obtain ⟨h3, h4⟩ := toNat_of_s32_pos (by omega : 0 < v.s32)
    constructor
    · rcases Nat.eq_zero_or_pos (bitsReq v) with h0 | h0
      · rw [h0] at h1; omega
      · exact h0
    · by_contra hc
      have : 2 ^ 32 ≤ 2 ^ bitsReq v := Nat.pow_le_pow_right (by omega) (by omega)
      omega

/-- A value that is not negative fits in `bitsReq` bits. -/
theorem lt_two_pow_bitsReq {v : Word} (h : v.negative = false) : v.toNat < 2 ^ bitsReq v := by
  rcases lt_or_ge 0 v.s32 with hp | hn
  · exact (bitsReq_bounds hp).1
  · rw [bitsReq_nonpos hn]
    simp only [Word.negative, decide_eq_false_iff_not, not_lt] at h
    have := BitVec.toInt_eq_toNat_cond v
    have := v.isLt
    simp only [Word.s32] at *
    split at * <;> omega

theorem mask_getLsbD (w i : Nat) : (mask w).getLsbD i = (decide (i < w) && decide (i < 32)) := by
  unfold mask
  split
  · simp only [BitVec.getLsbD_allOnes]
    by_cases h : i < 32
    · simp [h]; omega
    · simp [h]
  · simp only [BitVec.getLsbD_ofNat, Nat.testBit_two_pow_sub_one]
    exact Bool.and_comm _ _

/-- Masking to `w` bits keeps the low `w` bits. -/
theorem toNat_and_mask (v : Word) {w : Nat} (hw : w ≤ 32) : (v &&& mask w).toNat = v.toNat % 2 ^ w := by
  apply Nat.eq_of_testBit_eq
  intro i
  rw [Nat.testBit_mod_two_pow]
  show (v &&& mask w).getLsbD i = (decide (i < w) && v.getLsbD i)
  rw [BitVec.getLsbD_and, mask_getLsbD]
  by_cases h : i < w
  · simp [h, show i < 32 by omega]
  · simp [h]

theorem and_mask_of_lt {v : Word} {w : Nat} (hw : w ≤ 32) (h : v.toNat < 2 ^ w) : v &&& mask w = v := by
  apply BitVec.eq_of_toNat_eq
  rw [toNat_and_mask v hw, Nat.mod_eq_of_lt h]

/-- `ceilDiv a b` is the smallest `q` with `a ≤ q * b` (R104). -/
theorem ceilDiv_le_iff {a b q : Nat} (hb : 0 < b) : ceilDiv a b ≤ q ↔ a ≤ q * b := by
  unfold ceilDiv
  have hdm := Nat.div_add_mod a b
  have hlt := Nat.mod_lt a hb
  constructor
  · intro h
    have hq : (a / b + if a % b = 0 then 0 else 1) * b ≤ q * b := Nat.mul_le_mul_right b h
    rw [Nat.add_mul, Nat.mul_comm (a / b)] at hq
    split at hq <;> omega
  · intro h
    by_contra hc
    have h1 : q + 1 ≤ a / b + if a % b = 0 then 0 else 1 := by omega
    split at h1
    · have : (q + 1) * b ≤ a / b * b := Nat.mul_le_mul_right b (by omega)
      rw [Nat.mul_comm (a / b), Nat.add_mul] at this
      omega
    · have : q * b ≤ a / b * b := Nat.mul_le_mul_right b (by omega)
      rw [Nat.mul_comm (a / b)] at this
      omega

theorem le_ceilDiv_mul (a : Nat) {b : Nat} (hb : 0 < b) : a ≤ ceilDiv a b * b := (ceilDiv_le_iff hb).1 le_rfl

/-- `ceilLog2 x` is the smallest `w` with `x ≤ 2^w` (R106). -/
theorem ceilLog2_le_iff (x w : Nat) : ceilLog2 x ≤ w ↔ x ≤ 2 ^ w := by
  unfold ceilLog2
  have hp := Nat.one_le_two_pow (n := w)
  split
  · constructor <;> omega
  · have : Nat.log2 (x - 1) < w ↔ x - 1 < 2 ^ w := Nat.log2_lt (by omega)
    omega

theorem le_two_pow_ceilLog2 (x : Nat) : x ≤ 2 ^ ceilLog2 x := (ceilLog2_le_iff x _).1 le_rfl

/-- `ceil_div` as one division (R104). -/
theorem ceilDiv_eq_div (a : Nat) {b : Nat} (hb : 0 < b) : ceilDiv a b = (a + b - 1) / b := by
  apply Nat.le_antisymm
  · refine (ceilDiv_le_iff hb).2 ?_
    have := Nat.div_add_mod (a + b - 1) b
    have := Nat.mod_lt (a + b - 1) hb
    rw [Nat.mul_comm]; omega
  · have := le_ceilDiv_mul a hb
    apply Nat.le_of_lt_succ
    rw [Nat.div_lt_iff_lt_mul hb, Nat.succ_mul]; omega

theorem vpw_pos {w : Nat} (h1 : 1 ≤ w) (h2 : w ≤ 32) : 0 < vpw w := Nat.div_pos h2 h1

theorem vpw_mul_le (w : Nat) : vpw w * w ≤ 32 := Nat.div_mul_le_self 32 w

theorem le_maxS32_fold (vs : List Word) (a : Word) :
    a.s32 ≤ (vs.foldl maxS32 a).s32 ∧ ∀ v ∈ vs, v.s32 ≤ (vs.foldl maxS32 a).s32 := by
  induction vs generalizing a with
  | nil => simp
  | cons b vs ih =>
    obtain ⟨h1, h2⟩ := ih (maxS32 a b)
    have hab : a.s32 ≤ (maxS32 a b).s32 ∧ b.s32 ≤ (maxS32 a b).s32 := by
      unfold maxS32; split <;> omega
    refine ⟨by simpa using le_trans hab.1 h1, fun v hv => ?_⟩
    rcases List.mem_cons.1 hv with rfl | hv
    · simpa using le_trans hab.2 h1
    · simpa using h2 v hv

/-- The greatest value of a list that is not empty is one of its values (R109). -/
theorem maxVal_mem {vals : List Word} (h : vals ≠ []) : maxVal vals ∈ vals := by
  cases vals with
  | nil => exact absurd rfl h
  | cons v vs =>
    simp only [maxVal]
    clear h
    induction vs generalizing v with
    | nil => simp
    | cons a vs ih =>
      rw [List.foldl_cons]
      have hmem := ih (maxS32 v a)
      have hmax : maxS32 v a = v ∨ maxS32 v a = a := by unfold maxS32; split <;> simp
      simp only [List.mem_cons] at *
      rcases hmax with h | h <;> rw [h] at hmem ⊢ <;> tauto

/-- No value exceeds `maxVal` (R109). -/
theorem le_maxVal {vals : List Word} {v : Word} (h : v ∈ vals) : v.s32 ≤ (maxVal vals).s32 := by
  cases vals with
  | nil => simp at h
  | cons a vs =>
    rcases List.mem_cons.1 h with rfl | h
    · exact (le_maxS32_fold vs v).1
    · exact (le_maxS32_fold vs a).2 v h

/-- Every value of an input without negative values fits in `bitsReq(maxVal)` bits (R110). -/
theorem lt_two_pow_dataBits {vals : List Word} (hn : vals.any Word.negative = false) {v : Word} (h : v ∈ vals) :
    v.toNat < 2 ^ bitsReq (maxVal vals) := by
  have hv : v.negative = false := by
    simp only [List.any_eq_false] at hn
    simpa using hn v h
  have hle := le_maxVal h
  rcases lt_or_ge 0 (maxVal vals).s32 with hp | hnp
  · obtain ⟨hm, _⟩ := toNat_of_s32_pos hp
    have hb := (bitsReq_bounds hp).1
    simp only [Word.negative, decide_eq_false_iff_not, not_lt] at hv
    have := BitVec.toInt_eq_toNat_cond v
    have := v.isLt
    simp only [Word.s32] at *
    split at * <;> omega
  · rw [bitsReq_nonpos hnp]
    have := lt_two_pow_bitsReq hv
    rw [bitsReq_nonpos (by omega)] at this
    exact this

end Sys2Proof.Machine
end

