-- ==== Sys2Proof/Laws/Memory.lean ====
section
/-! SUPPORT. What the memory operations do: read after write, ranges, and the canonical form. -/

namespace Sys2Proof.Machine

/-! ### Reading -/

@[simp] theorem Memory.read_nil (i : Nat) : Memory.read [] i = none := rfl

theorem Memory.read_cons (a : Nat) (w : Word) (m : Memory) (i : Nat) :
    Memory.read ((a, w) :: m) i = if a = i then some w else m.read i := rfl

theorem Memory.read_write_same (m : Memory) (i : Nat) (v : Word) : (m.write i v).read i = some v := by
  induction m with
  | nil => simp [Memory.write, Memory.read]
  | cons c m ih =>
    obtain ⟨a, w⟩ := c
    simp only [Memory.write]
    split
    · simp [Memory.read]
    · split
      · simp [Memory.read]
      · rw [Memory.read_cons, if_neg (by omega), ih]

theorem Memory.read_write_other (m : Memory) (i j : Nat) (v : Word) (h : j ≠ i) :
    (m.write i v).read j = m.read j := by
  induction m with
  | nil => simp [Memory.write, Memory.read, Ne.symm h]
  | cons c m ih =>
    obtain ⟨a, w⟩ := c
    simp only [Memory.write]
    split
    · simp [Memory.read, Ne.symm h]
    · split
      · next hia => subst hia; simp [Memory.read, Ne.symm h]
      · rw [Memory.read_cons, Memory.read_cons, ih]

/-- A write changes one index and leaves every other one alone. -/
theorem Memory.read_write (m : Memory) (i j : Nat) (v : Word) :
    (m.write i v).read j = if j = i then some v else m.read j := by
  split
  · next h => rw [h, Memory.read_write_same]
  · next h => exact Memory.read_write_other m i j v h

/-- `modify` changes the word listed at one index, if there is one. -/
theorem Memory.read_modify (m : Memory) (i j : Nat) (f : Word → Word) :
    (m.modify i f).read j = if j = i then (m.read i).map f else m.read j := by
  induction m with
  | nil => simp [Memory.modify]
  | cons c m ih =>
    obtain ⟨a, w⟩ := c
    simp only [Memory.modify, List.map_cons] at ih ⊢
    by_cases hai : a = i
    · subst hai
      rw [if_pos rfl, Memory.read_cons, Memory.read_cons, Memory.read_cons, ih]
      by_cases haj : a = j
      · simp [haj]
      · simp [haj, Ne.symm haj]
    · rw [if_neg (by simpa using hai)]
      rw [Memory.read_cons, Memory.read_cons, Memory.read_cons, ih, if_neg hai]
      by_cases haj : a = j
      · subst haj; simp [hai]
      · simp [haj]

/-- `ofWordsFrom a vs` lists `vs` at the indices from `a` on and nothing else. -/
theorem Memory.read_ofWordsFrom (a : Nat) (vs : List Word) (i : Nat) :
    (Memory.ofWordsFrom a vs).read i = if a ≤ i then vs[i - a]? else none := by
  induction vs generalizing a with
  | nil => simp [Memory.ofWordsFrom]
  | cons v vs ih =>
    rw [Memory.ofWordsFrom, Memory.read_cons, ih]
    by_cases h : a = i
    · subst h; simp
    · rw [if_neg h]
      by_cases h2 : a ≤ i
      · rw [if_pos (by omega), if_pos h2, show i - a = (i - (a + 1)) + 1 by omega, List.getElem?_cons_succ]
      · rw [if_neg (by omega), if_neg h2]

theorem Memory.read_zeros (count i : Nat) :
    (Memory.zeros count).read i = if i < count then some 0 else none := by
  rw [Memory.zeros, Memory.read_ofWordsFrom]
  simp [List.getElem?_replicate]

/-- `writeFrom` writes the words at consecutive indices and leaves every other index alone. -/
theorem Memory.read_writeFrom (m : Memory) (a : Nat) (vs : List Word) (i : Nat) :
    (m.writeFrom a vs).read i = if a ≤ i ∧ i < a + vs.length then vs[i - a]? else m.read i := by
  induction vs generalizing m a with
  | nil => simp [Memory.writeFrom]
  | cons v vs ih =>
    rw [Memory.writeFrom, ih, Memory.read_write]
    simp only [List.length_cons]
    by_cases h : i = a
    · subst h; simp
    · rw [if_neg h]
      by_cases h2 : a + 1 ≤ i ∧ i < a + 1 + vs.length
      · rw [if_pos h2, if_pos (by omega), show i - a = (i - (a + 1)) + 1 by omega, List.getElem?_cons_succ]
      · rw [if_neg h2, if_neg (by omega)]

/-- `readRange` answers exactly when every index of the range is listed, with the words in order. -/
theorem Memory.readRange_eq_some (m : Memory) (a count : Nat) (vs : List Word) :
    m.readRange a count = some vs ↔ vs.length = count ∧ ∀ i < count, m.read (a + i) = vs[i]? := by
  induction count generalizing a vs with
  | zero =>
    rw [Memory.readRange, Option.some.injEq, List.length_eq_zero_iff]
    exact ⟨fun h => ⟨h.symm, fun i hi => absurd hi (by omega)⟩, fun h => h.1.symm⟩
  | succ count ih =>
    rw [Memory.readRange]
    constructor
    · intro h
      split at h
      · next v us hv hus =>
        obtain ⟨hl, hr⟩ := (ih (a + 1) us).1 hus
        cases h
        refine ⟨by simp [hl], fun i hi => ?_⟩
        cases i with
        | zero => simpa using hv
        | succ i => rw [List.getElem?_cons_succ, ← hr i (by omega)]; congr 1; omega
      · cases h
    · rintro ⟨hl, hr⟩
      cases vs with
      | nil => simp at hl
      | cons v us =>
        have h0 := hr 0 (by omega)
        have hus : m.readRange (a + 1) count = some us :=
          (ih (a + 1) us).2 ⟨by simpa using hl, fun i hi => by
            have := hr (i + 1) (by omega)
            rw [List.getElem?_cons_succ] at this
            rw [← this]; congr 1; omega⟩
        simp only [Nat.add_zero, List.getElem?_cons_zero] at h0
        rw [h0, hus]

/-! ### The canonical form -/

theorem Memory.risingFrom_mono {lo hi : Nat} {m : Memory} (h : m.risingFrom hi = true) (hle : lo ≤ hi) :
    m.risingFrom lo = true := by
  cases m with
  | nil => rfl
  | cons c m =>
    simp only [Memory.risingFrom, Bool.and_eq_true, decide_eq_true_eq] at h ⊢
    exact ⟨by omega, h.2⟩

theorem Memory.write_risingFrom (m : Memory) (lo i : Nat) (v : Word) (h : m.risingFrom lo = true) (hlo : lo ≤ i) :
    (m.write i v).risingFrom lo = true := by
  induction m generalizing lo with
  | nil => simp [Memory.write, Memory.risingFrom, hlo]
  | cons c m ih =>
    obtain ⟨a, w⟩ := c
    simp only [Memory.risingFrom, Bool.and_eq_true, decide_eq_true_eq] at h
    simp only [Memory.write]
    split
    · simp only [Memory.risingFrom, Bool.and_eq_true, decide_eq_true_eq]
      exact ⟨hlo, by omega, h.2⟩
    · split
      · next hia => subst hia; simp [Memory.risingFrom, hlo, h.2]
      · simp only [Memory.risingFrom, Bool.and_eq_true, decide_eq_true_eq]
        exact ⟨h.1, ih (a + 1) h.2 (by omega)⟩

theorem Memory.write_wf {m : Memory} (h : m.wf = true) (i : Nat) (v : Word) : (m.write i v).wf = true :=
  Memory.write_risingFrom m 0 i v h (Nat.zero_le i)

theorem Memory.writeFrom_wf {m : Memory} (h : m.wf = true) (a : Nat) (vs : List Word) :
    (m.writeFrom a vs).wf = true := by
  induction vs generalizing m a with
  | nil => exact h
  | cons v vs ih => exact ih (Memory.write_wf h a v) (a + 1)

theorem Memory.modify_risingFrom (m : Memory) (lo i : Nat) (f : Word → Word) :
    (m.modify i f).risingFrom lo = m.risingFrom lo := by
  induction m generalizing lo with
  | nil => rfl
  | cons c m ih =>
    obtain ⟨a, w⟩ := c
    simp only [Memory.modify, List.map_cons] at ih ⊢
    by_cases h : a = i
    · rw [if_pos (by simpa using h)]; simp [Memory.risingFrom, ih]
    · rw [if_neg (by simpa using h)]; simp [Memory.risingFrom, ih]

@[simp] theorem Memory.modify_wf (m : Memory) (i : Nat) (f : Word → Word) : (m.modify i f).wf = m.wf :=
  Memory.modify_risingFrom m 0 i f

theorem Memory.ofWordsFrom_risingFrom (a : Nat) (vs : List Word) :
    (Memory.ofWordsFrom a vs).risingFrom a = true := by
  induction vs generalizing a with
  | nil => rfl
  | cons v vs ih => simp [Memory.ofWordsFrom, Memory.risingFrom, ih]

theorem Memory.ofWordsFrom_wf (a : Nat) (vs : List Word) : (Memory.ofWordsFrom a vs).wf = true :=
  Memory.risingFrom_mono (Memory.ofWordsFrom_risingFrom a vs) (Nat.zero_le a)

@[simp] theorem Memory.nil_wf : Memory.wf [] = true := rfl

/-! ### The defined ranges -/

/-- A read of PBUF answers exactly in the defined range, with the word listed there. -/
theorem State.pbufWord_eq_ok {s : State} {j : Nat} {w : Word} :
    s.pbufWord j = .ok w ↔ (s.valid = true ∧ j < s.words.toNat) ∧ s.pbuf.read j = some w := by
  unfold State.pbufWord
  split
  · next h => cases hr : s.pbuf.read j <;> simp [h]
  · next h => simp [h]

/-- A read of OVT answers exactly in the defined range, with the word listed there. -/
theorem State.ovtWord_eq_ok {s : State} {j : Nat} {w : Word} :
    s.ovtWord j = .ok w ↔ (s.valid = true ∧ j < s.ovtM.toNat) ∧ s.ovt.read j = some w := by
  unfold State.ovtWord
  split
  · next h => cases hr : s.ovt.read j <;> simp [h]
  · next h => simp [h]

end Sys2Proof.Machine
end

