-- ==== Sys2Proof/Laws/Barrel.lean ====
section
/-! SUPPORT. The barrel shifter and the packed buffer, bit by bit (spec/41_barrel.md R120 to R130). -/

namespace Sys2Proof.Machine

/-- Bit `i` of an extracted field is bit `off + i` of the word, for `i` below the width (R121). -/
theorem extract_getLsbD (word : Word) (off w i : Nat) :
    (extract word off w).getLsbD i = (decide (i < w) && word.getLsbD (off + i)) := by
  unfold extract shr32
  rw [BitVec.getLsbD_and, mask_getLsbD, BitVec.getLsbD_ushiftRight]
  by_cases h : i < 32
  · simp [h, Bool.and_comm]
  · rw [BitVec.getLsbD_of_ge word (off + i) (by omega)]; simp

/-- An insertion replaces bits `off .. off + w - 1` by the low bits of the value and keeps the others (R122). -/
theorem insertField_getLsbD (word : Word) (off w : Nat) (v : Word) (h : off + w ≤ 32) (i : Nat) :
    (insertField word off w v).getLsbD i =
      if off ≤ i ∧ i < off + w then v.getLsbD (i - off) else word.getLsbD i := by
  unfold insertField shl32
  simp only [BitVec.getLsbD_or, BitVec.getLsbD_and, BitVec.getLsbD_not, BitVec.getLsbD_shiftLeft, mask_getLsbD]
  by_cases hi : i < 32
  · by_cases h1 : off ≤ i
    · by_cases h2 : i < off + w
      · simp [hi, h1, h2, show i - off < w by omega, show i - off < 32 by omega, show ¬ i < off by omega]
      · have : ¬ i - off < w := by omega
        simp [hi, h1, h2, this]
    · simp [hi, h1, show i < off by omega]
  · rw [BitVec.getLsbD_of_ge word i (by omega), if_neg (by omega)]
    simp [hi]

theorem Memory.bitAt_modify (m : Memory) (i p : Nat) (f : Word → Word) :
    (m.modify i f).bitAt p =
      if p / 32 = i then (m.read i).map (fun w => (f w).getLsbD (p % 32)) else m.bitAt p := by
  unfold Memory.bitAt
  rw [Memory.read_modify]
  split
  · next h => rw [Option.map_map]; rfl
  · rfl

theorem Memory.isSome_read_modify (m : Memory) (i j : Nat) (f : Word → Word) :
    ((m.modify i f).read j).isSome = (m.read j).isSome := by
  rw [Memory.read_modify]; split
  · next h => subst h; simp
  · rfl

/-- A field write lists no new word and drops none. -/
theorem Memory.isSome_read_writeField (m : Memory) (pos w : Nat) (v : Word) (j : Nat) :
    ((m.writeField pos w v).read j).isSome = (m.read j).isSome := by
  unfold Memory.writeField
  simp only []
  split
  · exact Memory.isSome_read_modify ..
  · rw [Memory.isSome_read_modify, Memory.isSome_read_modify]

theorem Memory.writeField_wf (m : Memory) (pos w : Nat) (v : Word) : (m.writeField pos w v).wf = m.wf := by
  unfold Memory.writeField
  simp only []
  split <;> simp

/-- A field write of width `w ≤ 32` at `pos` sets bit `p` of the buffer to bit `p - pos` of the value for
`pos ≤ p < pos + w` and leaves every other bit unchanged (R128). -/
theorem Memory.bitAt_writeField (m : Memory) (pos w : Nat) (v : Word) (hw : w ≤ 32) (p : Nat) :
    (m.writeField pos w v).bitAt p =
      if pos ≤ p ∧ p < pos + w then (m.bitAt p).map (fun _ => v.getLsbD (p - pos)) else m.bitAt p := by
  have hp := Nat.div_add_mod p 32
  have hpl := Nat.mod_lt p (show 0 < 32 by omega)
  have hq := Nat.div_add_mod pos 32
  have hql := Nat.mod_lt pos (show 0 < 32 by omega)
  unfold Memory.writeField
  simp only []
  split
  · next hfit =>
    rw [Memory.bitAt_modify]
    by_cases hword : p / 32 = pos / 32
    · rw [if_pos hword, ← hword]
      simp only [insertField_getLsbD _ _ _ _ (show pos % 32 + w ≤ 32 by omega), BitVec.getLsbD_and, mask_getLsbD]
      by_cases hin : pos ≤ p ∧ p < pos + w
      · rw [if_pos hin, Memory.bitAt, Option.map_map]
        congr 1; funext x
        rw [if_pos (by omega), show p % 32 - pos % 32 = p - pos by omega]
        simp [show p - pos < w by omega, show p - pos < 32 by omega]
      · rw [if_neg hin, Memory.bitAt]
        congr 1; funext x
        rw [if_neg (by omega)]
    · rw [if_neg hword, if_neg (by omega)]
  · next hcross =>
    have hr : 32 - pos % 32 ≤ 32 := by omega
    rw [Memory.bitAt_modify]
    by_cases hhigh : p / 32 = pos / 32 + 1
    · rw [if_pos hhigh, ← hhigh, Memory.read_modify, if_neg (by omega)]
      simp only [insertField_getLsbD _ _ _ _ (show 0 + (w - (32 - pos % 32)) ≤ 32 by omega), shr32,
        BitVec.getLsbD_ushiftRight, BitVec.getLsbD_and, mask_getLsbD]
      by_cases hin : pos ≤ p ∧ p < pos + w
      · rw [if_pos hin, Memory.bitAt, Option.map_map]
        congr 1; funext x
        rw [if_pos (by omega), show 32 - pos % 32 + (p % 32 - 0) = p - pos by omega]
        simp [show p - pos < w by omega, show p - pos < 32 by omega]
      · rw [if_neg hin, Memory.bitAt]
        congr 1; funext x
        rw [if_neg (by omega)]
    · rw [if_neg hhigh, Memory.bitAt_modify]
      by_cases hword : p / 32 = pos / 32
      · rw [if_pos hword, ← hword]
        simp only [insertField_getLsbD _ _ _ _ (show pos % 32 + (32 - pos % 32) ≤ 32 by omega), BitVec.getLsbD_and,
          mask_getLsbD]
        by_cases hin : pos ≤ p
        · rw [if_pos (by omega), Memory.bitAt, Option.map_map]
          congr 1; funext x
          rw [if_pos (by omega), show p % 32 - pos % 32 = p - pos by omega]
          simp [show p - pos < w by omega, show p - pos < 32 by omega]
        · rw [if_neg (by omega), Memory.bitAt]
          congr 1; funext x
          rw [if_neg (by omega)]
      · rw [if_neg hword, if_neg (by omega)]

theorem Memory.isSome_read_place (m : Memory) (fs : List FieldWrite) (j : Nat) :
    ((m.place fs).read j).isSome = (m.read j).isSome := by
  induction fs generalizing m with
  | nil => rfl
  | cons f fs ih => rw [Memory.place, ih, Memory.isSome_read_writeField]

theorem Memory.place_wf (m : Memory) (fs : List FieldWrite) : (m.place fs).wf = m.wf := by
  induction fs generalizing m with
  | nil => rfl
  | cons f fs ih => rw [Memory.place, ih, Memory.writeField_wf]

theorem Memory.place_append (m : Memory) (fs gs : List FieldWrite) : m.place (fs ++ gs) = (m.place fs).place gs := by
  induction fs generalizing m with
  | nil => rfl
  | cons f fs ih => exact ih _

/-- Placing fields that do not cover a bit leaves the bit. -/
theorem Memory.bitAt_place_outside (m : Memory) (fs : List FieldWrite) (p : Nat)
    (hw : ∀ f ∈ fs, f.width ≤ 32) (hout : ∀ f ∈ fs, ¬ f.covers p) : (m.place fs).bitAt p = m.bitAt p := by
  induction fs generalizing m with
  | nil => rfl
  | cons f fs ih =>
    rw [Memory.place, ih _ (fun g hg => hw g (by simp [hg])) (fun g hg => hout g (by simp [hg])),
      Memory.bitAt_writeField _ _ _ _ (hw f (by simp)), if_neg (show ¬ (f.pos ≤ p ∧ p < f.pos + f.width) from hout f (by simp))]

/-- Placing pairwise disjoint fields: a bit that one of them covers holds that field's bit. -/
theorem Memory.bitAt_place_inside (m : Memory) (fs : List FieldWrite) (p : Nat) (g : FieldWrite)
    (hw : ∀ f ∈ fs, f.width ≤ 32)
    (hdis : fs.Pairwise fun f f' => f.pos + f.width ≤ f'.pos ∨ f'.pos + f'.width ≤ f.pos)
    (hg : g ∈ fs) (hp : g.covers p) :
    (m.place fs).bitAt p = (m.bitAt p).map fun _ => g.value.getLsbD (p - g.pos) := by
  induction fs generalizing m with
  | nil => simp at hg
  | cons f fs ih =>
    rw [List.pairwise_cons] at hdis
    rcases List.mem_cons.1 hg with rfl | hg
    · rw [Memory.place, Memory.bitAt_place_outside _ _ _ (fun f hf => hw f (by simp [hf])),
        Memory.bitAt_writeField _ _ _ _ (hw g (by simp)), if_pos (show g.pos ≤ p ∧ p < g.pos + g.width from hp)]
      intro f hf hc
      have := hdis.1 f hf
      unfold FieldWrite.covers at hp hc
      omega
    · rw [Memory.place, ih _ (fun f hf => hw f (by simp [hf])) hdis.2 hg,
        Memory.bitAt_writeField _ _ _ _ (hw f (by simp)), if_neg]
      intro hc
      have := hdis.1 g hg
      unfold FieldWrite.covers at hp
      omega

/-- A field of the buffer that lies in defined words reads as the bits of the buffer (R127). -/
theorem State.readField_of_bits (s : State) (pos w : Nat) (v : Word) (hw1 : 1 ≤ w) (hw : w ≤ 32)
    (hvalid : s.valid = true) (hwords : pos + w ≤ s.words.toNat * 32)
    (hlow : v.toNat < 2 ^ w) (hbits : ∀ i < w, s.pbuf.bitAt (pos + i) = some (v.getLsbD i)) :
    s.readField pos w = .ok v := by
  have hq := Nat.div_add_mod pos 32
  have hql := Nat.mod_lt pos (show 0 < 32 by omega)
  have hhigh : ∀ i, w ≤ i → v.getLsbD i = false := fun i hi =>
    Nat.testBit_lt_two_pow (Nat.lt_of_lt_of_le hlow (Nat.pow_le_pow_right (by omega) hi))
  have hword : ∀ i < w, ∃ x, s.pbufWord ((pos + i) / 32) = .ok x ∧ x.getLsbD ((pos + i) % 32) = v.getLsbD i := by
    intro i hi
    have := hbits i hi
    unfold Memory.bitAt at this
    rcases hx : s.pbuf.read ((pos + i) / 32) with _ | x
    · rw [hx] at this; cases this
    · rw [hx] at this
      refine ⟨x, State.pbufWord_eq_ok.2 ⟨⟨hvalid, by omega⟩, hx⟩, by simpa using this⟩
  have heq : ∀ {i x y : _}, s.pbufWord i = .ok x → s.pbufWord i = .ok y → x = y := by
    intro i x y hx hy; rw [hx] at hy; cases hy; rfl
  obtain ⟨low, hl, _⟩ := hword 0 (by omega)
  rw [Nat.add_zero] at hl
  unfold State.readField
  simp only []
  split
  · next hfit =>
    rw [hl]
    simp only [Except.ok.injEq]
    apply BitVec.eq_of_getLsbD_eq
    intro i hi
    rw [extract_getLsbD]
    by_cases hiw : i < w
    · obtain ⟨x, hx, hxi⟩ := hword i hiw
      rw [show (pos + i) / 32 = pos / 32 by omega] at hx
      rw [heq hx hl, show (pos + i) % 32 = pos % 32 + i by omega] at hxi
      simp [hiw, hxi]
    · simp [hiw, hhigh i (by omega)]
  · next hcross =>
    obtain ⟨high, hh, _⟩ := hword (w - 1) (by omega)
    rw [show (pos + (w - 1)) / 32 = pos / 32 + 1 by omega] at hh
    rw [hl, hh]
    simp only [Except.ok.injEq]
    apply BitVec.eq_of_getLsbD_eq
    intro i hi
    unfold shl32
    rw [BitVec.getLsbD_or, BitVec.getLsbD_shiftLeft, extract_getLsbD, extract_getLsbD]
    by_cases hiw : i < w
    · obtain ⟨x, hx, hxi⟩ := hword i hiw
      by_cases hir : i < 32 - pos % 32
      · rw [show (pos + i) / 32 = pos / 32 by omega] at hx
        rw [heq hx hl, show (pos + i) % 32 = pos % 32 + i by omega] at hxi
        simp [hir, hxi]
      · rw [show (pos + i) / 32 = pos / 32 + 1 by omega] at hx
        rw [heq hx hh, show (pos + i) % 32 = 0 + (i - (32 - pos % 32)) by omega, Nat.zero_add] at hxi
        rw [← hxi]; simp [hir, hi, show i - (32 - pos % 32) < w - (32 - pos % 32) by omega]
    · rw [hhigh i (by omega)]
      simp [show ¬ i < 32 - pos % 32 by omega, show ¬ i - (32 - pos % 32) < w - (32 - pos % 32) by omega]

/-- A read field is below `2^w` (R121). -/
theorem extract_lt (word : Word) (off : Nat) {w : Nat} (hw : w ≤ 32) : (extract word off w).toNat < 2 ^ w := by
  rw [extract, toNat_and_mask _ hw]
  exact Nat.mod_lt _ (Nat.two_pow_pos w)

end Sys2Proof.Machine
end

