-- ==== Sys2Proof/Laws/State.lean ====
section
/-! SUPPORT. One lemma per field and update of State, each true by rfl. -/

namespace Sys2Proof.Machine

variable (s : State)

section startCommand
@[simp] theorem State.startCommand_params : s.startCommand.params = s.params := rfl
@[simp] theorem State.startCommand_arg0 : s.startCommand.arg0 = s.arg0 := rfl
@[simp] theorem State.startCommand_arg1 : s.startCommand.arg1 = s.arg1 := rfl
@[simp] theorem State.startCommand_arg2 : s.startCommand.arg2 = s.arg2 := rfl
@[simp] theorem State.startCommand_arg3 : s.startCommand.arg3 = s.arg3 := rfl
@[simp] theorem State.startCommand_result : s.startCommand.result = s.result := rfl
@[simp] theorem State.startCommand_busy : s.startCommand.busy = true := rfl
@[simp] theorem State.startCommand_valid : s.startCommand.valid = s.valid := rfl
@[simp] theorem State.startCommand_cross : s.startCommand.cross = s.cross := rfl
@[simp] theorem State.startCommand_faultSeen : s.startCommand.faultSeen = s.faultSeen := rfl
@[simp] theorem State.startCommand_configured : s.startCommand.configured = s.configured := rfl
@[simp] theorem State.startCommand_deleg : s.startCommand.deleg = s.deleg := rfl
@[simp] theorem State.startCommand_err : s.startCommand.err = s.err := rfl
@[simp] theorem State.startCommand_cause : s.startCommand.cause = s.cause := rfl
@[simp] theorem State.startCommand_mode : s.startCommand.mode = s.mode := rfl
@[simp] theorem State.startCommand_n : s.startCommand.n = s.n := rfl
@[simp] theorem State.startCommand_k : s.startCommand.k = s.k := rfl
@[simp] theorem State.startCommand_words : s.startCommand.words = s.words := rfl
@[simp] theorem State.startCommand_ovtM : s.startCommand.ovtM = s.ovtM := rfl
@[simp] theorem State.startCommand_smallW : s.startCommand.smallW = s.smallW := rfl
@[simp] theorem State.startCommand_idxW : s.startCommand.idxW = s.idxW := rfl
@[simp] theorem State.startCommand_ew : s.startCommand.ew = s.ew := rfl
@[simp] theorem State.startCommand_hbits : s.startCommand.hbits = s.hbits := rfl
@[simp] theorem State.startCommand_vin : s.startCommand.vin = s.vin := rfl
@[simp] theorem State.startCommand_vout : s.startCommand.vout = s.vout := rfl
@[simp] theorem State.startCommand_pbuf : s.startCommand.pbuf = s.pbuf := rfl
@[simp] theorem State.startCommand_ovt : s.startCommand.ovt = s.ovt := rfl
@[simp] theorem State.startCommand_pending : s.startCommand.pending = s.pending := rfl
@[simp] theorem State.startCommand_observed : s.startCommand.observed = s.observed := rfl
end startCommand

section complete
@[simp] theorem State.complete_params : s.complete.params = s.params := rfl
@[simp] theorem State.complete_arg0 : s.complete.arg0 = s.arg0 := rfl
@[simp] theorem State.complete_arg1 : s.complete.arg1 = s.arg1 := rfl
@[simp] theorem State.complete_arg2 : s.complete.arg2 = s.arg2 := rfl
@[simp] theorem State.complete_arg3 : s.complete.arg3 = s.arg3 := rfl
@[simp] theorem State.complete_result : s.complete.result = s.result := rfl
@[simp] theorem State.complete_busy : s.complete.busy = false := rfl
@[simp] theorem State.complete_valid : s.complete.valid = s.valid := rfl
@[simp] theorem State.complete_cross : s.complete.cross = s.cross := rfl
@[simp] theorem State.complete_faultSeen : s.complete.faultSeen = s.faultSeen := rfl
@[simp] theorem State.complete_configured : s.complete.configured = s.configured := rfl
@[simp] theorem State.complete_deleg : s.complete.deleg = s.deleg := rfl
@[simp] theorem State.complete_err : s.complete.err = .ok := rfl
@[simp] theorem State.complete_cause : s.complete.cause = .noCause := rfl
@[simp] theorem State.complete_mode : s.complete.mode = s.mode := rfl
@[simp] theorem State.complete_n : s.complete.n = s.n := rfl
@[simp] theorem State.complete_k : s.complete.k = s.k := rfl
@[simp] theorem State.complete_words : s.complete.words = s.words := rfl
@[simp] theorem State.complete_ovtM : s.complete.ovtM = s.ovtM := rfl
@[simp] theorem State.complete_smallW : s.complete.smallW = s.smallW := rfl
@[simp] theorem State.complete_idxW : s.complete.idxW = s.idxW := rfl
@[simp] theorem State.complete_ew : s.complete.ew = s.ew := rfl
@[simp] theorem State.complete_hbits : s.complete.hbits = s.hbits := rfl
@[simp] theorem State.complete_vin : s.complete.vin = s.vin := rfl
@[simp] theorem State.complete_vout : s.complete.vout = s.vout := rfl
@[simp] theorem State.complete_pbuf : s.complete.pbuf = s.pbuf := rfl
@[simp] theorem State.complete_ovt : s.complete.ovt = s.ovt := rfl
@[simp] theorem State.complete_pending : s.complete.pending = s.pending := rfl
@[simp] theorem State.complete_observed : s.complete.observed = s.observed := rfl
end complete

section raise
variable (c : Cause)
@[simp] theorem State.raise_params : (s.raise c).params = s.params := rfl
@[simp] theorem State.raise_arg0 : (s.raise c).arg0 = s.arg0 := rfl
@[simp] theorem State.raise_arg1 : (s.raise c).arg1 = s.arg1 := rfl
@[simp] theorem State.raise_arg2 : (s.raise c).arg2 = s.arg2 := rfl
@[simp] theorem State.raise_arg3 : (s.raise c).arg3 = s.arg3 := rfl
@[simp] theorem State.raise_result : (s.raise c).result = s.result := rfl
@[simp] theorem State.raise_busy : (s.raise c).busy = false := rfl
@[simp] theorem State.raise_valid : (s.raise c).valid = s.valid := rfl
@[simp] theorem State.raise_cross : (s.raise c).cross = s.cross := rfl
@[simp] theorem State.raise_faultSeen : (s.raise c).faultSeen = true := rfl
@[simp] theorem State.raise_configured : (s.raise c).configured = s.configured := rfl
@[simp] theorem State.raise_deleg : (s.raise c).deleg = s.deleg := rfl
@[simp] theorem State.raise_err : (s.raise c).err = classOf c := rfl
@[simp] theorem State.raise_cause : (s.raise c).cause = c := rfl
@[simp] theorem State.raise_mode : (s.raise c).mode = s.mode := rfl
@[simp] theorem State.raise_n : (s.raise c).n = s.n := rfl
@[simp] theorem State.raise_k : (s.raise c).k = s.k := rfl
@[simp] theorem State.raise_words : (s.raise c).words = s.words := rfl
@[simp] theorem State.raise_ovtM : (s.raise c).ovtM = s.ovtM := rfl
@[simp] theorem State.raise_smallW : (s.raise c).smallW = s.smallW := rfl
@[simp] theorem State.raise_idxW : (s.raise c).idxW = s.idxW := rfl
@[simp] theorem State.raise_ew : (s.raise c).ew = s.ew := rfl
@[simp] theorem State.raise_hbits : (s.raise c).hbits = s.hbits := rfl
@[simp] theorem State.raise_vin : (s.raise c).vin = s.vin := rfl
@[simp] theorem State.raise_vout : (s.raise c).vout = s.vout := rfl
@[simp] theorem State.raise_pbuf : (s.raise c).pbuf = s.pbuf := rfl
@[simp] theorem State.raise_ovt : (s.raise c).ovt = s.ovt := rfl
@[simp] theorem State.raise_pending : (s.raise c).pending = s.pending := rfl
@[simp] theorem State.raise_observed : (s.raise c).observed = s.observed := rfl
end raise

section setResult
variable (v : Word)
@[simp] theorem State.setResult_params : (s.setResult v).params = s.params := rfl
@[simp] theorem State.setResult_arg0 : (s.setResult v).arg0 = s.arg0 := rfl
@[simp] theorem State.setResult_arg1 : (s.setResult v).arg1 = s.arg1 := rfl
@[simp] theorem State.setResult_arg2 : (s.setResult v).arg2 = s.arg2 := rfl
@[simp] theorem State.setResult_arg3 : (s.setResult v).arg3 = s.arg3 := rfl
@[simp] theorem State.setResult_result : (s.setResult v).result = v := rfl
@[simp] theorem State.setResult_busy : (s.setResult v).busy = s.busy := rfl
@[simp] theorem State.setResult_valid : (s.setResult v).valid = s.valid := rfl
@[simp] theorem State.setResult_cross : (s.setResult v).cross = s.cross := rfl
@[simp] theorem State.setResult_faultSeen : (s.setResult v).faultSeen = s.faultSeen := rfl
@[simp] theorem State.setResult_configured : (s.setResult v).configured = s.configured := rfl
@[simp] theorem State.setResult_deleg : (s.setResult v).deleg = s.deleg := rfl
@[simp] theorem State.setResult_err : (s.setResult v).err = s.err := rfl
@[simp] theorem State.setResult_cause : (s.setResult v).cause = s.cause := rfl
@[simp] theorem State.setResult_mode : (s.setResult v).mode = s.mode := rfl
@[simp] theorem State.setResult_n : (s.setResult v).n = s.n := rfl
@[simp] theorem State.setResult_k : (s.setResult v).k = s.k := rfl
@[simp] theorem State.setResult_words : (s.setResult v).words = s.words := rfl
@[simp] theorem State.setResult_ovtM : (s.setResult v).ovtM = s.ovtM := rfl
@[simp] theorem State.setResult_smallW : (s.setResult v).smallW = s.smallW := rfl
@[simp] theorem State.setResult_idxW : (s.setResult v).idxW = s.idxW := rfl
@[simp] theorem State.setResult_ew : (s.setResult v).ew = s.ew := rfl
@[simp] theorem State.setResult_hbits : (s.setResult v).hbits = s.hbits := rfl
@[simp] theorem State.setResult_vin : (s.setResult v).vin = s.vin := rfl
@[simp] theorem State.setResult_vout : (s.setResult v).vout = s.vout := rfl
@[simp] theorem State.setResult_pbuf : (s.setResult v).pbuf = s.pbuf := rfl
@[simp] theorem State.setResult_ovt : (s.setResult v).ovt = s.ovt := rfl
@[simp] theorem State.setResult_pending : (s.setResult v).pending = s.pending := rfl
@[simp] theorem State.setResult_observed : (s.setResult v).observed = s.observed := rfl
end setResult

section dropEncoding
@[simp] theorem State.dropEncoding_params : s.dropEncoding.params = s.params := rfl
@[simp] theorem State.dropEncoding_arg0 : s.dropEncoding.arg0 = s.arg0 := rfl
@[simp] theorem State.dropEncoding_arg1 : s.dropEncoding.arg1 = s.arg1 := rfl
@[simp] theorem State.dropEncoding_arg2 : s.dropEncoding.arg2 = s.arg2 := rfl
@[simp] theorem State.dropEncoding_arg3 : s.dropEncoding.arg3 = s.arg3 := rfl
@[simp] theorem State.dropEncoding_result : s.dropEncoding.result = s.result := rfl
@[simp] theorem State.dropEncoding_busy : s.dropEncoding.busy = s.busy := rfl
@[simp] theorem State.dropEncoding_valid : s.dropEncoding.valid = false := rfl
@[simp] theorem State.dropEncoding_cross : s.dropEncoding.cross = s.cross := rfl
@[simp] theorem State.dropEncoding_faultSeen : s.dropEncoding.faultSeen = s.faultSeen := rfl
@[simp] theorem State.dropEncoding_configured : s.dropEncoding.configured = s.configured := rfl
@[simp] theorem State.dropEncoding_deleg : s.dropEncoding.deleg = false := rfl
@[simp] theorem State.dropEncoding_err : s.dropEncoding.err = s.err := rfl
@[simp] theorem State.dropEncoding_cause : s.dropEncoding.cause = s.cause := rfl
@[simp] theorem State.dropEncoding_mode : s.dropEncoding.mode = s.mode := rfl
@[simp] theorem State.dropEncoding_n : s.dropEncoding.n = s.n := rfl
@[simp] theorem State.dropEncoding_k : s.dropEncoding.k = s.k := rfl
@[simp] theorem State.dropEncoding_words : s.dropEncoding.words = 0 := rfl
@[simp] theorem State.dropEncoding_ovtM : s.dropEncoding.ovtM = 0 := rfl
@[simp] theorem State.dropEncoding_smallW : s.dropEncoding.smallW = 0 := rfl
@[simp] theorem State.dropEncoding_idxW : s.dropEncoding.idxW = 0 := rfl
@[simp] theorem State.dropEncoding_ew : s.dropEncoding.ew = 0 := rfl
@[simp] theorem State.dropEncoding_hbits : s.dropEncoding.hbits = 0 := rfl
@[simp] theorem State.dropEncoding_vin : s.dropEncoding.vin = s.vin := rfl
@[simp] theorem State.dropEncoding_vout : s.dropEncoding.vout = s.vout := rfl
@[simp] theorem State.dropEncoding_pbuf : s.dropEncoding.pbuf = [] := rfl
@[simp] theorem State.dropEncoding_ovt : s.dropEncoding.ovt = [] := rfl
@[simp] theorem State.dropEncoding_pending : s.dropEncoding.pending = s.pending := rfl
@[simp] theorem State.dropEncoding_observed : s.dropEncoding.observed = s.observed := rfl
end dropEncoding

section construct
variable (mode : Mode) (n k : Nat)
@[simp] theorem State.construct_params : (s.construct mode n k).params = s.params := rfl
@[simp] theorem State.construct_arg0 : (s.construct mode n k).arg0 = s.arg0 := rfl
@[simp] theorem State.construct_arg1 : (s.construct mode n k).arg1 = s.arg1 := rfl
@[simp] theorem State.construct_arg2 : (s.construct mode n k).arg2 = s.arg2 := rfl
@[simp] theorem State.construct_arg3 : (s.construct mode n k).arg3 = s.arg3 := rfl
@[simp] theorem State.construct_result : (s.construct mode n k).result = s.result := rfl
@[simp] theorem State.construct_busy : (s.construct mode n k).busy = s.busy := rfl
@[simp] theorem State.construct_valid : (s.construct mode n k).valid = false := rfl
@[simp] theorem State.construct_cross : (s.construct mode n k).cross = crossOf mode := rfl
@[simp] theorem State.construct_faultSeen : (s.construct mode n k).faultSeen = s.faultSeen := rfl
@[simp] theorem State.construct_configured : (s.construct mode n k).configured = true := rfl
@[simp] theorem State.construct_deleg : (s.construct mode n k).deleg = false := rfl
@[simp] theorem State.construct_err : (s.construct mode n k).err = s.err := rfl
@[simp] theorem State.construct_cause : (s.construct mode n k).cause = s.cause := rfl
@[simp] theorem State.construct_mode : (s.construct mode n k).mode = mode := rfl
@[simp] theorem State.construct_n : (s.construct mode n k).n = BitVec.ofNat 32 n := rfl
@[simp] theorem State.construct_k : (s.construct mode n k).k = BitVec.ofNat 6 k := rfl
@[simp] theorem State.construct_words : (s.construct mode n k).words = 0 := rfl
@[simp] theorem State.construct_ovtM : (s.construct mode n k).ovtM = 0 := rfl
@[simp] theorem State.construct_smallW : (s.construct mode n k).smallW = 0 := rfl
@[simp] theorem State.construct_idxW : (s.construct mode n k).idxW = 0 := rfl
@[simp] theorem State.construct_ew : (s.construct mode n k).ew = 0 := rfl
@[simp] theorem State.construct_hbits : (s.construct mode n k).hbits = 0 := rfl
@[simp] theorem State.construct_vin : (s.construct mode n k).vin = s.vin := rfl
@[simp] theorem State.construct_vout : (s.construct mode n k).vout = [] := rfl
@[simp] theorem State.construct_pbuf : (s.construct mode n k).pbuf = [] := rfl
@[simp] theorem State.construct_ovt : (s.construct mode n k).ovt = [] := rfl
@[simp] theorem State.construct_pending : (s.construct mode n k).pending = s.pending := rfl
@[simp] theorem State.construct_observed : (s.construct mode n k).observed = s.observed := rfl
end construct

section install
variable (p : Plan)
@[simp] theorem State.install_params : (s.install p).params = s.params := rfl
@[simp] theorem State.install_arg0 : (s.install p).arg0 = s.arg0 := rfl
@[simp] theorem State.install_arg1 : (s.install p).arg1 = s.arg1 := rfl
@[simp] theorem State.install_arg2 : (s.install p).arg2 = s.arg2 := rfl
@[simp] theorem State.install_arg3 : (s.install p).arg3 = s.arg3 := rfl
@[simp] theorem State.install_result : (s.install p).result = s.result := rfl
@[simp] theorem State.install_busy : (s.install p).busy = s.busy := rfl
@[simp] theorem State.install_valid : (s.install p).valid = true := rfl
@[simp] theorem State.install_cross : (s.install p).cross = p.cross := rfl
@[simp] theorem State.install_faultSeen : (s.install p).faultSeen = s.faultSeen := rfl
@[simp] theorem State.install_configured : (s.install p).configured = s.configured := rfl
@[simp] theorem State.install_deleg : (s.install p).deleg = p.deleg := rfl
@[simp] theorem State.install_err : (s.install p).err = s.err := rfl
@[simp] theorem State.install_cause : (s.install p).cause = s.cause := rfl
@[simp] theorem State.install_mode : (s.install p).mode = s.mode := rfl
@[simp] theorem State.install_n : (s.install p).n = s.n := rfl
@[simp] theorem State.install_k : (s.install p).k = BitVec.ofNat 6 p.k := rfl
@[simp] theorem State.install_words : (s.install p).words = BitVec.ofNat 32 p.words := rfl
@[simp] theorem State.install_ovtM : (s.install p).ovtM = BitVec.ofNat 32 p.table.length := rfl
@[simp] theorem State.install_smallW : (s.install p).smallW = BitVec.ofNat 6 p.smallW := rfl
@[simp] theorem State.install_idxW : (s.install p).idxW = BitVec.ofNat 6 p.idxW := rfl
@[simp] theorem State.install_ew : (s.install p).ew = BitVec.ofNat 6 p.ew := rfl
@[simp] theorem State.install_hbits : (s.install p).hbits = BitVec.ofNat 32 p.hbits := rfl
@[simp] theorem State.install_vin : (s.install p).vin = s.vin := rfl
@[simp] theorem State.install_vout : (s.install p).vout = s.vout := rfl
@[simp] theorem State.install_pbuf : (s.install p).pbuf = p.buffer := rfl
@[simp] theorem State.install_ovt : (s.install p).ovt = Memory.ofWordsFrom 0 p.table := rfl
@[simp] theorem State.install_pending : (s.install p).pending = s.pending := rfl
@[simp] theorem State.install_observed : (s.install p).observed = s.observed := rfl
end install

section applyReset
@[simp] theorem State.applyReset_params : s.applyReset.params = s.params := rfl
@[simp] theorem State.applyReset_arg0 : s.applyReset.arg0 = 0 := rfl
@[simp] theorem State.applyReset_arg1 : s.applyReset.arg1 = 0 := rfl
@[simp] theorem State.applyReset_arg2 : s.applyReset.arg2 = 0 := rfl
@[simp] theorem State.applyReset_arg3 : s.applyReset.arg3 = 0 := rfl
@[simp] theorem State.applyReset_result : s.applyReset.result = 0 := rfl
@[simp] theorem State.applyReset_busy : s.applyReset.busy = false := rfl
@[simp] theorem State.applyReset_valid : s.applyReset.valid = false := rfl
@[simp] theorem State.applyReset_cross : s.applyReset.cross = false := rfl
@[simp] theorem State.applyReset_faultSeen : s.applyReset.faultSeen = false := rfl
@[simp] theorem State.applyReset_configured : s.applyReset.configured = false := rfl
@[simp] theorem State.applyReset_deleg : s.applyReset.deleg = false := rfl
@[simp] theorem State.applyReset_err : s.applyReset.err = .ok := rfl
@[simp] theorem State.applyReset_cause : s.applyReset.cause = .noCause := rfl
@[simp] theorem State.applyReset_mode : s.applyReset.mode = .noCrossing := rfl
@[simp] theorem State.applyReset_n : s.applyReset.n = 0 := rfl
@[simp] theorem State.applyReset_k : s.applyReset.k = 0 := rfl
@[simp] theorem State.applyReset_words : s.applyReset.words = 0 := rfl
@[simp] theorem State.applyReset_ovtM : s.applyReset.ovtM = 0 := rfl
@[simp] theorem State.applyReset_smallW : s.applyReset.smallW = 0 := rfl
@[simp] theorem State.applyReset_idxW : s.applyReset.idxW = 0 := rfl
@[simp] theorem State.applyReset_ew : s.applyReset.ew = 0 := rfl
@[simp] theorem State.applyReset_hbits : s.applyReset.hbits = 0 := rfl
@[simp] theorem State.applyReset_vin : s.applyReset.vin = [] := rfl
@[simp] theorem State.applyReset_vout : s.applyReset.vout = [] := rfl
@[simp] theorem State.applyReset_pbuf : s.applyReset.pbuf = [] := rfl
@[simp] theorem State.applyReset_ovt : s.applyReset.ovt = [] := rfl
@[simp] theorem State.applyReset_pending : s.applyReset.pending = s.pending := rfl
@[simp] theorem State.applyReset_observed : s.applyReset.observed = s.observed := rfl
end applyReset

section placeCommand
variable (c : Word)
@[simp] theorem State.placeCommand_params : (s.placeCommand c).params = s.params := rfl
@[simp] theorem State.placeCommand_arg0 : (s.placeCommand c).arg0 = s.arg0 := rfl
@[simp] theorem State.placeCommand_arg1 : (s.placeCommand c).arg1 = s.arg1 := rfl
@[simp] theorem State.placeCommand_arg2 : (s.placeCommand c).arg2 = s.arg2 := rfl
@[simp] theorem State.placeCommand_arg3 : (s.placeCommand c).arg3 = s.arg3 := rfl
@[simp] theorem State.placeCommand_result : (s.placeCommand c).result = s.result := rfl
@[simp] theorem State.placeCommand_busy : (s.placeCommand c).busy = s.busy := rfl
@[simp] theorem State.placeCommand_valid : (s.placeCommand c).valid = s.valid := rfl
@[simp] theorem State.placeCommand_cross : (s.placeCommand c).cross = s.cross := rfl
@[simp] theorem State.placeCommand_faultSeen : (s.placeCommand c).faultSeen = s.faultSeen := rfl
@[simp] theorem State.placeCommand_configured : (s.placeCommand c).configured = s.configured := rfl
@[simp] theorem State.placeCommand_deleg : (s.placeCommand c).deleg = s.deleg := rfl
@[simp] theorem State.placeCommand_err : (s.placeCommand c).err = s.err := rfl
@[simp] theorem State.placeCommand_cause : (s.placeCommand c).cause = s.cause := rfl
@[simp] theorem State.placeCommand_mode : (s.placeCommand c).mode = s.mode := rfl
@[simp] theorem State.placeCommand_n : (s.placeCommand c).n = s.n := rfl
@[simp] theorem State.placeCommand_k : (s.placeCommand c).k = s.k := rfl
@[simp] theorem State.placeCommand_words : (s.placeCommand c).words = s.words := rfl
@[simp] theorem State.placeCommand_ovtM : (s.placeCommand c).ovtM = s.ovtM := rfl
@[simp] theorem State.placeCommand_smallW : (s.placeCommand c).smallW = s.smallW := rfl
@[simp] theorem State.placeCommand_idxW : (s.placeCommand c).idxW = s.idxW := rfl
@[simp] theorem State.placeCommand_ew : (s.placeCommand c).ew = s.ew := rfl
@[simp] theorem State.placeCommand_hbits : (s.placeCommand c).hbits = s.hbits := rfl
@[simp] theorem State.placeCommand_vin : (s.placeCommand c).vin = s.vin := rfl
@[simp] theorem State.placeCommand_vout : (s.placeCommand c).vout = s.vout := rfl
@[simp] theorem State.placeCommand_pbuf : (s.placeCommand c).pbuf = s.pbuf := rfl
@[simp] theorem State.placeCommand_ovt : (s.placeCommand c).ovt = s.ovt := rfl
@[simp] theorem State.placeCommand_pending : (s.placeCommand c).pending = .access (.wr cmdAddr c) :: s.pending := rfl
@[simp] theorem State.placeCommand_observed : (s.placeCommand c).observed = s.observed := rfl
end placeCommand

section setArg
variable (r : ArgReg) (v : Word)
@[simp] theorem State.setArg_params : (s.setArg r v).params = s.params := by cases r <;> rfl
@[simp] theorem State.setArg_result : (s.setArg r v).result = s.result := by cases r <;> rfl
@[simp] theorem State.setArg_busy : (s.setArg r v).busy = s.busy := by cases r <;> rfl
@[simp] theorem State.setArg_valid : (s.setArg r v).valid = s.valid := by cases r <;> rfl
@[simp] theorem State.setArg_cross : (s.setArg r v).cross = s.cross := by cases r <;> rfl
@[simp] theorem State.setArg_faultSeen : (s.setArg r v).faultSeen = s.faultSeen := by cases r <;> rfl
@[simp] theorem State.setArg_configured : (s.setArg r v).configured = s.configured := by cases r <;> rfl
@[simp] theorem State.setArg_deleg : (s.setArg r v).deleg = s.deleg := by cases r <;> rfl
@[simp] theorem State.setArg_err : (s.setArg r v).err = s.err := by cases r <;> rfl
@[simp] theorem State.setArg_cause : (s.setArg r v).cause = s.cause := by cases r <;> rfl
@[simp] theorem State.setArg_mode : (s.setArg r v).mode = s.mode := by cases r <;> rfl
@[simp] theorem State.setArg_n : (s.setArg r v).n = s.n := by cases r <;> rfl
@[simp] theorem State.setArg_k : (s.setArg r v).k = s.k := by cases r <;> rfl
@[simp] theorem State.setArg_words : (s.setArg r v).words = s.words := by cases r <;> rfl
@[simp] theorem State.setArg_ovtM : (s.setArg r v).ovtM = s.ovtM := by cases r <;> rfl
@[simp] theorem State.setArg_smallW : (s.setArg r v).smallW = s.smallW := by cases r <;> rfl
@[simp] theorem State.setArg_idxW : (s.setArg r v).idxW = s.idxW := by cases r <;> rfl
@[simp] theorem State.setArg_ew : (s.setArg r v).ew = s.ew := by cases r <;> rfl
@[simp] theorem State.setArg_hbits : (s.setArg r v).hbits = s.hbits := by cases r <;> rfl
@[simp] theorem State.setArg_vin : (s.setArg r v).vin = s.vin := by cases r <;> rfl
@[simp] theorem State.setArg_vout : (s.setArg r v).vout = s.vout := by cases r <;> rfl
@[simp] theorem State.setArg_pbuf : (s.setArg r v).pbuf = s.pbuf := by cases r <;> rfl
@[simp] theorem State.setArg_ovt : (s.setArg r v).ovt = s.ovt := by cases r <;> rfl
@[simp] theorem State.setArg_pending : (s.setArg r v).pending = s.pending := by cases r <;> rfl
@[simp] theorem State.setArg_observed : (s.setArg r v).observed = s.observed := by cases r <;> rfl
@[simp] theorem State.arg_setArg_same : (s.setArg r v).arg r = v := by cases r <;> rfl
theorem State.arg_setArg_other {r q : ArgReg} (h : q ≠ r) : (s.setArg r v).arg q = s.arg q := by
  cases r <;> cases q <;> first | rfl | exact absurd rfl h
end setArg

section arg
@[simp] theorem State.arg_arg0 : s.arg .arg0 = s.arg0 := rfl
@[simp] theorem State.argU32_arg0 : s.argU32 .arg0 = s.arg0.toNat := rfl
@[simp] theorem State.argS32_arg0 : s.argS32 .arg0 = s.arg0.toInt := rfl
@[simp] theorem State.arg_arg1 : s.arg .arg1 = s.arg1 := rfl
@[simp] theorem State.argU32_arg1 : s.argU32 .arg1 = s.arg1.toNat := rfl
@[simp] theorem State.argS32_arg1 : s.argS32 .arg1 = s.arg1.toInt := rfl
@[simp] theorem State.arg_arg2 : s.arg .arg2 = s.arg2 := rfl
@[simp] theorem State.argU32_arg2 : s.argU32 .arg2 = s.arg2.toNat := rfl
@[simp] theorem State.argS32_arg2 : s.argS32 .arg2 = s.arg2.toInt := rfl
@[simp] theorem State.arg_arg3 : s.arg .arg3 = s.arg3 := rfl
@[simp] theorem State.argU32_arg3 : s.argU32 .arg3 = s.arg3.toNat := rfl
@[simp] theorem State.argS32_arg3 : s.argS32 .arg3 = s.arg3.toInt := rfl
end arg

end Sys2Proof.Machine
end

