-- ==== Sys2Proof/Laws/Layout.lean ====
section
/-! SUPPORT. The placement of slots and table entries, and the buffer a plan leaves (spec/41_barrel.md R129, R130;
spec/42_contract.md R150). -/

namespace Sys2Proof.Machine

/-! ### Slot positions -/

/-- In the aligned class a slot lies in one word (R130). -/
theorem slotPos_aligned_fits (i : Nat) {w : Nat} (h1 : 1 ≤ w) (h2 : w ≤ 32) :
    i % vpw w * w + w ≤ 32 := by
  have hv := vpw_pos h1 h2
  have hlt := Nat.mod_lt i hv
  have : (i % vpw w + 1) * w ≤ vpw w * w := Nat.mul_le_mul_right w hlt
  have := vpw_mul_le w
  rw [Nat.add_mul] at *
  omega

/-- Two slots of the same width do not overlap, and they are in order. -/
theorem slotPos_add_le (cls : LayoutClass) {i j w : Nat} (h1 : 1 ≤ w) (h2 : w ≤ 32) (hij : i < j) :
    slotPos cls i w + w ≤ slotPos cls j w := by
  cases cls with
  | contigClass =>
    have : (i + 1) * w ≤ j * w := Nat.mul_le_mul_right w hij
    rw [Nat.add_mul] at this
    simp only [slotPos]; omega
  | alignedClass =>
    have hv := vpw_pos h1 h2
    have hfit := slotPos_aligned_fits i h1 h2
    have hi := Nat.div_add_mod i (vpw w)
    have hj := Nat.div_add_mod j (vpw w)
    have hdiv : i / vpw w ≤ j / vpw w := Nat.div_le_div_right hij.le
    simp only [slotPos]
    rcases Nat.lt_or_eq_of_le hdiv with h | h
    · have : (i / vpw w + 1) * 32 ≤ j / vpw w * 32 := Nat.mul_le_mul_right 32 h
      omega
    · have hm : i % vpw w + 1 ≤ j % vpw w := by rw [h] at hi; omega
      have : (i % vpw w + 1) * w ≤ j % vpw w * w := Nat.mul_le_mul_right w hm
      rw [Nat.add_mul] at this
      rw [h]; omega

/-- The first `slots` slots lie below the end of the words they take. -/
theorem slotPos_add_le_words (cls : LayoutClass) {i slots w : Nat} (h1 : 1 ≤ w) (h2 : w ≤ 32) (hi : i < slots) :
    slotPos cls i w + w ≤ slotWords cls slots w * 32 := by
  cases cls with
  | contigClass =>
    have h3 := le_ceilDiv_mul (slots * w) (show 0 < 32 by omega)
    have h4 : (i + 1) * w ≤ slots * w := Nat.mul_le_mul_right w hi
    rw [Nat.add_mul] at h4
    simp only [slotPos, slotWords]; omega
  | alignedClass =>
    have hv := vpw_pos h1 h2
    have hfit := slotPos_aligned_fits i h1 h2
    have h3 := le_ceilDiv_mul slots hv
    have hlt : i / vpw w < ceilDiv slots (vpw w) := (Nat.div_lt_iff_lt_mul hv).2 (by omega)
    have : (i / vpw w + 1) * 32 ≤ ceilDiv slots (vpw w) * 32 := Nat.mul_le_mul_right 32 hlt
    simp only [slotPos, slotWords]; omega

/-! ### The lists of writes -/

/-- What `slotWrites` lists: slot `i + j` for the j-th value. -/
theorem mem_slotWrites {cls : LayoutClass} {w i : Nat} {vs : List Word} {f : FieldWrite} :
    f ∈ slotWrites cls w i vs ↔ ∃ j v, vs[j]? = some v ∧ f = { pos := slotPos cls (i + j) w, width := w, value := v } := by
  induction vs generalizing i with
  | nil => simp [slotWrites]
  | cons a vs ih =>
    rw [slotWrites, List.mem_cons, ih]
    constructor
    · rintro (rfl | ⟨j, v, hv, rfl⟩)
      · exact ⟨0, a, rfl, rfl⟩
      · exact ⟨j + 1, v, by simpa using hv, by rw [show i + 1 + j = i + (j + 1) by omega]⟩
    · rintro ⟨j, v, hv, rfl⟩
      cases j with
      | zero => left; simp at hv; simp [hv]
      | succ j => right; exact ⟨j, v, by simpa using hv, by rw [show i + 1 + j = i + (j + 1) by omega]⟩

theorem slotWrites_pairwise (cls : LayoutClass) {w : Nat} (h1 : 1 ≤ w) (h2 : w ≤ 32) (i : Nat) (vs : List Word) :
    (slotWrites cls w i vs).Pairwise
      fun f f' => f.pos + f.width ≤ f'.pos ∨ f'.pos + f'.width ≤ f.pos := by
  induction vs generalizing i with
  | nil => exact List.Pairwise.nil
  | cons a vs ih =>
    rw [slotWrites, List.pairwise_cons]
    refine ⟨fun f hf => ?_, ih (i + 1)⟩
    obtain ⟨j, v, -, rfl⟩ := mem_slotWrites.1 hf
    exact .inl (slotPos_add_le cls h1 h2 (by omega))

/-- What `entryWrites` lists: the j-th entry at `base + j * w`. -/
theorem mem_entryWrites {base w i : Nat} {vs : List Word} {f : FieldWrite} :
    f ∈ entryWrites base w i vs ↔ ∃ j v, vs[j]? = some v ∧ f = { pos := base + (i + j) * w, width := w, value := v } := by
  induction vs generalizing i with
  | nil => simp [entryWrites]
  | cons a vs ih =>
    rw [entryWrites, List.mem_cons, ih]
    constructor
    · rintro (rfl | ⟨j, v, hv, rfl⟩)
      · exact ⟨0, a, rfl, rfl⟩
      · exact ⟨j + 1, v, by simpa using hv, by rw [show i + 1 + j = i + (j + 1) by omega]⟩
    · rintro ⟨j, v, hv, rfl⟩
      cases j with
      | zero => left; simp at hv; simp [hv]
      | succ j => right; exact ⟨j, v, by simpa using hv, by rw [show i + 1 + j = i + (j + 1) by omega]⟩

theorem entryWrites_pairwise (base w i : Nat) (vs : List Word) :
    (entryWrites base w i vs).Pairwise
      fun f f' => f.pos + f.width ≤ f'.pos ∨ f'.pos + f'.width ≤ f.pos := by
  induction vs generalizing i with
  | nil => exact List.Pairwise.nil
  | cons a vs ih =>
    rw [entryWrites, List.pairwise_cons]
    refine ⟨fun f hf => ?_, ih (i + 1)⟩
    obtain ⟨j, v, -, rfl⟩ := mem_entryWrites.1 hf
    have : (i + 1) * w ≤ (i + 1 + j) * w := Nat.mul_le_mul_right w (by omega)
    rw [Nat.add_mul] at this
    exact .inl (by simp only []; omega)

/-! ### The buffer of a plan -/

/-- The fields of a plan have widths 1 to 32, do not overlap, and lie in the plan's words. -/
structure Plan.Placeable (p : Plan) : Prop where
  width : ∀ f ∈ p.writes, 1 ≤ f.width ∧ f.width ≤ 32
  disjoint : p.writes.Pairwise fun f f' => f.pos + f.width ≤ f'.pos ∨ f'.pos + f'.width ≤ f.pos
  inside : ∀ f ∈ p.writes, f.pos + f.width ≤ p.words * 32

/-- The buffer lists exactly the plan's words. -/
theorem Plan.isSome_read_buffer (p : Plan) (j : Nat) : (p.buffer.read j).isSome = decide (j < p.words) := by
  rw [Plan.buffer, Memory.isSome_read_place, Memory.read_zeros]
  split <;> simp [*]

theorem Plan.buffer_wf (p : Plan) : p.buffer.wf = true := by
  rw [Plan.buffer, Memory.place_wf]; exact Memory.ofWordsFrom_wf 0 _

/-- Every field a plan places reads back, masked to its width (R128). -/
theorem Plan.readField_install (s : State) (p : Plan) (hp : p.Placeable) (hw : p.words < 2 ^ 32)
    {f : FieldWrite} (hf : f ∈ p.writes) :
    (s.install p).readField f.pos f.width = .ok (f.value &&& mask f.width) := by
  obtain ⟨h1, h2⟩ := hp.width f hf
  have hin := hp.inside f hf
  have hlt : (f.value &&& mask f.width).toNat < 2 ^ f.width := by
    rw [toNat_and_mask _ h2]; exact Nat.mod_lt _ (Nat.two_pow_pos _)
  refine State.readField_of_bits _ _ _ _ h1 h2 rfl ?_ hlt fun i hi => ?_
  · show f.pos + f.width ≤ (BitVec.ofNat 32 p.words).toNat * 32
    rw [BitVec.toNat_ofNat, Nat.mod_eq_of_lt hw]; exact hin
  · show p.buffer.bitAt (f.pos + i) = _
    rw [Plan.buffer, Memory.bitAt_place_inside _ _ _ f (fun g hg => (hp.width g hg).2) hp.disjoint hf
      (show f.pos ≤ f.pos + i ∧ f.pos + i < f.pos + f.width by omega)]
    rw [Memory.bitAt, Memory.read_zeros, if_pos (by omega)]
    simp only [Option.map_some, Option.some.injEq, BitVec.getLsbD_and, mask_getLsbD]
    rw [show f.pos + i - f.pos = i by omega]
    simp [hi, show i < 32 by omega]

/-! ### The packed buffer as fields -/

/-- The writes of values as slots are the fields the statements speak of (R129). -/
theorem slotWrites_eq_valueFields (cls : LayoutClass) (w i : Nat) (vs : List Word) :
    slotWrites cls w i vs = valueFields cls w i vs := by
  induction vs generalizing i with
  | nil => rfl
  | cons v vs ih =>
    rw [slotWrites, ih, valueFields, valueFields, List.mapIdx_cons]
    simp only [Nat.add_zero, List.cons.injEq, true_and]
    congr 1; funext j x
    rw [show i + 1 + j = i + (j + 1) by omega]

/-- The writes of an appended table are the fields the statements speak of (46_search.md R252). -/
theorem entryWrites_eq_entryFields (base w : Nat) (vs : List Word) : entryWrites base w 0 vs = entryFields base w vs := by
  suffices h : ∀ i, entryWrites base w i vs = vs.mapIdx fun j v => { pos := base + (i + j) * w, width := w, value := v } by
    simpa [entryFields] using h 0
  induction vs with
  | nil => exact fun _ => rfl
  | cons v vs ih =>
    intro i
    rw [entryWrites, ih, List.mapIdx_cons]
    simp only [Nat.add_zero, List.cons.injEq, true_and]
    congr 1; funext j x
    rw [show i + 1 + j = i + (j + 1) by omega]

/-- What `headerFields` lists: the tag and the payload of each value (45_overflow.md R210). -/
theorem mem_headerFields {cls : LayoutClass} {w bb : Nat} {dedup : Bool} {vals : List Word} {f : FieldWrite} :
    f ∈ headerFields cls w bb dedup vals ↔ ∃ i v, vals[i]? = some v ∧
      (f = { pos := slotPos cls i w, width := 1, value := if 2 ^ bb ≤ v.toNat then 1 else 0 } ∨
        f = { pos := slotPos cls i w + 1, width := w - 1
              value := if 2 ^ bb ≤ v.toNat then BitVec.ofNat 32 (entryOf dedup bb vals i v) else v }) := by
  simp only [headerFields, List.mem_flatMap, List.mem_cons, List.not_mem_nil, or_false, Prod.exists,
    List.mem_zipIdx_iff_getElem?]
  exact exists_comm

/-- A plan whose fields can be placed leaves PBUF with exactly those fields (42_contract.md R150; 20_memory.md R65). -/
theorem Plan.packsExactly_install (s : State) (p : Plan) (hp : p.Placeable) (hw : p.words < 2 ^ 32) :
    (s.install p).PacksExactly p.writes := by
  have hzero : ∀ b < p.words * 32, (Memory.zeros p.words).bitAt b = some false := fun b hb => by
    rw [Memory.bitAt, Memory.read_zeros, if_pos (by omega)]; simp
  refine ⟨fun f hf b hb => ?_, fun b hb hout => ?_⟩
  · have hin := hp.inside f hf
    rw [State.install_pbuf, Plan.buffer, Memory.bitAt_place_inside _ _ _ f (fun g hg => (hp.width g hg).2) hp.disjoint hf
      (show f.pos ≤ f.pos + b ∧ f.pos + b < f.pos + f.width by omega), hzero _ (by omega)]
    simp
  · rw [State.install_words, BitVec.toNat_ofNat, Nat.mod_eq_of_lt hw] at hb
    rw [State.install_pbuf, Plan.buffer, Memory.bitAt_place_outside _ _ _ (fun g hg => (hp.width g hg).2) hout,
      hzero _ hb]

end Sys2Proof.Machine
end

