-- ==== Sys2Proof/Laws/Exec.lean ====
section
/-! SUPPORT. Once for each meaning: everything it can answer (spec/40_bitutil.md, 41_barrel.md, 42_contract.md). -/

namespace Sys2Proof.Machine

/-! ### Commands that write RESULT or report an error -/

/-- The commands that only write RESULT and the report: the accessors, GET and the utilities. -/
def Instr.scalar : Instr → Bool
  | .get | .size | .bpv | .cbitlen | .crosses | .compressed | .bitsReq | .mask | .ceilDiv | .ceilLog2 | .slotExtract
  | .slotInsert => true
  | .nop | .cfg | .compress | .decompress => false

theorem succeedWith_eq_next {v : Word} {s t : State} : succeedWith v s = .next t ↔ t = (s.setResult v).complete := by
  simp [succeedWith, eq_comm]

theorem failWith_eq_next {c : Cause} {s t : State} : failWith c s = .next t ↔ t = s.raise c := by
  simp [failWith, eq_comm]

theorem failCompress_eq_next {c : Cause} {s t : State} : failCompress c s = .next t ↔ t = s.dropEncoding.raise c := by
  simp [failCompress, eq_comm]

/-- A codec command answers as its body on a configured instance, and reports NOT_CONFIGURED otherwise (R149). -/
theorem requireConfigured_eq_next {s t : State} {run : State → Host.Outcome State Fault Refusal} :
    requireConfigured s run = .next t ↔
      (s.configured = false ∧ t = s.raise .notConfigured) ∨ (s.configured = true ∧ run s = .next t) := by
  unfold requireConfigured
  cases s.configured <;> simp [failWith_eq_next]

/-- A command of the scalar kind either succeeds with some RESULT or reports a cause, and writes nothing else. -/
theorem exec_scalar_cases {i : Instr} {s t : State} (hi : Instr.scalar i = true) (h : exec i s = .next t) :
    (∃ v, t = (s.setResult v).complete) ∨ ∃ c, c ≠ .noCause ∧ t = s.raise c := by
  cases i <;> simp only [Instr.scalar, Bool.false_eq_true] at hi <;> simp only [exec] at h
  case get =>
    rcases requireConfigured_eq_next.1 h with ⟨-, h⟩ | ⟨-, h⟩
    · exact .inr ⟨_, by decide, h⟩
    · simp only [] at h
      split at h
      · exact .inr ⟨_, by decide, failWith_eq_next.1 h⟩
      · split at h
        · cases h
        · split at h
          · exact .inl ⟨_, succeedWith_eq_next.1 h⟩
          · cases h
  case bitsReq => exact .inl ⟨_, succeedWith_eq_next.1 h⟩
  case ceilLog2 => exact .inl ⟨_, succeedWith_eq_next.1 h⟩
  case mask =>
    simp only [execMask] at h
    split at h
    · exact .inr ⟨_, by decide, failWith_eq_next.1 h⟩
    · exact .inl ⟨_, succeedWith_eq_next.1 h⟩
  case ceilDiv =>
    simp only [execCeilDiv] at h
    split at h
    · exact .inr ⟨_, by decide, failWith_eq_next.1 h⟩
    · exact .inl ⟨_, succeedWith_eq_next.1 h⟩
  case slotExtract =>
    simp only [execSlotExtract] at h
    split at h
    · exact .inl ⟨_, succeedWith_eq_next.1 h⟩
    · exact .inr ⟨_, by decide, failWith_eq_next.1 h⟩
  case slotInsert =>
    simp only [execSlotInsert] at h
    split at h
    · exact .inl ⟨_, succeedWith_eq_next.1 h⟩
    · exact .inr ⟨_, by decide, failWith_eq_next.1 h⟩
  all_goals
    rcases requireConfigured_eq_next.1 h with ⟨-, h⟩ | ⟨-, h⟩
    · exact .inr ⟨_, by decide, h⟩
    · exact .inl ⟨_, succeedWith_eq_next.1 h⟩

/-! ### CFG -/

/-- CFG constructs the instance of a mode, a legal width and a count within N_MAX, or reports a cause (R141). -/
theorem execCfg_cases {s t : State} (h : exec .cfg s = .next t) :
    (∃ mode, modeOf s.arg0.toNat = some mode ∧ kOK mode s.arg2.toNat = true ∧
        s.arg1.toNat ≤ s.params.nMax.toNat ∧ t = (s.construct mode s.arg1.toNat s.arg2.toNat).complete) ∨
      ∃ c, c ≠ .noCause ∧ t = s.raise c := by
  simp only [exec, execCfg] at h
  split at h
  · exact .inr ⟨_, by decide, failWith_eq_next.1 h⟩
  · next mode hm =>
    split at h
    · exact .inr ⟨_, by decide, failWith_eq_next.1 h⟩
    · next hk =>
      split at h
      · exact .inr ⟨_, by decide, failWith_eq_next.1 h⟩
      · next hn =>
        refine .inl ⟨mode, hm, by simpa [State.argU32, State.arg] using hk, Nat.le_of_not_lt hn, ?_⟩
        simpa [State.argU32, State.arg, eq_comm] using h

/-! ### COMPRESS -/

/-- Every plan that fails, fails with a capacity cause (R152). -/
theorem plan_error {p : Params} {mode : Mode} {k : Nat} {vals : List Word} {c : Cause}
    (h : plan p mode k vals = .error c) : c = .idxCapacity ∨ c = .ovtFull := by
  cases mode <;> simp only [plan, planFixed, planSearch] at h
  case noCrossing => cases h
  case crossing => cases h
  case overflowNoCrossing => split at h <;> [skip; split at h] <;> cases h <;> simp
  case overflowCrossing => split at h <;> [skip; split at h] <;> cases h <;> simp
  case searchNoCrossing => split at h <;> [cases h; (split at h <;> cases h; simp)]
  case searchCrossing => split at h <;> [cases h; (split at h <;> cases h; simp)]

/-- COMPRESS either reports a cause with the effects of R151, or installs the plan of the values it read (R150). -/
theorem execCompress_cases {s t : State} (h : exec .compress s = .next t) :
    (∃ c, c ≠ .noCause ∧ t = s.dropEncoding.raise c) ∨
      ∃ vals p, s.configured = true ∧ s.arg0.toNat = s.n.toNat ∧ s.inputs = some vals ∧
        (s.mode = .noCrossing ∨ vals.any Word.negative = false) ∧ plan s.params s.mode s.k.toNat vals = .ok p ∧
        p.words ≤ s.params.pbufWords.toNat ∧ t = (s.install p).complete := by
  simp only [exec, execCompress] at h
  split at h
  · exact .inl ⟨_, by decide, failCompress_eq_next.1 h⟩
  · next hc =>
    split at h
    · exact .inl ⟨_, by decide, failCompress_eq_next.1 h⟩
    · next hl =>
      split at h
      · cases h
      · next vals hv =>
        simp only [compressValues] at h
        split at h
        · exact .inl ⟨_, by decide, failCompress_eq_next.1 h⟩
        · next hn =>
          split at h
          · next c hp =>
            refine .inl ⟨c, ?_, failCompress_eq_next.1 h⟩
            rcases plan_error hp with rfl | rfl <;> decide
          · next p hp =>
            split at h
            · exact .inl ⟨_, by decide, failCompress_eq_next.1 h⟩
            · next hw =>
              refine .inr ⟨vals, p, by simpa using hc, by simpa [State.argU32, State.arg] using hl, hv, ?_, hp, by omega, ?_⟩
              · by_cases hm : s.mode = .noCrossing
                · exact .inl hm
                · exact .inr (by simpa [hm] using hn)
              · simpa [eq_comm] using h

/-- COMPRESS succeeds when its length, values, plan and size pass (R150). -/
theorem execCompress_of_plan {s : State} {vals : List Word} {p : Plan} (hc : s.configured = true)
    (hl : s.arg0.toNat = s.n.toNat) (hv : s.inputs = some vals)
    (hn : s.mode = .noCrossing ∨ vals.any Word.negative = false)
    (hp : plan s.params s.mode s.k.toNat vals = .ok p) (hw : p.words ≤ s.params.pbufWords.toNat) :
    exec .compress s = .next (s.install p).complete := by
  have hneg : ¬(s.mode ≠ .noCrossing ∧ vals.any Word.negative = true) := by
    rcases hn with h | h
    · simp [h]
    · simp [h]
  simp only [exec, execCompress, hc, Bool.true_eq_false, if_false, hv, compressValues]
  rw [if_neg (by simpa [State.argU32, State.arg] using hl), if_neg hneg, hp]
  simp only []
  rw [if_neg (by omega)]

/-- The values COMPRESS reads, as reads of VIN (R153). -/
theorem State.inputs_eq_some {s : State} {vals : List Word} :
    s.inputs = some vals ↔ vals.length = s.n.toNat ∧ ∀ i < s.n.toNat, s.vin.read i = vals[i]? := by
  rw [State.inputs, Memory.readRange_eq_some]
  simp

/-! ### DECOMPRESS -/

/-- `decodeFrom` answers exactly when every slot of the range decodes, with the values in order. -/
theorem State.decodeFrom_eq_ok {s : State} {i count : Nat} {vs : List Word} :
    s.decodeFrom i count = .ok vs ↔
      vs.length = count ∧ ∀ j (v : Word), vs[j]? = some v → s.decodeAt (i + j) = .ok v := by
  induction count generalizing i vs with
  | zero =>
    rw [State.decodeFrom, Except.ok.injEq]
    constructor
    · rintro rfl; simp
    · rintro ⟨h, -⟩; exact (List.length_eq_zero_iff.1 h).symm
  | succ count ih =>
    rw [State.decodeFrom]
    constructor
    · intro h
      split at h
      · next v us hv hus =>
        cases h
        obtain ⟨hl, hr⟩ := ih.1 hus
        refine ⟨by simp [hl], fun j w hj => ?_⟩
        cases j with
        | zero => simp at hj; subst hj; exact hv
        | succ j => rw [show i + (j + 1) = i + 1 + j by omega]; exact hr j w (by simpa using hj)
      · cases h
      · cases h
    · rintro ⟨hl, hr⟩
      cases vs with
      | nil => simp at hl
      | cons v us =>
        have h0 := hr 0 v rfl
        have hus : s.decodeFrom (i + 1) count = .ok us :=
          ih.2 ⟨by simpa using hl, fun j w hj => by
            rw [show i + 1 + j = i + (j + 1) by omega]; exact hr (j + 1) w (by simpa using hj)⟩
        rw [Nat.add_zero] at h0
        rw [h0, hus]

/-- DECOMPRESS either reports a cause, or writes the decoded values to VOUT[0..N) and N to RESULT (R158). -/
theorem execDecompress_cases {s t : State} (h : exec .decompress s = .next t) :
    (∃ c, c ≠ .noCause ∧ t = s.raise c) ∨
      ∃ vs, s.configured = true ∧ s.valid = true ∧ s.decodeFrom 0 s.n.toNat = .ok vs ∧
        t = (State.setResult { s with vout := s.vout.writeFrom 0 vs } s.n).complete := by
  simp only [exec, execDecompress] at h
  rcases requireConfigured_eq_next.1 h with ⟨-, h⟩ | ⟨hc, h⟩
  · exact .inl ⟨_, by decide, h⟩
  · split at h
    · exact .inl ⟨_, by decide, failWith_eq_next.1 h⟩
    · split at h
      · cases h
      · next hv =>
        split at h
        · next vs hd => exact .inr ⟨vs, hc, by simpa using hv, hd, succeedWith_eq_next.1 h⟩
        · cases h

/-! ### Every command -/

/-- No command is refused: every arm of `exec` has a meaning, and no meaning refuses. -/
theorem exec_ne_refused (i : Instr) (s : State) (r : Refusal) : exec i s ≠ .refused r := by
  intro h
  cases i <;>
    simp only [exec, execNop, execCfg, execCompress, compressValues, execGet, execDecompress, execSize, execBpv,
      execCbitlen, execCrosses, execCompressed, execBitsReq, execMask, execCeilDiv, execCeilLog2, execSlotExtract,
      execSlotInsert, requireConfigured, succeedWith, failWith, failCompress] at h <;>
    repeat' (first | cases h | split at h)

/-- Decoding reads only the encoding: MODE, DELEG, K, VALID, WORDS, OVT_M, PBUF and OVT (R154). -/
theorem State.decodeAt_congr {s u : State} (hm : u.mode = s.mode) (hd : u.deleg = s.deleg) (hk : u.k = s.k)
    (hv : u.valid = s.valid) (hw : u.words = s.words) (ho : u.ovtM = s.ovtM) (hp : u.pbuf = s.pbuf)
    (ht : u.ovt = s.ovt) (i : Nat) : u.decodeAt i = s.decodeAt i := by
  have hpb : ∀ j, u.pbufWord j = s.pbufWord j := fun j => by rw [State.pbufWord, State.pbufWord, hv, hw, hp]
  have hot : ∀ j, u.ovtWord j = s.ovtWord j := fun j => by rw [State.ovtWord, State.ovtWord, hv, ho, ht]
  have hrf : ∀ pos w, u.readField pos w = s.readField pos w := fun pos w => by
    simp only [State.readField, hpb]
  simp only [State.decodeAt, State.decodeAligned, State.decodeContig, State.decodeOvf, hm, hd, hk, hrf, hot]

end Sys2Proof.Machine
end

