-- ==== Sys2Proof/Laws/Overflow.lean ====
section
/-! SUPPORT. The slots and tables of the two-tier layouts: what the fixed split and the search put into them, and
what the decoder reads from a slot (spec/45_overflow.md R212 to R222; spec/46_search.md R243 to R252). -/

namespace Sys2Proof.Machine

/-! ### Slots -/

/-- A slot with a payload below 2^(k-1) keeps it and its tag under the mask of its width (R212, R213). -/
theorem slot_fields {k : Nat} (h1 : 1 ≤ k) (h2 : k ≤ 32) (payload : Word) (tag : Bool)
    (hp : payload.toNat < 2 ^ (k - 1)) :
    let slot := (shl32 payload 1 ||| BitVec.ofNat 32 tag.toNat) &&& mask k
    extract slot 0 1 = BitVec.ofNat 32 tag.toNat ∧ extract slot 1 (k - 1) = payload := by
  have hhigh : ∀ i, k - 1 ≤ i → payload.getLsbD i = false := fun i hi =>
    Nat.testBit_lt_two_pow (Nat.lt_of_lt_of_le hp (Nat.pow_le_pow_right (by omega) hi))
  have ht : ∀ i, (BitVec.ofNat 32 tag.toNat).getLsbD i = (decide (i = 0) && tag) := by
    intro i
    cases tag
    · simp
    · rcases i with _ | i <;> simp
  refine ⟨BitVec.eq_of_getLsbD_eq fun i hi => ?_, BitVec.eq_of_getLsbD_eq fun i hi => ?_⟩
  · simp only [extract_getLsbD, BitVec.getLsbD_and, BitVec.getLsbD_or, mask_getLsbD, shl32, BitVec.getLsbD_shiftLeft, ht]
    rcases i with _ | i
    · simp; omega
    · simp
  · simp only [extract_getLsbD, BitVec.getLsbD_and, BitVec.getLsbD_or, mask_getLsbD, shl32, BitVec.getLsbD_shiftLeft, ht]
    by_cases hi' : i < k - 1
    · simp [hi', show 1 + i < k by omega, show 1 + i < 32 by omega]
    · simp [hi', hhigh i (by omega)]

theorem slotSmall_eq (bb : Nat) (v : Word) :
    slotSmall bb v = shl32 (v &&& mask bb) 1 ||| BitVec.ofNat 32 false.toNat := by simp [slotSmall]

theorem slotLarge_eq (bb j : Nat) :
    slotLarge bb j = shl32 (BitVec.ofNat 32 j &&& mask bb) 1 ||| BitVec.ofNat 32 true.toNat := by simp [slotLarge]

/-! ### The fixed split -/

/-- What the fixed split leaves (R214): the entries so far stay in front, and every value has a slot that holds it
directly or holds the index of an entry with it. -/
theorem splitFixed_spec (dedup : Bool) (bb : Nat) (table vals : List Word) :
    (∃ new, (splitFixed dedup bb table vals).2 = table ++ new ∧ new.length ≤ vals.length) ∧
    (splitFixed dedup bb table vals).1.length = vals.length ∧
    ∀ (i : Nat) (v : Word), vals[i]? = some v →
      (v.toNat < 2 ^ bb ∧ (splitFixed dedup bb table vals).1[i]? = some (slotSmall bb v)) ∨
      (2 ^ bb ≤ v.toNat ∧ ∃ j, (splitFixed dedup bb table vals).1[i]? = some (slotLarge bb j) ∧
        (splitFixed dedup bb table vals).2[j]? = some v) := by
  induction vals generalizing table with
  | nil => simp [splitFixed]
  | cons v vs ih =>
    rw [splitFixed]
    split
    · next hv =>
      obtain ⟨⟨new, h1, h2⟩, h3, h4⟩ := ih table
      refine ⟨⟨new, h1, by simp; omega⟩, by simp [h3], fun i x hx => ?_⟩
      cases i with
      | zero => simp at hx; subst hx; exact .inl ⟨hv, rfl⟩
      | succ i => simpa using h4 i x (by simpa using hx)
    · next hv =>
      split
      · next j hj =>
        obtain ⟨⟨new, h1, h2⟩, h3, h4⟩ := ih table
        refine ⟨⟨new, h1, by simp; omega⟩, by simp [h3], fun i x hx => ?_⟩
        cases i with
        | zero =>
          simp at hx; subst hx
          refine .inr ⟨by omega, j, rfl, ?_⟩
          have hj : table.idxOf? v = some j := by
            split at hj
            · exact hj
            · cases hj
          obtain ⟨hlt, hget, -⟩ := List.findIdx?_eq_some_iff_getElem.1 hj
          simp only [] at h1 ⊢
          rw [h1, List.getElem?_append_left hlt, List.getElem?_eq_getElem hlt]
          simpa using hget
        | succ i => simpa using h4 i x (by simpa using hx)
      · obtain ⟨⟨new, h1, h2⟩, h3, h4⟩ := ih (table ++ [v])
        refine ⟨⟨v :: new, by simp [h1], by simp; omega⟩, by simp [h3], fun i x hx => ?_⟩
        cases i with
        | zero =>
          simp at hx; subst hx
          exact .inr ⟨by omega, table.length, rfl, by simp [h1]⟩
        | succ i => simpa using h4 i x (by simpa using hx)

/-! ### The search -/

/-- Each header slot of the search holds a small value directly, or the index of its own table entry (R249). -/
theorem searchSlots_spec (bb j : Nat) (vals : List Word) :
    (searchSlots bb j vals).length = vals.length ∧
    ∀ (i : Nat) (v : Word), vals[i]? = some v →
      (v.toNat ≤ 2 ^ bb - 1 ∧ (searchSlots bb j vals)[i]? = some (shl32 v 1)) ∨
      (2 ^ bb - 1 < v.toNat ∧ ∃ l, (searchSlots bb j vals)[i]? = some (shl32 (BitVec.ofNat 32 (j + l)) 1 ||| 1) ∧
        (largeValues bb vals)[l]? = some v) := by
  induction vals generalizing j with
  | nil => simp [searchSlots]
  | cons v vs ih =>
    rw [searchSlots]
    split
    · next hv =>
      obtain ⟨h1, h2⟩ := ih j
      refine ⟨by simp [h1], fun i x hx => ?_⟩
      have hl : largeValues bb (v :: vs) = largeValues bb vs := by
        rw [largeValues, List.filter_cons_of_neg (by simpa using hv)]; rfl
      rw [hl]
      cases i with
      | zero => simp at hx; subst hx; exact .inl ⟨hv, rfl⟩
      | succ i => simpa using h2 i x (by simpa using hx)
    · next hv =>
      obtain ⟨h1, h2⟩ := ih (j + 1)
      refine ⟨by simp [h1], fun i x hx => ?_⟩
      have hl : largeValues bb (v :: vs) = v :: largeValues bb vs := by
        rw [largeValues, List.filter_cons_of_pos (by simpa using hv)]; rfl
      rw [hl]
      cases i with
      | zero => simp at hx; subst hx; exact .inr ⟨by omega, 0, rfl, rfl⟩
      | succ i =>
        rcases h2 i x (by simpa using hx) with ⟨h3, h4⟩ | ⟨h3, l, h4, h5⟩
        · exact .inl ⟨h3, by simpa using h4⟩
        · exact .inr ⟨h3, l + 1, by simpa [show j + (l + 1) = j + 1 + l by omega] using h4, by simpa using h5⟩

theorem largeValues_length_le (bb : Nat) (vals : List Word) : (largeValues bb vals).length ≤ vals.length :=
  List.length_filter_le _ _

theorem le_foldl_maxBitsReq (vals : List Word) (w : Nat) :
    w ≤ vals.foldl (fun w v => max w (bitsReq v)) w ∧
      ∀ v ∈ vals, bitsReq v ≤ vals.foldl (fun w v => max w (bitsReq v)) w := by
  induction vals generalizing w with
  | nil => simp
  | cons a vs ih =>
    obtain ⟨h1, h2⟩ := ih (max w (bitsReq a))
    refine ⟨by simp only [List.foldl_cons]; omega, fun v hv => ?_⟩
    rcases List.mem_cons.1 hv with rfl | hv
    · simp only [List.foldl_cons]; omega
    · exact h2 v hv

/-- No value needs more than the greatest width (R243). -/
theorem bitsReq_le_maxBitsReq {vals : List Word} {v : Word} (h : v ∈ vals) : bitsReq v ≤ maxBitsReq vals :=
  (le_foldl_maxBitsReq vals 0).2 v h

/-- The greatest width is at most 31 (R100). -/
theorem maxBitsReq_le (vals : List Word) : maxBitsReq vals ≤ 31 := by
  have key : ∀ w, w ≤ 31 → vals.foldl (fun w v => max w (bitsReq v)) w ≤ 31 := by
    induction vals with
    | nil => exact fun w hw => hw
    | cons a vs ih => exact fun w hw => ih _ (max_le hw (bitsReq_range a).2)
  exact key 0 (by omega)

/-- The best candidate is one of those tried (R242, R246). -/
theorem bestUpTo_eq_some {cls : LayoutClass} {vals : List Word} {upTo : Nat} {c : Candidate}
    (h : bestUpTo cls vals upTo = some c) : ∃ bb, 1 ≤ bb ∧ bb ≤ upTo ∧ c = candidate cls vals bb := by
  induction upTo with
  | zero => cases h
  | succ upTo ih =>
    rw [bestUpTo] at h
    unfold better at h
    split at h
    · exact ⟨upTo + 1, by omega, le_rfl, by simpa using h.symm⟩
    · next b hb =>
      split at h
      · exact ⟨upTo + 1, by omega, le_rfl, by simpa using h.symm⟩
      · cases h
        obtain ⟨bb, h1, h2, h3⟩ := ih hb
        exact ⟨bb, h1, by omega, h3⟩

/-- A selected candidate is one of those tried and beats the plain cost (R246). -/
theorem selectSplit_eq_some {cls : LayoutClass} {vals : List Word} {c : Candidate} (h : selectSplit cls vals = some c) :
    c.cost < vals.length * dataBits vals ∧ ∃ bb, 1 ≤ bb ∧ bb < dataBits vals ∧ c = candidate cls vals bb := by
  unfold selectSplit at h
  split at h
  · cases h
  · next b hb =>
    split at h
    · cases h
    · next hlt =>
      cases h
      obtain ⟨bb, h1, h2, h3⟩ := bestUpTo_eq_some hb
      exact ⟨by omega, bb, h1, by omega, h3⟩

end Sys2Proof.Machine
end

