-- ==== Sys2Proof/Laws/Port.lean ====
section
/-! SUPPORT. Decoding of CMD words, and everything one host event can answer (spec/30_encoding.md R71 to R76;
spec/20_memory.md R51 to R54). -/

namespace Sys2Proof

/-! ### Command words -/

/-- The encoder's word decodes to the command it encodes. -/
@[simp] theorem decode_encode (i : Instr) : decode (encode i) = .ok i := by cases i <;> decide

/-- A command's opcode is below 0x10, the first reserved one. -/
theorem opcodeOf_lt (i : Instr) : (opcodeOf i).toNat < 0x10 := by cases i <;> decide

/-- The table of opcodes and the encoder's opcodes are each other's inverse. -/
theorem instrOfOpcode_eq_some {op : BitVec 5} {i : Instr} : instrOfOpcode op = some i ↔ op = opcodeOf i := by
  revert op; cases i <;> decide

/-- An opcode names no command exactly from 0x10 on. -/
theorem instrOfOpcode_eq_none {op : BitVec 5} : instrOfOpcode op = none ↔ 0x10 ≤ op.toNat := by
  revert op; decide

end Sys2Proof

namespace Sys2Proof.Machine

/-! ### One step -/

/-- A step performs the next host event, or keeps the state when none is to come. -/
theorem step_eq_next {s t : State} :
    step s = .next t ↔ (s.pending = [] ∧ t = s) ∨
      ∃ e rest, s.pending = e :: rest ∧ performEvent { s with pending := rest } e = .next t := by
  unfold step nextEvent
  cases h : s.pending with
  | nil => simp [eq_comm]
  | cons e rest => simp

/-- A host read answers the port's word and adds it to the words the host has read. -/
theorem hostRead_eq_next {s t : State} {addr : Word} :
    hostRead s addr = .next t ↔ ∃ w, portRead s addr = .next w ∧ t = { s with observed := s.observed ++ [w] } := by
  unfold hostRead
  cases portRead s addr <;> simp [eq_comm]

/-- A CMD write runs the command its word decodes to, or reports the cause of the decoder. -/
theorem runCommand_cases {s t : State} {c : Word} (h : runCommand s c = .next t) :
    (∃ i, decode c = .ok i ∧ exec i s.startCommand = .next t) ∨
      ∃ e, decode c = .error e ∧ t = s.startCommand.raise (causeOfDecode e) := by
  unfold runCommand at h
  cases hd : decode c with
  | ok i => exact .inl ⟨i, rfl, by simpa [hd] using h⟩
  | error e => exact .inr ⟨e, rfl, by simpa [hd, failWith, eq_comm] using h⟩

/-- Everything a host write can do: run a command, store an ARG word, nothing, or store one VIN word. -/
theorem portWrite_cases {s t : State} {addr data : Word} (h : portWrite s addr data = .next t) :
    runCommand s data = .next t ∨ (∃ r, t = s.setArg r data) ∨ t = s ∨
      (indexOf addr < s.params.nMax.toNat ∧ t = { s with vin := s.vin.write (indexOf addr) data }) := by
  unfold portWrite at h
  simp only [] at h
  split at h
  · split at h
    · next r _ =>
      cases r <;> simp only [writeReg, Host.Outcome.next.injEq] at h
      case cmd => exact .inl h
      case arg => exact .inr (.inl ⟨_, h.symm⟩)
      all_goals exact .inr (.inr (.inl h.symm))
    · cases h
  · split at h
    · next hi => exact .inr (.inr (.inr ⟨hi, by simpa [eq_comm] using h⟩))
    · cases h
  all_goals cases h

/-- Everything a step can do when it answers a next state: nothing, the reset input, one read, or one write. -/
theorem step_cases {s t : State} (h : step s = .next t) :
    (s.pending = [] ∧ t = s) ∨
    (∃ rest, s.pending = .reset :: rest ∧ t = State.applyReset { s with pending := rest }) ∨
    (∃ addr rest w, s.pending = .access (.rd addr) :: rest ∧
      portRead { s with pending := rest } addr = .next w ∧
      t = { s with pending := rest, observed := s.observed ++ [w] }) ∨
    ∃ addr data rest, s.pending = .access (.wr addr data) :: rest ∧ s.busy = false ∧
      portWrite { s with pending := rest } addr data = .next t := by
  rcases step_eq_next.1 h with h | ⟨e, rest, hp, he⟩
  · exact .inl h
  · cases e with
    | reset => exact .inr (.inl ⟨rest, hp, by simpa [performEvent, eq_comm] using he⟩)
    | access a =>
      simp only [performEvent, performAccess] at he
      split at he
      · cases he
      · next hb =>
        cases a with
        | rd addr =>
          obtain ⟨w, hw, ht⟩ := hostRead_eq_next.1 he
          exact .inr (.inr (.inl ⟨addr, rest, w, hp, hw, ht⟩))
        | wr addr data =>
          refine .inr (.inr (.inr ⟨addr, data, rest, hp, ?_, he⟩))
          simpa using hb

end Sys2Proof.Machine
end

