-- ==== Sys2Proof/Laws/PerInstr.lean ====
section
/-! SUPPORT. The family Encoding: what the CMD word of each command looks like (spec/30_encoding.md R71, R73, R76). -/

namespace Sys2Proof.Laws.Encoding

/-- The CMD word of a well-formed command has zero in bits 31:5 and an opcode below the reserved ones, and the
decoder reads the command back from it. -/
def Statement (i : Instr) : Prop :=
  i.wf = true ∧ mbzField (encode i) = 0 ∧ (opcodeField (encode i)).toNat < 0x10 ∧ decode (encode i) = .ok i

theorem nop : Statement .nop := by unfold Statement; decide
theorem cfg : Statement .cfg := by unfold Statement; decide
theorem compress : Statement .compress := by unfold Statement; decide
theorem get : Statement .get := by unfold Statement; decide
theorem decompress : Statement .decompress := by unfold Statement; decide
theorem size : Statement .size := by unfold Statement; decide
theorem bpv : Statement .bpv := by unfold Statement; decide
theorem cbitlen : Statement .cbitlen := by unfold Statement; decide
theorem crosses : Statement .crosses := by unfold Statement; decide
theorem compressed : Statement .compressed := by unfold Statement; decide
theorem bitsReq : Statement .bitsReq := by unfold Statement; decide
theorem mask : Statement .mask := by unfold Statement; decide
theorem ceilDiv : Statement .ceilDiv := by unfold Statement; decide
theorem ceilLog2 : Statement .ceilLog2 := by unfold Statement; decide
theorem slotExtract : Statement .slotExtract := by unfold Statement; decide
theorem slotInsert : Statement .slotInsert := by unfold Statement; decide

end Sys2Proof.Laws.Encoding
end

