-- ==== Sys2Proof/Laws/Plan.lean ====
section
/-! SUPPORT. What every plan of COMPRESS guarantees: its fields can be placed, its numbers fit their registers, and
the encoding it installs decodes to the values encoded (spec/42_contract.md R150, R152, R157). -/

namespace Sys2Proof.Machine

/-! ### Sizes -/

theorem ceilDiv_le_self {a b : Nat} (hb : 0 < b) : ceilDiv a b ≤ a :=
  (ceilDiv_le_iff hb).2 (Nat.le_mul_of_pos_right a hb)

theorem ceilDiv_mul_lt (a : Nat) {b : Nat} (hb : 0 < b) : ceilDiv a b * b < a + b := by
  rcases Nat.eq_zero_or_pos (ceilDiv a b) with h | h
  · rw [h]; omega
  · have := mt (ceilDiv_le_iff (a := a) (q := ceilDiv a b - 1) hb).2 (by omega)
    rw [Nat.sub_mul] at this
    have : b ≤ ceilDiv a b * b := Nat.le_mul_of_pos_left b h
    omega

/-- A two-tier or plain layout of slots at most 32 bits wide takes at most one word a slot (20_memory.md R57). -/
theorem slotWords_le (cls : LayoutClass) {slots k : Nat} (h1 : 1 ≤ k) (h2 : k ≤ 32) : slotWords cls slots k ≤ slots := by
  cases cls with
  | alignedClass => exact ceilDiv_le_self (vpw_pos h1 h2)
  | contigClass => exact (ceilDiv_le_iff (by omega)).2 (Nat.mul_le_mul_left slots h2)

/-- The position just past `slots` slots lies within their words (R129, R218). -/
theorem slotPos_le_words (cls : LayoutClass) {slots total k : Nat} (h1 : 1 ≤ k) (h2 : k ≤ 32) (h : slots ≤ total) :
    slotPos cls slots k ≤ slotWords cls total k * 32 := by
  rcases Nat.lt_or_ge slots total with hlt | hge
  · have := slotPos_add_le_words cls h1 h2 hlt; omega
  · have he : slots = total := by omega
    subst he
    cases cls with
    | contigClass => exact le_ceilDiv_mul _ (by omega)
    | alignedClass =>
      have hv := vpw_pos h1 h2
      have hdm := Nat.div_add_mod slots (vpw k)
      have hfit := slotPos_aligned_fits slots h1 h2
      unfold slotPos slotWords
      simp only []
      rcases Nat.eq_zero_or_pos (slots % vpw k) with h0 | h0
      · rw [h0, Nat.zero_mul, Nat.add_zero]
        unfold ceilDiv
        rw [if_pos h0]; omega
      · unfold ceilDiv
        rw [if_neg (by omega)]; omega

/-! ### The guarantee -/

/-- What a plan for the values `vals` guarantees. -/
structure Plan.Good (p : Plan) (params : Params) (vals : List Word) : Prop where
  placeable : p.Placeable
  words_le : p.words ≤ 2 * vals.length
  k_pos : 1 ≤ p.k
  k_le : p.k ≤ 32
  table_le : p.table.length ≤ params.ovtMax.toNat
  table_le_length : p.table.length ≤ vals.length
  hbits_le : p.hbits ≤ p.words * 32
  smallW_lt : p.smallW < 64
  idxW_lt : p.idxW < 64
  ew_lt : p.ew < 64

/-- The writes of a plan of slots alone can be placed. -/
theorem slotWrites_placeable (cls : LayoutClass) {k : Nat} (h1 : 1 ≤ k) (h2 : k ≤ 32) (vals : List Word) (p : Plan)
    (hwr : p.writes = slotWrites cls k 0 vals) (hw : p.words = slotWords cls vals.length k) : p.Placeable := by
  refine ⟨fun f hf => ?_, ?_, fun f hf => ?_⟩
  · obtain ⟨j, v, -, rfl⟩ := mem_slotWrites.1 (hwr ▸ hf)
    exact ⟨h1, h2⟩
  · rw [hwr]; exact slotWrites_pairwise cls h1 h2 0 vals
  · obtain ⟨j, v, hj, rfl⟩ := mem_slotWrites.1 (hwr ▸ hf)
    obtain ⟨hlt, -⟩ := List.getElem?_eq_some_iff.1 hj
    rw [hw, Nat.zero_add]
    exact slotPos_add_le_words cls h1 h2 hlt

theorem planAligned_good {params : Params} {k : Nat} (h1 : 1 ≤ k) (h2 : k ≤ 32) (vals : List Word) :
    (planAligned k vals).Good params vals where
  placeable := slotWrites_placeable .alignedClass h1 h2 vals _ rfl rfl
  words_le := by have := ceilDiv_le_self (a := vals.length) (vpw_pos h1 h2); simp only [planAligned]; omega
  k_pos := h1
  k_le := h2
  table_le := Nat.zero_le _
  table_le_length := Nat.zero_le _
  hbits_le := le_rfl
  smallW_lt := by simp [planAligned]
  idxW_lt := by simp [planAligned]
  ew_lt := by simp [planAligned]

theorem planContig_good {params : Params} (vals : List Word) : (planContig vals).Good params vals where
  placeable := slotWrites_placeable .contigClass (bitsReq_range _).1 (by have := (bitsReq_range (maxVal vals)).2; omega)
    vals _ rfl rfl
  words_le := by
    have := slotWords_le .contigClass (slots := vals.length) (bitsReq_range (maxVal vals)).1
      (by have := (bitsReq_range (maxVal vals)).2; omega)
    simp only [slotWords] at this
    simp only [planContig]; omega
  k_pos := (bitsReq_range _).1
  k_le := by have := (bitsReq_range (maxVal vals)).2; simp only [planContig]; omega
  table_le := Nat.zero_le _
  table_le_length := Nat.zero_le _
  hbits_le := le_ceilDiv_mul _ (by omega)
  smallW_lt := by simp [planContig]
  idxW_lt := by simp [planContig]
  ew_lt := by simp [planContig]

theorem planDelegated_good {params : Params} (vals : List Word) : (planDelegated vals).Good params vals := by
  obtain ⟨⟨h1, h2, h3⟩, h4, h5, h6, h7, h8, h9, h10, h11, h12⟩ := planContig_good (params := params) vals
  exact ⟨⟨h1, h2, h3⟩, h4, h5, h6, h7, h8, h9, h10, h11, h12⟩

/-- A successful plan of modes 2 and 3, written out (R216 to R220). -/
theorem planFixed_eq_ok {params : Params} {cls : LayoutClass} {cross : Bool} {k : Nat} {vals : List Word} {p : Plan} :
    planFixed params cls cross k vals = .ok p ↔
      (splitFixed params.ovfDedup (k - 1) [] vals).2.length ≤ 2 ^ (k - 1) ∧
      (splitFixed params.ovfDedup (k - 1) [] vals).2.length ≤ params.ovtMax.toNat ∧
      p = { words := slotWords cls (vals.length + (splitFixed params.ovfDedup (k - 1) [] vals).2.length) k
            k := k, cross := cross, deleg := false, table := (splitFixed params.ovfDedup (k - 1) [] vals).2
            smallW := k - 1, idxW := k - 1, ew := k
            hbits := slotPos cls vals.length k
            writes := slotWrites cls k 0 (splitFixed params.ovfDedup (k - 1) [] vals).1 ++
              slotWrites cls k vals.length (splitFixed params.ovfDedup (k - 1) [] vals).2 } := by
  unfold planFixed
  simp only []
  split
  · simp; omega
  · split
    · simp; omega
    · simp only [Except.ok.injEq]
      constructor
      · rintro rfl; exact ⟨by omega, by omega, rfl⟩
      · rintro ⟨-, -, rfl⟩; rfl

theorem slotWrites_append (cls : LayoutClass) (k i : Nat) (us vs : List Word) :
    slotWrites cls k i us ++ slotWrites cls k (i + us.length) vs = slotWrites cls k i (us ++ vs) := by
  induction us generalizing i with
  | nil => rfl
  | cons u us ih =>
    simp only [slotWrites, List.cons_append, List.cons.injEq, true_and, List.length_cons]
    rw [← ih (i + 1), show i + (us.length + 1) = i + 1 + us.length by omega]

theorem planFixed_good {params : Params} {cls : LayoutClass} {cross : Bool} {k : Nat} {vals : List Word} {p : Plan}
    (h1 : 1 ≤ k) (h2 : k ≤ 32) (h : planFixed params cls cross k vals = .ok p) : p.Good params vals := by
  obtain ⟨hm1, hm2, rfl⟩ := planFixed_eq_ok.1 h
  obtain ⟨⟨new, hnew, hlen⟩, hsl, -⟩ := splitFixed_spec params.ovfDedup (k - 1) [] vals
  rw [List.nil_append] at hnew
  rw [← hnew] at hlen
  have hwords := slotWords_le cls (slots := vals.length + (splitFixed params.ovfDedup (k - 1) [] vals).2.length) h1 h2
  refine
    { placeable := ?_, words_le := ?_, k_pos := h1, k_le := h2, table_le := hm2, table_le_length := hlen
      hbits_le := slotPos_le_words cls h1 h2 (by omega), smallW_lt := ?_, idxW_lt := ?_, ew_lt := ?_ }
  · refine slotWrites_placeable cls h1 h2
      ((splitFixed params.ovfDedup (k - 1) [] vals).1 ++ (splitFixed params.ovfDedup (k - 1) [] vals).2) _ ?_ ?_
    · simp only []
      conv_lhs => rw [← hsl]
      have := slotWrites_append cls k 0 (splitFixed params.ovfDedup (k - 1) [] vals).1
        (splitFixed params.ovfDedup (k - 1) [] vals).2
      rwa [Nat.zero_add] at this
    · simp [hsl]
  all_goals (simp only []; omega)

/-- A successful plan of modes 4 and 5 (R246 to R252). -/
theorem planSearch_eq_ok {params : Params} {cls : LayoutClass} {cross : Bool} {vals : List Word} {p : Plan} :
    planSearch params cls cross vals = .ok p ↔
      (selectSplit cls vals = none ∧ p = planDelegated vals) ∨
      ∃ c, selectSplit cls vals = some c ∧ c.large.length ≤ params.ovtMax.toNat ∧
        p = { words := ceilDiv (c.header + c.large.length * c.kOv) 32
              k := c.slotWidth, cross := cross, deleg := false, table := c.large
              smallW := c.bb, idxW := c.idxBits, ew := c.kOv, hbits := c.header
              writes := slotWrites cls c.slotWidth 0 (searchSlots c.bb 0 vals) ++
                entryWrites c.header c.kOv 0 c.large } := by
  unfold planSearch
  cases selectSplit cls vals with
  | none => simp [eq_comm]
  | some c =>
    simp only []
    split
    · simp; omega
    · simp only [Except.ok.injEq, reduceCtorEq, false_and, false_or, Option.some.injEq]
      constructor
      · rintro rfl; exact ⟨c, rfl, by omega, rfl⟩
      · rintro ⟨_, rfl, -, rfl⟩; rfl

/-- The large values of a candidate are those of the fixed split at the same width (R243; 45_overflow.md R211). -/
theorem largeValues_eq_largeOf (bb : Nat) (vals : List Word) : largeValues bb vals = largeOf bb vals := by
  have := Nat.two_pow_pos bb
  unfold largeValues largeOf
  congr 1; funext v; congr 1; apply propext; omega

/-- The slot and index widths of a candidate, for at most 2^31 - 1 values (R244). -/
theorem candidate_widths (cls : LayoutClass) {vals : List Word} {bb : Nat} (hn : vals.length < 2 ^ 31)
    (hbb : bb < dataBits vals) :
    (candidate cls vals bb).slotWidth = 1 + max bb (candidate cls vals bb).idxBits ∧
      (candidate cls vals bb).idxBits ≤ 31 ∧ (candidate cls vals bb).slotWidth ≤ 32 := by
  have h1 : (candidate cls vals bb).idxBits ≤ 31 :=
    (ceilLog2_le_iff _ _).2 (by have := largeValues_length_le bb vals; omega)
  have h2 : dataBits vals ≤ 31 := (bitsReq_range _).2
  have h3 : (candidate cls vals bb).slotWidth = 1 + max bb (candidate cls vals bb).idxBits := rfl
  exact ⟨h3, h1, by omega⟩

theorem headerBits_eq (cls : LayoutClass) (n w : Nat) :
    headerBits cls n w = match cls with
      | .contigClass => slotPos .contigClass n w
      | .alignedClass => slotWords .alignedClass n w * 32 := by cases cls <;> rfl

/-- The header of `n` slots ends at `headerBits` (R245, R129). -/
theorem slotPos_add_le_header (cls : LayoutClass) {i n w : Nat} (h1 : 1 ≤ w) (h2 : w ≤ 32) (hi : i < n) :
    slotPos cls i w + w ≤ headerBits cls n w := by
  cases cls with
  | alignedClass => exact slotPos_add_le_words .alignedClass h1 h2 hi
  | contigClass => exact slotPos_add_le .contigClass h1 h2 hi

theorem planSearch_good {params : Params} {cls : LayoutClass} {cross : Bool} {vals : List Word} {p : Plan}
    (hn : vals.length < 2 ^ 31) (h : planSearch params cls cross vals = .ok p) : p.Good params vals := by
  rcases planSearch_eq_ok.1 h with ⟨-, rfl⟩ | ⟨c, hc, hm, rfl⟩
  · exact planDelegated_good vals
  · obtain ⟨hcost, bb, hb1, hb2, rfl⟩ := selectSplit_eq_some hc
    obtain ⟨hsw, hidx, hsw32⟩ := candidate_widths cls hn hb2
    have hkov : (candidate cls vals bb).kOv ≤ 31 := maxBitsReq_le _
    have hdata : dataBits vals ≤ 31 := (bitsReq_range _).2
    have hhead : (candidate cls vals bb).header = headerBits cls vals.length (candidate cls vals bb).slotWidth := rfl
    have hlarge : (candidate cls vals bb).large = largeValues bb vals := rfl
    have hsl := (searchSlots_spec (candidate cls vals bb).bb 0 vals).1
    have hfit : ∀ f ∈ slotWrites cls (candidate cls vals bb).slotWidth 0 (searchSlots (candidate cls vals bb).bb 0 vals),
        f.width = (candidate cls vals bb).slotWidth ∧ f.pos + f.width ≤ (candidate cls vals bb).header := by
      intro f hf
      obtain ⟨j, v, hj, rfl⟩ := mem_slotWrites.1 hf
      obtain ⟨hlt, -⟩ := List.getElem?_eq_some_iff.1 hj
      rw [hsl] at hlt
      rw [hhead, Nat.zero_add]
      exact ⟨rfl, slotPos_add_le_header cls (by omega) hsw32 hlt⟩
    have hent : ∀ f ∈ entryWrites (candidate cls vals bb).header (candidate cls vals bb).kOv 0
        (candidate cls vals bb).large, 1 ≤ f.width ∧ f.width = (candidate cls vals bb).kOv ∧
        (candidate cls vals bb).header ≤ f.pos ∧ f.pos + f.width ≤ (candidate cls vals bb).header +
          (candidate cls vals bb).large.length * (candidate cls vals bb).kOv := by
      intro f hf
      obtain ⟨j, v, hj, rfl⟩ := mem_entryWrites.1 hf
      obtain ⟨hlt, hv⟩ := List.getElem?_eq_some_iff.1 hj
      have hv : v ∈ (candidate cls vals bb).large := hv ▸ List.getElem_mem hlt
      have h1 : bitsReq v ≤ (candidate cls vals bb).kOv := bitsReq_le_maxBitsReq hv
      have h2 := (bitsReq_range v).1
      have h3 : (j + 1) * (candidate cls vals bb).kOv ≤
          (candidate cls vals bb).large.length * (candidate cls vals bb).kOv := Nat.mul_le_mul_right _ hlt
      rw [Nat.add_mul] at h3
      simp only [Nat.zero_add]
      exact ⟨by omega, trivial, by omega, by omega⟩
    have hwords := le_ceilDiv_mul ((candidate cls vals bb).header + (candidate cls vals bb).large.length *
      (candidate cls vals bb).kOv) (show 0 < 32 by omega)
    refine
      { placeable := ⟨fun f hf => ?_, ?_, fun f hf => ?_⟩, words_le := ?_, k_pos := by simp only []; omega
        k_le := hsw32, table_le := hm, table_le_length := hlarge ▸ largeValues_length_le bb vals
        hbits_le := by simp only []; omega, smallW_lt := ?_, idxW_lt := by simp only []; omega
        ew_lt := by simp only []; omega }
    · rcases List.mem_append.1 hf with hf | hf
      · have := (hfit f hf).1; omega
      · have := hent f hf; omega
    · refine List.pairwise_append.2 ⟨slotWrites_pairwise cls (by omega) hsw32 0 _, entryWrites_pairwise _ _ 0 _, ?_⟩
      intro f hf g hg
      exact .inl (le_trans (hfit f hf).2 (hent g hg).2.2.1)
    · rcases List.mem_append.1 hf with hf | hf
      · have := (hfit f hf).2; simp only []; omega
      · have := (hent f hf).2.2.2; simp only []; omega
    · have hcost' : (candidate cls vals bb).header + (candidate cls vals bb).large.length *
          (candidate cls vals bb).kOv = (candidate cls vals bb).cost := rfl
      have h31 : vals.length * dataBits vals ≤ vals.length * 31 := Nat.mul_le_mul_left _ hdata
      have := (ceilDiv_le_iff (a := (candidate cls vals bb).cost) (q := vals.length) (show 0 < 32 by omega)).2 (by omega)
      simp only [hcost']; omega
    · show bb < 64; omega

/-- Every plan that succeeds is good (R152). -/
theorem plan_good {params : Params} {mode : Mode} {k : Nat} {vals : List Word} {p : Plan}
    (hn : vals.length < 2 ^ 31)
    (hk : mode = .noCrossing ∨ mode = .overflowNoCrossing ∨ mode = .overflowCrossing → 1 ≤ k) (hk2 : k ≤ 32)
    (h : plan params mode k vals = .ok p) : p.Good params vals := by
  cases mode <;> simp only [plan] at h
  case noCrossing => cases h; exact planAligned_good (hk (by simp)) hk2 vals
  case crossing => cases h; exact planContig_good vals
  case overflowNoCrossing => exact planFixed_good (hk (by simp)) hk2 h
  case overflowCrossing => exact planFixed_good (hk (by simp)) hk2 h
  case searchNoCrossing => exact planSearch_good hn h
  case searchCrossing => exact planSearch_good hn h

/-! ### Reading an installed plan -/

/-- A slot a plan places reads back as the decoder reads it, masked to the slot width (R128, R173, R194). -/
theorem State.readField_slot_install (s : State) (p : Plan) (hp : p.Placeable) (hw : p.words < 2 ^ 32) (hk : p.k ≤ 32)
    {cls : LayoutClass} {i : Nat} {v : Word} (hf : { pos := slotPos cls i p.k, width := p.k, value := v } ∈ p.writes) :
    (s.install p).readField (slotPos cls i (s.install p).k.toNat) (s.install p).k.toNat = .ok (v &&& mask p.k) := by
  have hk' : (s.install p).k.toNat = p.k := by simp; omega
  rw [hk']
  exact Plan.readField_install s p hp hw hf

/-- A two-tier slot a plan places decodes to its payload, or through the table when its tag is 1 (R221). -/
theorem State.decodeOvf_install (s : State) (p : Plan) (hp : p.Placeable) (hw : p.words < 2 ^ 32) (h1 : 1 ≤ p.k)
    (h2 : p.k ≤ 32) {cls : LayoutClass} {i : Nat} {payload : Word} (hlt : payload.toNat < 2 ^ (p.k - 1)) (tag : Bool)
    (hf : { pos := slotPos cls i p.k, width := p.k, value := shl32 payload 1 ||| BitVec.ofNat 32 tag.toNat } ∈ p.writes) :
    (s.install p).decodeOvf cls i = if tag then (s.install p).ovtWord payload.toNat else .ok payload := by
  have hk' : (s.install p).k.toNat = p.k := by simp; omega
  unfold State.decodeOvf
  simp only []
  rw [State.readField_slot_install s p hp hw h2 hf, hk']
  obtain ⟨ht, hv⟩ := slot_fields h1 h2 payload tag hlt
  simp only [ht, hv]
  cases tag <;> simp

/-- The table a plan installs is the resident one (R222; 20_memory.md R67). -/
theorem State.ovtWord_install (s : State) (p : Plan) (ht : p.table.length < 2 ^ 32) {j : Nat} {v : Word}
    (h : p.table[j]? = some v) : (s.install p).ovtWord j = .ok v := by
  have hlt := (List.getElem?_eq_some_iff.1 h).1
  refine State.ovtWord_eq_ok.2 ⟨⟨rfl, ?_⟩, ?_⟩
  · rw [State.install_ovtM]; simp; omega
  · rw [State.install_ovt, Memory.read_ofWordsFrom]; simpa using h

/-! ### The table of the fixed split -/

theorem splitFixed_table_dedup (bb : Nat) (table vals : List Word) :
    (splitFixed true bb table vals).2 =
      table ++ ((largeOf bb vals).filter fun v => decide (v ∉ table)).eraseDups := by
  induction vals generalizing table with
  | nil => simp [splitFixed, largeOf]
  | cons v vs ih =>
    rw [splitFixed]
    split
    · rw [show largeOf bb (v :: vs) = largeOf bb vs from List.filter_cons_of_neg (by simp; omega)]
      exact ih table
    · rw [show largeOf bb (v :: vs) = v :: largeOf bb vs from List.filter_cons_of_pos (by simp; omega)]
      by_cases hm : v ∈ table
      · cases hi : table.idxOf? v with
        | none => exact absurd hm (List.idxOf?_eq_none_iff.1 hi)
        | some j =>
          rw [List.filter_cons_of_neg (by simpa using hm)]
          exact ih table
      · rw [List.idxOf?_eq_none_iff.2 hm, List.filter_cons_of_pos (by simpa using hm), List.eraseDups_cons,
          List.filter_filter]
        simp only [ih, if_true, List.append_assoc, List.singleton_append, List.append_cancel_left_eq, List.cons.injEq,
          true_and]
        congr 1
        apply List.filter_congr
        intro x _
        rw [Bool.eq_iff_iff]
        simp [and_comm]

theorem splitFixed_table_plain (bb : Nat) (table vals : List Word) :
    (splitFixed false bb table vals).2 = table ++ largeOf bb vals := by
  induction vals generalizing table with
  | nil => simp [splitFixed, largeOf]
  | cons v vs ih =>
    rw [splitFixed]
    split
    · rw [show largeOf bb (v :: vs) = largeOf bb vs from List.filter_cons_of_neg (by simp; omega)]
      exact ih table
    · rw [show largeOf bb (v :: vs) = v :: largeOf bb vs from List.filter_cons_of_pos (by simp; omega)]
      simp [ih]

/-- The fixed split builds the table of R214. -/
theorem splitFixed_table (dedup : Bool) (bb : Nat) (vals : List Word) :
    (splitFixed dedup bb [] vals).2 = tableOf dedup bb vals := by
  cases dedup
  · simp [splitFixed_table_plain, tableOf]
  · simp [splitFixed_table_dedup, tableOf]

/-- The table index in the slot of a large value (R214): its first place in the table that the split leaves where
entries are reused, else the place after the entries so far and the large values before it. -/
theorem splitFixed_index (dedup : Bool) (bb : Nat) (table vals : List Word) {i : Nat} {v : Word}
    (h : vals[i]? = some v) (hv : 2 ^ bb ≤ v.toNat) :
    (splitFixed dedup bb table vals).1[i]? = some (slotLarge bb
      (if dedup then (splitFixed dedup bb table vals).2.idxOf v
        else table.length + (largeOf bb (vals.take i)).length)) := by
  induction vals generalizing table i with
  | nil => simp at h
  | cons x xs ih =>
    obtain ⟨⟨new, hnew, -⟩, -⟩ := splitFixed_spec dedup bb table xs
    obtain ⟨⟨new', hnew', -⟩, -⟩ := splitFixed_spec dedup bb (table ++ [x]) xs
    rw [splitFixed]
    by_cases hx : x.toNat < 2 ^ bb
    · rw [if_pos hx]
      cases i with
      | zero => simp only [List.getElem?_cons_zero, Option.some.injEq] at h; subst h; omega
      | succ i =>
        have hl : largeOf bb (x :: xs.take i) = largeOf bb (xs.take i) := List.filter_cons_of_neg (by simp; omega)
        simpa [hl] using ih table (by simpa using h)
    · rw [if_neg hx]
      have hl (i : Nat) : largeOf bb (x :: xs.take i) = x :: largeOf bb (xs.take i) :=
        List.filter_cons_of_pos (by simp; omega)
      cases dedup with
      | false =>
        cases i with
        | zero => simp [largeOf]
        | succ i => simpa [hl, Nat.add_assoc, Nat.add_comm 1] using ih (table ++ [x]) (by simpa using h)
      | true =>
        cases hidx : table.idxOf? x with
        | some j =>
          have hmem : x ∈ table := by by_contra hm; simp [List.idxOf?_eq_none_iff.2 hm] at hidx
          have hj : table.idxOf x = j := by rw [List.idxOf_eq_getD_idxOf?, hidx]; rfl
          cases i with
          | zero =>
            simp only [List.getElem?_cons_zero, Option.some.injEq] at h
            subst h
            simp [hnew, List.idxOf_append_of_mem hmem, hj]
          | succ i => simpa [hidx] using ih table (by simpa using h)
        | none =>
          have hmem : x ∉ table := List.idxOf?_eq_none_iff.1 hidx
          cases i with
          | zero =>
            simp only [List.getElem?_cons_zero, Option.some.injEq] at h
            subst h
            simp [hnew', List.idxOf_append_of_notMem hmem]
          | succ i => simpa [hidx] using ih (table ++ [x]) (by simpa using h)

/-- The same for the header of the search, where every large value has its own entry (R249). -/
theorem searchSlots_index (bb j : Nat) (vals : List Word) {i : Nat} {v : Word} (h : vals[i]? = some v)
    (hv : 2 ^ bb ≤ v.toNat) :
    (searchSlots bb j vals)[i]? =
      some (shl32 (BitVec.ofNat 32 (j + (largeOf bb (vals.take i)).length)) 1 ||| 1) := by
  have hpos := Nat.two_pow_pos bb
  induction vals generalizing j i with
  | nil => simp at h
  | cons x xs ih =>
    rw [searchSlots]
    by_cases hx : x.toNat ≤ 2 ^ bb - 1
    · rw [if_pos hx]
      cases i with
      | zero => simp only [List.getElem?_cons_zero, Option.some.injEq] at h; subst h; omega
      | succ i =>
        have hl : largeOf bb (x :: xs.take i) = largeOf bb (xs.take i) := List.filter_cons_of_neg (by simp; omega)
        simpa [hl] using ih j (by simpa using h)
    · rw [if_neg hx]
      cases i with
      | zero => simp [largeOf]
      | succ i =>
        have hl : largeOf bb (x :: xs.take i) = x :: largeOf bb (xs.take i) := List.filter_cons_of_pos (by simp; omega)
        simpa [hl, Nat.add_assoc, Nat.add_comm 1] using ih (j + 1) (by simpa using h)

end Sys2Proof.Machine
end

