-- ==== Sys2Proof/Tests/Slice0.lean ====
section
/-! SUPPORT. Tests against the vectors of spec/95_test_vectors.md (each names its vector), the ill-formed terms that
WellFormed refuses, and for every statement with hypotheses a state and operands that meet them all. -/

namespace Sys2Proof.Tests

open Sys2Proof.Machine

/-! ### Helpers -/

/-- A value of the state a step answers, and none for a fault or a refusal. -/
def after {α : Type} (f : State → α) : Host.Outcome State Fault Refusal → Option α
  | .next t => some (f t)
  | .fault _ | .refused _ => none

/-- The fault a step stops with. -/
def faultOf : Host.Outcome State Fault Refusal → Option Fault
  | .fault f => some f
  | .next _ | .refused _ => none

/-- The refusal a step stops with. -/
def refusalOf : Host.Outcome State Fault Refusal → Option Refusal
  | .refused r => some r
  | .next _ | .fault _ => none

/-- A step with a value after it answered a next state. -/
theorem next_of_after {α : Type} {f : State → α} {o : Host.Outcome State Fault Refusal} {a : α}
    (h : after f o = some a) : ∃ t, o = .next t ∧ f t = a := by
  cases o with
  | next t => exact ⟨t, rfl, by simpa [after] using h⟩
  | fault _ => cases h
  | refused _ => cases h

/-- A step with STATUS.BUSY 0 after it answered a next state. -/
theorem next_some {o : Host.Outcome State Fault Refusal} (h : after State.busy o = some false) : ∃ t, o = .next t :=
  (next_of_after h).imp fun _ h => h.1

/-- A plan with a number of words is a plan that succeeded. -/
theorem plan_of_words {x : Except Cause Plan} {a : Nat} (h : x.toOption.map Plan.words = some a) :
    ∃ p, x = .ok p ∧ p.words = a := by
  cases x with
  | ok p => exact ⟨p, rfl, by simpa [Except.toOption] using h⟩
  | error _ => cases h

/-- The cause a plan fails with. -/
def causeOf : Except Cause Plan → Option Cause
  | .ok _ => none
  | .error c => some c

theorem plan_of_cause {x : Except Cause Plan} {c : Cause} (h : causeOf x = some c) : x = .error c := by
  cases x with
  | ok _ => cases h
  | error _ => simpa [causeOf] using h

/-- Natural numbers as words. -/
def words (vals : List Nat) : List Word := vals.map (BitVec.ofNat 32)

/-- The reset state with the four operands. -/
def operands (a b c d : Word) : State := { State.reset with arg0 := a, arg1 := b, arg2 := c, arg3 := d }

/-- A configured instance whose input is written, with the operand of COMPRESS. -/
def configured (mode : Mode) (k : Nat) (vals : List Nat) : State :=
  { State.reset with
    configured := true, mode := mode, cross := crossOf mode, n := BitVec.ofNat 32 vals.length, k := BitVec.ofNat 6 k
    arg0 := BitVec.ofNat 32 vals.length, vin := Memory.ofWordsFrom 0 (words vals) }

/-- Scenario 3 of the source, encoded in mode 2 (V-SRC-3), every field written out from the vector. -/
def encoded : State :=
  { configured .overflowNoCrossing 4 [1, 2, 9, 3] with
    valid := true, words := 1, ovtM := 1, smallW := 3, idxW := 3, ew := 4, hbits := 16
    pbuf := [(0, 0x00096142)], ovt := [(0, 9)] }

/-- V-OV: two large values where the index has no bit (K = 1). -/
def oneBitIndex : State := configured .overflowNoCrossing 1 [0, 5, 7]

/-- One large value where the index has no bit (K = 1): the table is as long as its index can count. -/
def fullIndex : State := configured .overflowCrossing 1 [0, 5]

/-- V-OV: three large values and OVT_MAX = 2. -/
def smallTable : State :=
  { configured .overflowCrossing 4 [8, 9, 10] with params := { Config.params with ovtMax := 2 } }

/-- One value and PBUF_WORDS = 0. -/
def noBuffer : State := { configured .noCrossing 3 [1] with params := { Config.params with pbufWords := 0 } }

/-- An input the search splits: seven zeros and 200. -/
def searched : State := configured .searchCrossing 0 [0, 0, 0, 0, 0, 0, 0, 200]

/-- A state whose host has one event to come. -/
def awaiting (s : State) (e : Event) : State := { s with pending := [e] }

/-! ### Well-formedness refuses -/

theorem test_wf_reserved_register : Access.wf Config.params (.rd 0x00000014) = false := by decide
theorem test_wf_index_at_depth :
    Access.wf Config.params (.rd 0x10000010) = false ∧ Access.wf Config.params (.rd 0x1000000F) = true := by decide
theorem test_wf_reserved_space : Access.wf Config.params (.rd 0x50000000) = false := by decide
theorem test_wf_write_to_read_only_space :
    Access.wf Config.params (.wr 0x20000000 1) = false ∧ Access.wf Config.params (.rd 0x20000000) = true := by decide
theorem test_wf_five_operands :
    Pseudo.wf (.form .slotInsert [0, 0, 0, 0, 0]) = false ∧ Pseudo.wf (.form .slotInsert [0, 0, 0, 0]) = true := by
  decide
theorem test_wf_loadv_too_long : Pseudo.wf (.loadv (List.replicate (2 ^ 28 + 1) 0)) = false := by
  rw [Pseudo.wf, List.length_replicate]; rfl
theorem test_wf_readv_too_long : Pseudo.wf (.readv (2 ^ 28 + 1)) = false := by decide
theorem test_wf_readp_too_long : Pseudo.wf (.readp (2 ^ 28 + 1)) = false := by decide

/-! ### Decoding: words written out from 30_encoding.md R71 and R73, bits 31:5 zero and OPCODE in bits 4:0 -/

theorem test_decode_nop : decode 0b00000000000000000000000000000000#32 = .ok .nop := by decide
theorem test_decode_cfg : decode 0b00000000000000000000000000000001#32 = .ok .cfg := by decide
theorem test_decode_compress : decode 0b00000000000000000000000000000010#32 = .ok .compress := by decide
theorem test_decode_get : decode 0b00000000000000000000000000000011#32 = .ok .get := by decide
theorem test_decode_decompress : decode 0b00000000000000000000000000000100#32 = .ok .decompress := by decide
theorem test_decode_size : decode 0b00000000000000000000000000000101#32 = .ok .size := by decide
theorem test_decode_bpv : decode 0b00000000000000000000000000000110#32 = .ok .bpv := by decide
theorem test_decode_cbitlen : decode 0b00000000000000000000000000000111#32 = .ok .cbitlen := by decide
theorem test_decode_crosses : decode 0b00000000000000000000000000001000#32 = .ok .crosses := by decide
theorem test_decode_compressed : decode 0b00000000000000000000000000001001#32 = .ok .compressed := by decide
theorem test_decode_bitsReq : decode 0b00000000000000000000000000001010#32 = .ok .bitsReq := by decide
theorem test_decode_mask : decode 0b00000000000000000000000000001011#32 = .ok .mask := by decide
theorem test_decode_ceilDiv : decode 0b00000000000000000000000000001100#32 = .ok .ceilDiv := by decide
theorem test_decode_ceilLog2 : decode 0b00000000000000000000000000001101#32 = .ok .ceilLog2 := by decide
theorem test_decode_slotExtract : decode 0b00000000000000000000000000001110#32 = .ok .slotExtract := by decide
theorem test_decode_slotInsert : decode 0b00000000000000000000000000001111#32 = .ok .slotInsert := by decide

/-- V-DC: 0x10, 0x1F are reserved opcodes; 0x20, 0x23, 0x30 and all ones have reserved bits, which win. -/
theorem test_decode_reserved :
    [0x10#32, 0x1F#32].map decode = [.error .reservedOpcode, .error .reservedOpcode] ∧
    [0x20#32, 0x23#32, 0x30#32, 0xFFFFFFFF#32].map decode =
      [.error .reservedBits, .error .reservedBits, .error .reservedBits, .error .reservedBits] := by decide

/-- V-DC: the STATUS words after each illegal CMD word, from reset. -/
theorem test_status_of_illegal_words :
    [0x10#32, 0x23#32, 0x00#32, 0x03#32].map (fun c => after statusWord (step (State.reset.placeCommand c))) =
      [some 0x00200308, some 0x00210308, some 0x00000000, some 0x00220308] := by decide

theorem test_withFetchWord_runs_first : after statusWord (step (State.reset.withFetchWord 32 0x1F)) = some 0x00200308 := by
  decide

theorem test_decodeTableWord : decodeTableWord 32 0x0E = some .slotExtract ∧ decodeTableWord 32 0x2E = none := by decide

/-! ### Bit utilities (V-BU) -/

theorem test_bitsReq : [0#32, 1#32, 2#32, 3#32, 4#32, 255#32, 256#32, 0x7FFFFFFF#32, 0x80000000#32].map bitsReq =
    [1, 1, 2, 2, 3, 8, 9, 31, 1] := by decide
theorem test_bitsReq_command : after State.result (exec .bitsReq (operands 1000 0 0 0)) = some 10 := by decide

theorem test_mask : [0, 1, 5, 31, 32, 33].map mask = [0, 1, 0x1F, 0x7FFFFFFF, 0xFFFFFFFF, 0xFFFFFFFF] := by decide
theorem test_mask_negative : after statusWord (exec .mask (operands 0xFFFFFFFF 0 0 0)) = some 0x00050108 := by decide

theorem test_ceilDiv : after State.result (exec .ceilDiv (operands 0x7FFFFFFF 2 0 0)) = some 0x40000000 := by decide
theorem test_ceilDiv_errors :
    [operands 5 0 0 0, operands 0xFFFFFFFF 3 0 0, operands 3 0xFFFFFFFF 0 0].map
      (fun s => after statusWord (exec .ceilDiv s)) =
    [some 0x00050108, some 0x00050108, some 0x00050108] := by decide

theorem test_ceilLog2 : [0, 1, 2, 3, 4, 5, 8, 9, 2 ^ 30, 2 ^ 30 + 1].map ceilLog2 = [0, 0, 1, 2, 2, 3, 3, 4, 30, 31] := by
  decide
theorem test_ceilLog2_negative : after State.result (exec .ceilLog2 (operands 0xFFFFFFFF 0 0 0)) = some 0 := by decide

/-! ### Slot fields (V-BS) -/

theorem test_slotExtract :
    [operands 0x00004688 9 3 0, operands 0xCC520C41 30 2 0, operands 0xDEADBEEF 0 32 0, operands 0x12345678 4 0 0].map
      (fun s => after State.result (exec .slotExtract s)) = [some 3, some 3, some 0xDEADBEEF, some 0] := by decide
theorem test_slotExtract_errors :
    [operands 0 32 0 0, operands 0 31 2 0, operands 0 0 33 0].map (fun s => after statusWord (exec .slotExtract s)) =
      [some 0x00050108, some 0x00050108, some 0x00050108] := by decide

theorem test_slotInsert :
    [operands 0 30 2 3, operands 0xFFFFFFFF 4 4 0, operands 0 0 3 9, operands 0x12345678 8 0 0xFF].map
      (fun s => after State.result (exec .slotInsert s)) =
    [some 0xC0000000, some 0xFFFFFF0F, some 1, some 0x12345678] := by decide
theorem test_slotInsert_no_wrap : after statusWord (exec .slotInsert (operands 0 0xFFFFFFFF 2 0)) = some 0x00050108 := by
  decide

/-! ### NOP, CFG and the accessors (V-CF, V-EX) -/

theorem test_nop_keeps_faultSeen :
    after statusWord (exec .nop { State.reset with faultSeen := true, err := .outOfRange, cause := .indexRange }) =
      some 0x00000008 := by decide

theorem test_cfg : after (fun t => (statusWord t, t.n, t.k)) (exec .cfg (operands 5 7 9 0)) = some (0x00000014, 7, 9) := by
  decide
theorem test_cfg_error_order :
    [operands 9 99 99 0, operands 0 99 40 0, operands 0 17 3 0, operands 1 1 33 0, operands 2 1 0 0].map
      (fun s => after statusWord (exec .cfg s)) =
    [some 0x00030108, some 0x00040108, some 0x00330408, some 0x00040108, some 0x00040108] := by decide

theorem test_size : after State.result (exec .size (configured .noCrossing 3 [0, 1, 2, 3, 4])) = some 5 := by decide
theorem test_bpv : after State.result (exec .bpv (configured .crossing 3 [5, 6, 7])) = some 3 := by decide
theorem test_crosses : after State.result (exec .crosses (configured .overflowCrossing 4 [1, 2, 9, 3])) = some 1 := by
  decide
theorem test_cbitlen : after State.result (exec .cbitlen encoded) = some 32 := by decide
theorem test_compressed : after State.result (exec .compressed encoded) = some 1 := by decide

/-! ### COMPRESS (V-AL, V-CT, V-OV, V-SE), GET and DECOMPRESS -/

/-- V-SRC-3, V-OV-1: the whole state after COMPRESS in mode 2. -/
theorem test_compress_overflow : after id (exec .compress (configured .overflowNoCrossing 4 [1, 2, 9, 3])) = some encoded := by
  decide +kernel

/-- V-SE-2: the search in mode 4; the tie between bb = 2 and bb = 3 goes to the smaller. -/
theorem test_compress_search :
    after (fun t => (t.pbuf, t.ovt, statusWord t))
      (exec .compress (configured .searchNoCrossing 0 [1, 2, 3, 1000, 0, 1, 2, 3])) =
      some ([(0, 0x00D103A2), (1, 0x000003E8)], [(0, 1000)], 0x00000012) ∧
    after (fun t => [t.k.toNat, t.smallW.toNat, t.idxW.toNat, t.ew.toNat, t.hbits.toNat])
      (exec .compress (configured .searchNoCrossing 0 [1, 2, 3, 1000, 0, 1, 2, 3])) = some [3, 2, 0, 10, 32] := by
  decide +kernel

/-- V-SRC-3: a value through the table and a direct one. -/
theorem test_get :
    [0x2#32, 0x0#32].map (fun i => after State.result (exec .get { encoded with arg0 := i })) = [some 9, some 1] := by
  decide
/-- V-CF: an index out of range is an error and not a fault, although VALID is 0; in range it is U1. -/
theorem test_get_unencoded :
    after statusWord (exec .get { configured .noCrossing 3 [1, 2, 3] with arg0 := 3 }) = some 0x00100218 ∧
    faultOf (exec .get { configured .noCrossing 3 [1, 2, 3] with arg0 := 2 }) = some .getUnencoded := by decide

theorem test_decompress :
    after (fun t => (t.vout, t.result)) (exec .decompress encoded) = some ([(0, 1), (1, 2), (2, 9), (3, 3)], 4) := by
  decide
theorem test_decompress_unencoded :
    after statusWord (exec .decompress { configured .noCrossing 3 [1, 2, 3] with arg0 := 2 }) = some 0x00060118 ∧
    faultOf (exec .decompress (configured .noCrossing 3 [1, 2, 3])) = some .decompressUnencoded := by decide

/-! ### The plans (V-AL, V-CT, V-OV, V-SE): slots, tables and buffers -/

theorem test_aligned_buffers :
    [(planAligned 3 (words [0, 1, 2, 3, 4])).buffer, (planAligned 5 (words [1, 2, 3, 4, 5, 6, 7])).buffer,
      (planAligned 16 (words [0xFFFF, 0x12345, 1])).buffer] =
    [[(0, 0x00004688)], [(0, 0x0C520C41), (1, 7)], [(0, 0x2345FFFF), (1, 1)]] := by decide +kernel

theorem test_contiguous_buffers :
    [(planContig (words [1, 2, 3, 4, 5, 6, 27, 31])).buffer, (planContig (words [0x7FFFFFFF, 1])).buffer,
      (planContig (words [])).buffer] =
    [[(0, 0xCC520C41), (1, 0x000000FE)], [(0, 0xFFFFFFFF), (1, 0)], []] := by decide +kernel

theorem test_fixed_split :
    splitFixed false 3 [] (words [20, 20, 1]) = (words [1, 3, 2], words [20, 20]) ∧
    splitFixed true 3 [] (words [20, 20, 1]) = (words [1, 1, 2], words [20]) := by decide

theorem test_overflow_buffers :
    (planFixed Config.params .contigClass true 5 (words [3, 40, 7, 1, 2, 15, 50, 0])).toOption.map Plan.buffer =
      some [(0, 0xFC413826), (1, 0x00024800)] ∧
    (planFixed Config.params .alignedClass false 5 (words [3, 40, 7, 1, 2, 15, 50, 0])).toOption.map Plan.buffer =
      some [(0, 0x3C413826), (1, 0x00092003)] := by decide +kernel

theorem test_search_costs :
    [1, 2, 3, 4].map (fun bb => (candidate .contigClass (words [1, 2, 3, 1000, 0, 1, 2, 3]) bb).cost) = [82, 34, 42, 50] ∧
    [1, 2, 3, 4].map (fun bb => (candidate .alignedClass (words [1, 2, 3, 1000, 0, 1, 2, 3]) bb).cost) =
      [82, 42, 42, 74] := by decide +kernel

theorem test_search_delegates :
    selectSplit .contigClass (words [5, 6, 7]) = none ∧ selectSplit .alignedClass (words [1, 1, 1, 1]) = none := by
  decide +kernel

/-- V-AL, V-CT, V-OV, V-SE: the STATUS words of the failures. -/
theorem test_compress_failures :
    [configured .crossing 0 [1, 0xFFFFFFFF], configured .overflowNoCrossing 1 [0, 5, 7],
      { configured .noCrossing 3 [0, 1, 2, 3, 4] with arg0 := 4, faultSeen := true, valid := true },
      { configured .crossing 0 [7, 7, 7, 7, 7, 7, 7, 7, 7, 7, 7] with params := { Config.params with pbufWords := 1 } },
      { configured .searchCrossing 0 [1, 2, 3, 1000, 0, 1, 2, 3] with params := { Config.params with ovtMax := 0 } }].map
      (fun s => after statusWord (exec .compress s)) =
    [some 0x0002011C, some 0x00300418, some 0x00010118, some 0x0032041C, some 0x0031041C] := by decide +kernel

/-! ### The port -/

theorem test_reads_of_undefined_words :
    [0x10000000#32, 0x20000000#32, 0x30000000#32, 0x40000000#32].map
      (fun a => faultOf (step (awaiting State.reset (.access (.rd a))))) =
    [some .vinUnwritten, some .voutUndefined, some .pbufUndefined, some .ovtUndefined] := by decide

theorem test_reads_of_encoded_words :
    [0x30000000#32, 0x40000000#32, 0x00000006#32, 0x0000000F#32, 0x00000011#32].map
      (fun a => after State.observed (step (awaiting encoded (.access (.rd a))))) =
    [some [0x00096142], some [9], some [0x00000012], some [16], some [32]] := by decide

theorem test_accesses_outside_the_interface :
    [Access.rd 0x00000014, .wr 0x20000000 0, .rd 0x10000010, .rd 0xF0000000].map
      (fun a => refusalOf (step (awaiting State.reset (.access a)))) =
    [some .reservedRegister, some .readOnlySpace, some .beyondDepth, some .reservedSpace] := by decide

theorem test_busy_allows_status_reads_only :
    after State.observed (step { awaiting State.reset (.access (.rd 0x00000006)) with busy := true }) = some [1] ∧
    refusalOf (step { awaiting State.reset (.access (.rd 0x00000005)) with busy := true }) =
      some .accessWhileBusy := by decide

/-- R89 as printed by program P1: LOADV of two values. -/
theorem test_loadv_listing :
    (expand (.loadv [0, 1])).map listing = ["W 10000000 00000000".toList, "W 10000001 00000001".toList] := by decide

theorem plan_encoded : ∃ p, plan encoded.params encoded.mode encoded.k.toNat (words [1, 2, 9, 3]) = .ok p ∧ p.words = 1 :=
  plan_of_words (by decide +kernel)
theorem plan_noBuffer : ∃ p, plan noBuffer.params noBuffer.mode noBuffer.k.toNat (words [1]) = .ok p ∧ p.words = 1 :=
  plan_of_words (by decide +kernel)

/-- COMPRESS on the encoded instance succeeds, in mode 2 and on the same data in mode 3. -/
theorem compress_encoded : ∃ t, exec .compress encoded = .next t ∧ t.err = .ok :=
  next_of_after (f := State.err) (by decide +kernel)
theorem compress_mode3 : ∃ t, exec .compress (configured .overflowCrossing 4 [1, 2, 9, 3]) = .next t ∧ t.err = .ok :=
  next_of_after (f := State.err) (by decide +kernel)

/-! ### Witnesses: for every statement with hypotheses, a state and operands that meet them together

Where a statement has several clauses there is a witness for each, at a boundary of its range. -/

/-- The values of an input, as the statements about COMPRESS ask for them. -/
def ReadsInput (s : State) (vals : List Word) : Prop :=
  vals.length = s.n.toNat ∧ ∀ i, i < s.n.toNat → s.vin.read i = vals[i]?

theorem readsInput_of {s : State} {vals : List Word} (h : s.inputs = some vals) : ReadsInput s vals :=
  State.inputs_eq_some.1 h

theorem witness_CmdWriteDecodesInOrder :
    State.reset.busy = false ∧
    ((0x20#32).extractLsb' 5 27 ≠ 0 ∧ (0x3F#32).extractLsb' 5 27 ≠ 0) ∧
    ((0x10#32).extractLsb' 5 27 = 0 ∧ 0x10 ≤ ((0x10#32).extractLsb' 0 5).toNat) ∧
    ((0x0F#32).extractLsb' 5 27 = 0 ∧ ((0x0F#32).extractLsb' 0 5).toNat < 0x10) := by decide

theorem witness_StepRunsDecodedCommand :
    (awaiting State.reset (.access (.wr 0x00000000 0x0D))).busy = false ∧
    (awaiting State.reset (.access (.wr 0x00000000 0x0D))).pending = [.access (.wr 0x00000000 0x0D)] ∧
    decode 0x0D#32 = .ok .ceilLog2 ∧ Instr.wf .ceilLog2 = true ∧
    (awaiting State.reset (.access (.rd 0x00000006))).pending = [.access (.rd 0x00000006)] := by decide

theorem witness_IdleStepKeepsState : encoded.pending = [] := by decide

theorem witness_BitsReqGivesSmallestWidth : (0#32).toInt ≤ 0 ∧ 0 < (1#32).toInt := by decide

theorem witness_MaskSetsLowBits : (0xFFFFFFFF#32).toInt < 0 ∧ 0 ≤ (0#32).toInt ∧ 0 ≤ (32#32).toInt := by decide

theorem witness_CeilDivGivesSmallestQuotient :
    ((0xFFFFFFFF#32).toInt < 0 ∨ (3#32).toInt ≤ 0) ∧ ((5#32).toInt < 0 ∨ (0#32).toInt ≤ 0) ∧
    (0 ≤ (0#32).toInt ∧ 0 < (1#32).toInt) := by decide

theorem witness_CeilLog2GivesSmallestPower : (1#32).toInt ≤ 1 ∧ 1 < (2#32).toInt := by decide

theorem witness_SlotExtractReadsField :
    ((31#32).toNat ≤ 31 ∧ (1#32).toNat ≤ 32 ∧ (31#32).toNat + (1#32).toNat ≤ 32) ∧
    ¬((31#32).toNat ≤ 31 ∧ (2#32).toNat ≤ 32 ∧ (31#32).toNat + (2#32).toNat ≤ 32) := by decide

theorem witness_SlotInsertWritesField :
    ((0#32).toNat ≤ 31 ∧ (32#32).toNat ≤ 32 ∧ (0#32).toNat + (32#32).toNat ≤ 32) ∧
    ¬((0xFFFFFFFF#32).toNat ≤ 31 ∧ (2#32).toNat ≤ 32 ∧ (0xFFFFFFFF#32).toNat + (2#32).toNat ≤ 32) := by decide

theorem witness_ExtractInsertLaws :
    (4 ≤ 31 ∧ 4 ≤ 32 ∧ 4 + 4 ≤ 32) ∧
    (8 ≤ 31 ∧ 4 ≤ 32 ∧ 8 + 4 ≤ 32 ∧ ∀ b, 8 ≤ b → b < 8 + 4 → ¬(4 ≤ b ∧ b < 4 + 4)) ∧
    (0 ≤ 31 ∧ 32 ≤ 32 ∧ 0 + 32 ≤ 32) :=
  ⟨by decide, ⟨by decide, by decide, by decide, fun b h _ => by omega⟩, by decide⟩

theorem witness_FieldWriteReadsBack :
    (1 ≤ 4 ∧ 4 ≤ 32 ∧ ∃ x, encoded.readField 8 4 = .ok x) ∧ (1 ≤ 8 ∧ 8 ≤ 32 ∧ (0 + 8 ≤ 8 ∨ 8 + 4 ≤ 0)) :=
  ⟨⟨by decide, by decide, 1, by decide⟩, by decide⟩

theorem witness_SlotsCrossOnlyWhenContiguous : 1 ≤ 5 ∧ 5 ≤ 32 ∧ 32 < 6 * 5 % 32 + 5 ∧ ¬32 < 5 * 5 % 32 + 5 := by decide

theorem witness_CfgConstructsInstance :
    5 < (6#32).toNat ∧
    ((0#32).toNat ≤ 5 ∧ ¬((0#32).toNat ≤ 32 ∧
      ((0#32).toNat = 0 ∨ (0#32).toNat = 2 ∨ (0#32).toNat = 3 → 1 ≤ (0#32).toNat))) ∧
    ((5#32).toNat ≤ 5 ∧ (32#32).toNat ≤ 32 ∧
      ((5#32).toNat = 0 ∨ (5#32).toNat = 2 ∨ (5#32).toNat = 3 → 1 ≤ (32#32).toNat)) ∧
    (State.reset.params.nMax.toNat < (17#32).toNat ∧ (16#32).toNat ≤ State.reset.params.nMax.toNat) ∧
    ((15#28).toNat < State.reset.params.nMax.toNat ∧ (31#28).toNat < State.reset.params.pbufWords.toNat ∧
      (15#28).toNat < State.reset.params.ovtMax.toNat) := by decide

theorem witness_AccessorsReturnRegisters : encoded.configured = true ∧ encoded.words.toNat < 2 ^ 27 := by decide

theorem witness_CodecCommandsNeedInstance : State.reset.configured = false := by decide

/-- A length mismatch; a word the host never wrote; a negative value; a capacity cause; too few PBUF words. -/
theorem witness_CompressFailsInOrder :
    (encoded.configured = true ∧ { encoded with arg0 := 3 }.arg0 ≠ { encoded with arg0 := 3 }.n) ∧
    (encoded.arg0 = encoded.n ∧ ∃ i < { encoded with vin := [] }.n.toNat, { encoded with vin := [] }.vin.read i = none) ∧
    ((configured .crossing 0 [1, 0xFFFFFFFF]).configured = true ∧
      (configured .crossing 0 [1, 0xFFFFFFFF]).arg0 = (configured .crossing 0 [1, 0xFFFFFFFF]).n ∧
      ReadsInput (configured .crossing 0 [1, 0xFFFFFFFF]) (words [1, 0xFFFFFFFF]) ∧
      (configured .crossing 0 [1, 0xFFFFFFFF]).mode ≠ .noCrossing ∧ ∃ v ∈ words [1, 0xFFFFFFFF], v.toInt < 0) ∧
    (oneBitIndex.configured = true ∧ oneBitIndex.arg0 = oneBitIndex.n ∧ ReadsInput oneBitIndex (words [0, 5, 7]) ∧
      (∀ v ∈ words [0, 5, 7], 0 ≤ v.toInt) ∧
      plan oneBitIndex.params oneBitIndex.mode oneBitIndex.k.toNat (words [0, 5, 7]) = .error .idxCapacity) ∧
    (noBuffer.configured = true ∧ noBuffer.arg0 = noBuffer.n ∧ ReadsInput noBuffer (words [1]) ∧
      noBuffer.mode = .noCrossing ∧ ∃ p, plan noBuffer.params noBuffer.mode noBuffer.k.toNat (words [1]) = .ok p ∧
        noBuffer.params.pbufWords.toNat < p.words) := by
  obtain ⟨p, hp, hw⟩ := plan_noBuffer
  exact ⟨by decide, ⟨by decide, 0, by decide⟩,
    ⟨by decide, by decide, readsInput_of (by decide), by decide, by simp [words]⟩,
    ⟨by decide, by decide, readsInput_of (by decide), by simp [words], plan_of_cause (by decide +kernel)⟩,
    by decide, by decide, readsInput_of (by decide), by decide, p, hp, by rw [hw]; decide⟩

theorem witness_CompressInstallsPlan :
    encoded.configured = true ∧ encoded.arg0 = encoded.n ∧ ReadsInput encoded (words [1, 2, 9, 3]) ∧
    (∀ v ∈ words [1, 2, 9, 3], 0 ≤ v.toInt) ∧
    ∃ p, plan encoded.params encoded.mode encoded.k.toNat (words [1, 2, 9, 3]) = .ok p ∧
      p.words ≤ encoded.params.pbufWords.toNat := by
  obtain ⟨p, hp, hw⟩ := plan_encoded
  exact ⟨by decide, by decide, readsInput_of (by decide), by simp [words], p, hp, by rw [hw]; decide⟩

theorem witness_FailedCompressEffects :
    ∃ t, exec .compress { encoded with arg0 := 3 } = .next t ∧ t.err ≠ .ok := ⟨_, rfl, by decide⟩

theorem witness_AlignedCompressRegisters :
    (configured .noCrossing 3 [0, 1, 2, 3, 4]).configured = true ∧
    (configured .noCrossing 3 [0, 1, 2, 3, 4]).mode = .noCrossing ∧
    1 ≤ (configured .noCrossing 3 [0, 1, 2, 3, 4]).k.toNat ∧ (configured .noCrossing 3 [0, 1, 2, 3, 4]).k.toNat ≤ 32 ∧
    (configured .noCrossing 3 [0, 1, 2, 3, 4]).arg0 = (configured .noCrossing 3 [0, 1, 2, 3, 4]).n ∧
    ReadsInput (configured .noCrossing 3 [0, 1, 2, 3, 4]) (words [0, 1, 2, 3, 4]) ∧
    (5 + 32 / 3 - 1) / (32 / 3) ≤ (configured .noCrossing 3 [0, 1, 2, 3, 4]).params.pbufWords.toNat :=
  ⟨by decide, by decide, by decide, by decide, by decide, readsInput_of (by decide), by decide⟩

theorem witness_ContiguousCompressRegisters :
    (configured .crossing 0 [5, 6, 7]).configured = true ∧ (configured .crossing 0 [5, 6, 7]).mode = .crossing ∧
    (configured .crossing 0 [5, 6, 7]).arg0 = (configured .crossing 0 [5, 6, 7]).n ∧
    ReadsInput (configured .crossing 0 [5, 6, 7]) (words [5, 6, 7]) ∧ (∀ v ∈ words [5, 6, 7], 0 ≤ v.toInt) ∧
    (3 * 3 + 31) / 32 ≤ (configured .crossing 0 [5, 6, 7]).params.pbufWords.toNat :=
  ⟨by decide, by decide, by decide, readsInput_of (by decide), by simp [words], by decide⟩

/-- Two entries at K = 1, one more than 2^0; three entries at K = 4 with OVT_MAX = 2 (V-OV); and one entry at K = 1,
which is 2^(K-1) of them and succeeds. -/
theorem witness_FixedSplitChecksCapacity :
    (oneBitIndex.configured = true ∧ oneBitIndex.mode = .overflowNoCrossing ∧ oneBitIndex.arg0 = oneBitIndex.n ∧
      ReadsInput oneBitIndex (words [0, 5, 7]) ∧ (∀ v ∈ words [0, 5, 7], 0 ≤ v.toInt) ∧
      2 ^ (oneBitIndex.k.toNat - 1) <
        (tableOf oneBitIndex.params.ovfDedup (oneBitIndex.k.toNat - 1) (words [0, 5, 7])).length) ∧
    (smallTable.configured = true ∧ smallTable.mode = .overflowCrossing ∧ smallTable.arg0 = smallTable.n ∧
      ReadsInput smallTable (words [8, 9, 10]) ∧ (∀ v ∈ words [8, 9, 10], 0 ≤ v.toInt) ∧
      (tableOf smallTable.params.ovfDedup (smallTable.k.toNat - 1) (words [8, 9, 10])).length ≤
        2 ^ (smallTable.k.toNat - 1) ∧
      smallTable.params.ovtMax.toNat <
        (tableOf smallTable.params.ovfDedup (smallTable.k.toNat - 1) (words [8, 9, 10])).length) ∧
    (fullIndex.configured = true ∧ fullIndex.mode = .overflowCrossing ∧ fullIndex.arg0 = fullIndex.n ∧
      ReadsInput fullIndex (words [0, 5]) ∧ (∀ v ∈ words [0, 5], 0 ≤ v.toInt) ∧
      (tableOf fullIndex.params.ovfDedup (fullIndex.k.toNat - 1) (words [0, 5])).length = 2 ^ (fullIndex.k.toNat - 1) ∧
      (tableOf fullIndex.params.ovfDedup (fullIndex.k.toNat - 1) (words [0, 5])).length ≤ fullIndex.params.ovtMax.toNat ∧
      1 ≤ fullIndex.k.toNat ∧ fullIndex.k.toNat ≤ 32 ∧ ((2 + 1) * 1 + 31) / 32 ≤ fullIndex.params.pbufWords.toNat) :=
  ⟨⟨by decide, by decide, by decide, readsInput_of (by decide), by simp [words], by decide⟩,
    ⟨by decide, by decide, by decide, readsInput_of (by decide), by simp [words], by decide, by decide⟩,
    by decide, by decide, by decide, readsInput_of (by decide), by simp [words], by decide, by decide, by decide,
    by decide, by decide⟩

theorem witness_FixedSplitRegistersAndTable :
    encoded.configured = true ∧ encoded.mode = .overflowNoCrossing ∧ 1 ≤ encoded.k.toNat ∧ encoded.k.toNat ≤ 32 ∧
    encoded.n.toNat ≤ encoded.params.nMax.toNat ∧ ReadsInput encoded (words [1, 2, 9, 3]) ∧
    (∃ t, exec .compress encoded = .next t ∧ t.err = .ok) ∧
    ∃ t, exec .compress (configured .overflowCrossing 4 [1, 2, 9, 3]) = .next t ∧ t.err = .ok :=
  ⟨by decide, by decide, by decide, by decide, by decide, readsInput_of (by decide), compress_encoded, compress_mode3⟩

theorem witness_SearchKeepsCheapestSplit :
    (∃ c, selectSplit .contigClass (words [1, 2, 3, 1000, 0, 1, 2, 3]) = some c) ∧
    selectSplit .contigClass (words [5, 6, 7]) = none ∧ 1 ≤ 1 ∧ 1 < dataBits (words [5, 6, 7]) :=
  ⟨Option.isSome_iff_exists.1 (by decide +kernel), by decide +kernel, by decide, by decide +kernel⟩

theorem witness_EveryCandidateHasLargeValue :
    (∀ v ∈ words [1, 2, 3, 1000], 0 ≤ v.toInt) ∧ (words [1, 2, 3, 1000]).length < 2 ^ 31 ∧ 1 ≤ 9 ∧
    9 < dataBits (words [1, 2, 3, 1000]) :=
  ⟨by simp [words], by decide, by decide, by decide +kernel⟩

/-- The candidate of `searched` fits; with OVT_MAX = 0 its table does not. -/
theorem witness_SearchCompressRegisters :
    searched.configured = true ∧ searched.mode = .searchCrossing ∧ searched.n.toNat ≤ searched.params.nMax.toNat ∧
    searched.arg0 = searched.n ∧ ReadsInput searched (words [0, 0, 0, 0, 0, 0, 0, 200]) ∧
    (∀ v ∈ words [0, 0, 0, 0, 0, 0, 0, 200], 0 ≤ v.toInt) ∧
    ∃ c, selectSplit .contigClass (words [0, 0, 0, 0, 0, 0, 0, 200]) = some c ∧
      c.large.length ≤ searched.params.ovtMax.toNat ∧ (c.cost + 31) / 32 ≤ searched.params.pbufWords.toNat ∧
      { searched with params := { Config.params with ovtMax := 0 } }.params.ovtMax.toNat < c.large.length :=
  ⟨by decide, by decide, by decide, by decide, readsInput_of (by decide), by simp [words],
    candidate .contigClass (words [0, 0, 0, 0, 0, 0, 0, 200]) 1, by decide +kernel, by decide +kernel, by decide +kernel,
    by decide +kernel⟩

theorem witness_DelegationEncodesAsContiguous :
    (configured .searchCrossing 0 [5, 6, 7]).mode = .searchCrossing ∧
    ReadsInput (configured .searchCrossing 0 [5, 6, 7]) (words [5, 6, 7]) ∧
    selectSplit .contigClass (words [5, 6, 7]) = none ∧
    ∃ u, exec .compress { configured .searchCrossing 0 [5, 6, 7] with mode := .crossing } = .next u ∧ u.err = .ok :=
  ⟨by decide, readsInput_of (by decide), by decide +kernel, next_of_after (f := State.err) (by decide +kernel)⟩

theorem witness_CapacityBoundsSuffice :
    encoded.n.toNat ≤ encoded.params.nMax.toNat ∧ encoded.k.toNat ≤ 32 ∧ (KeepsWidth encoded.mode → 1 ≤ encoded.k.toNat) ∧
    encoded.inputs = some (words [1, 2, 9, 3]) ∧ (∀ v ∈ words [1, 2, 9, 3], 0 ≤ v.toInt) ∧
    (∃ p, plan encoded.params encoded.mode encoded.k.toNat (words [1, 2, 9, 3]) = .ok p) ∧
    (∃ t, exec .compress encoded = .next t) ∧
    2 * encoded.params.nMax.toNat ≤ encoded.params.pbufWords.toNat ∧
    encoded.params.nMax.toNat ≤ encoded.params.ovtMax.toNat := by
  obtain ⟨p, hp, -⟩ := plan_encoded
  obtain ⟨t, ht, -⟩ := compress_encoded
  exact ⟨by decide, by decide, fun _ => by decide, by decide, by simp [words], ⟨p, hp⟩, ⟨t, ht⟩, by decide, by decide⟩

/-- The clause on PBUF_FULL: one value, and no PBUF word. -/
theorem witness_CapacityBoundsSuffice_pbufFull :
    noBuffer.n.toNat ≤ noBuffer.params.nMax.toNat ∧ noBuffer.k.toNat ≤ 32 ∧ 1 ≤ noBuffer.k.toNat ∧
    (∃ t, exec .compress noBuffer = .next t) ∧ noBuffer.inputs = some (words [1]) ∧ noBuffer.mode = .noCrossing ∧
    noBuffer.configured = true ∧ noBuffer.arg0 = noBuffer.n ∧
    ∃ p, plan noBuffer.params noBuffer.mode noBuffer.k.toNat (words [1]) = .ok p ∧
      noBuffer.params.pbufWords.toNat < p.words := by
  obtain ⟨p, hp, hw⟩ := plan_noBuffer
  exact ⟨by decide, by decide, by decide, next_some (by decide +kernel), by decide, by decide, by decide, by decide,
    p, hp, by rw [hw]; decide⟩

theorem witness_CompressRoundTrip :
    encoded.n.toNat ≤ encoded.params.nMax.toNat ∧ encoded.k.toNat ≤ 32 ∧ 1 ≤ encoded.k.toNat ∧
    ReadsInput encoded (words [1, 2, 9, 3]) ∧ (∃ t, exec .compress encoded = .next t ∧ t.err = .ok) ∧
    (words [1, 2, 9, 3])[2]? = some 9 :=
  ⟨by decide, by decide, by decide, readsInput_of (by decide), compress_encoded, by decide⟩

/-- Two states that differ in everything the statement leaves open. -/
theorem witness_CompressIgnoresEarlierEncoding :
    (configured .overflowNoCrossing 4 [1, 2, 9, 3]).params = encoded.params ∧
    (configured .overflowNoCrossing 4 [1, 2, 9, 3]).mode = encoded.mode ∧
    (configured .overflowNoCrossing 4 [1, 2, 9, 3]).n = encoded.n ∧
    (configured .overflowNoCrossing 4 [1, 2, 9, 3]).arg0 = encoded.arg0 ∧
    (configured .overflowNoCrossing 4 [1, 2, 9, 3]).vin = encoded.vin ∧
    (configured .overflowNoCrossing 4 [1, 2, 9, 3]).configured = encoded.configured ∧
    (configured .overflowNoCrossing 4 [1, 2, 9, 3]).k = encoded.k ∧
    (∃ t, exec .compress encoded = .next t ∧ t.err = .ok) ∧
    exec .compress { encoded with vin := [] } = .fault .compressVinUnwritten :=
  ⟨rfl, rfl, rfl, rfl, rfl, rfl, rfl, compress_encoded, rfl⟩

theorem witness_SizeAccounting :
    (configured .crossing 0 [5, 6, 7]).n.toNat ≤ (configured .crossing 0 [5, 6, 7]).params.nMax.toNat ∧
    (configured .crossing 0 [5, 6, 7]).mode = .crossing ∧
    (∃ t, exec .compress (configured .crossing 0 [5, 6, 7]) = .next t ∧ t.err = .ok) ∧
    after State.deleg (exec .compress (configured .searchCrossing 0 [5, 6, 7])) = some true :=
  ⟨by decide, by decide, next_of_after (f := State.err) (by decide +kernel), by decide +kernel⟩

theorem witness_GetReturnsDecodedValue :
    State.reset.configured = false ∧ encoded.configured = true ∧ encoded.n.toNat ≤ { encoded with arg0 := 4 }.arg0.toNat ∧
    ((configured .noCrossing 3 [1, 2, 3]).configured = true ∧ (configured .noCrossing 3 [1, 2, 3]).valid = false ∧
      { configured .noCrossing 3 [1, 2, 3] with arg0 := 2 }.arg0.toNat < (configured .noCrossing 3 [1, 2, 3]).n.toNat) ∧
    ({ encoded with arg0 := 3 }.arg0.toNat < encoded.n.toNat ∧ encoded.valid = true ∧
      { encoded with arg0 := 3 }.decodeAt { encoded with arg0 := 3 }.arg0.toNat = .ok 3) := by decide

theorem witness_DecompressFillsVout :
    State.reset.configured = false ∧
    ((configured .noCrossing 3 [1, 2, 3]).configured = true ∧ (configured .noCrossing 3 [1, 2, 3]).valid = false ∧
      (configured .noCrossing 3 [1, 2, 3]).arg0 = (configured .noCrossing 3 [1, 2, 3]).n) ∧
    encoded.configured = true ∧ { encoded with arg0 := 5 }.arg0 ≠ encoded.n ∧
    (encoded.arg0 = encoded.n ∧ encoded.valid = true ∧ ∀ i < encoded.n.toNat, ∃ v, encoded.decodeAt i = .ok v) := by
  refine ⟨by decide, by decide, by decide, by decide, by decide, by decide, fun i hi => ?_⟩
  have hi : i < 4 := hi
  interval_cases i
  · exact ⟨1, by decide⟩
  · exact ⟨2, by decide⟩
  · exact ⟨9, by decide⟩
  · exact ⟨3, by decide⟩

theorem witness_UnencodedQueriesFault :
    (configured .noCrossing 3 [1, 2, 3]).configured = true ∧ (configured .noCrossing 3 [1, 2, 3]).valid = false ∧
    { configured .noCrossing 3 [1, 2, 3] with arg0 := 2 }.arg0.toNat < (configured .noCrossing 3 [1, 2, 3]).n.toNat ∧
    (configured .noCrossing 3 [1, 2, 3]).arg0 = (configured .noCrossing 3 [1, 2, 3]).n := by decide

/-- The encoding of `encoded` can be read whole. -/
theorem encoded_readable : encoded.EncodingReadable := by
  refine fun _ => ⟨fun j => ?_, fun j => ?_, by decide, fun i hi => ?_⟩
  · rcases j with _ | j <;> simp [encoded, Memory.read]
  · rcases j with _ | j <;> simp [encoded, Memory.read]
  · have hi : i < 4 := hi
    interval_cases i
    · exact ⟨1, by decide⟩
    · exact ⟨2, by decide⟩
    · exact ⟨9, by decide⟩
    · exact ⟨3, by decide⟩

/-- An encoded instance, and one where nothing is encoded. -/
theorem witness_CommandsFaultOnlyWhereUnspecified :
    encoded.EncodingReadable ∧ (configured .noCrossing 3 [1, 2, 3]).EncodingReadable :=
  ⟨encoded_readable, fun h => absurd h (by decide)⟩

theorem witness_EveryCommandReports :
    (∃ t, exec .size encoded = .next t ∧ t.err = .ok) ∧ ∃ t, exec .size State.reset = .next t ∧ t.err ≠ .ok :=
  ⟨⟨_, rfl, rfl⟩, _, rfl, by decide⟩

theorem witness_FailedCommandsChangeNothingElse :
    (∃ t, exec .decompress { encoded with arg0 := 5 } = .next t ∧ t.err ≠ .ok) ∧
    ∃ t, exec .compress { encoded with arg0 := 5 } = .next t ∧ t.err ≠ .ok :=
  ⟨⟨_, rfl, by decide⟩, _, rfl, by decide⟩

theorem witness_OnlyResetClearsStickyFlags :
    (∃ t, step { encoded.placeCommand 0x01 with faultSeen := true, arg0 := 9 } = .next t) ∧
    (∀ rest, { encoded.placeCommand 0x01 with faultSeen := true, arg0 := 9 }.pending ≠ .reset :: rest) ∧
    { encoded.placeCommand 0x01 with faultSeen := true, arg0 := 9 }.faultSeen = true ∧
    { encoded.placeCommand 0x01 with faultSeen := true, arg0 := 9 }.configured = true :=
  ⟨⟨_, rfl⟩, fun rest h => (by cases h), rfl, rfl⟩

theorem witness_ValidFollowsCompressAndCfg :
    (∃ t, exec .compress encoded = .next t ∧ t.err = .ok) ∧
    (∃ t, exec .compress { encoded with arg0 := 5 } = .next t ∧ t.err ≠ .ok) ∧
    (∃ t, exec .cfg { encoded with arg0 := 5 } = .next t ∧ t.err = .ok) ∧
    (∃ t, exec .cfg { encoded with arg0 := 6 } = .next t ∧ t.err ≠ .ok) ∧
    (∃ t, exec .bpv encoded = .next t) ∧
    ((awaiting encoded .reset).pending = [.reset] ∧ ∃ t, step (awaiting encoded .reset) = .next t) ∧
    (encoded.LayoutClearWhenInvalid ∧ ∃ t, step (encoded.placeCommand 0x01) = .next t) :=
  ⟨compress_encoded, ⟨_, rfl, by decide⟩, ⟨_, rfl, rfl⟩, ⟨_, rfl, by decide⟩, ⟨_, rfl⟩, ⟨rfl, _, rfl⟩,
    fun h => (by cases h), _, rfl⟩

theorem witness_CommandFrames :
    (∃ t, exec .nop encoded = .next t) ∧ (∃ t, exec .get { encoded with arg0 := 2 } = .next t) ∧
    (∃ t, exec .decompress encoded = .next t) ∧ (∃ t, exec .cfg { encoded with arg0 := 5 } = .next t) ∧
    ((∃ t, exec .compress encoded = .next t) ∧ KeepsWidth encoded.mode) :=
  ⟨⟨_, rfl⟩, next_some (by decide), next_some (by decide), ⟨_, rfl⟩, next_some (by decide +kernel), .inr (.inl rfl)⟩

theorem witness_OnlyCompressReadsVin :
    (Instr.decompress ≠ .compress ∧ ∃ t, exec .decompress encoded = .next t) ∧
    (Instr.get ≠ .compress ∧ exec .get (configured .noCrossing 3 [1, 2, 3, 4, 5] |>.setArg .arg0 4) = .fault .getUnencoded) :=
  ⟨⟨by decide, next_some (by decide)⟩, by decide, rfl⟩

/-- One command of each clause that answers a next state, and one that faults. -/
theorem witness_UnlistedOperandsAreNotRead :
    (Instr.size ∈ [Instr.nop, .size, .bpv, .cbitlen, .crosses, .compressed] ∧ ∃ t, exec .size encoded = .next t) ∧
    (Instr.get ∈ [Instr.compress, .get, .decompress, .bitsReq, .mask, .ceilLog2] ∧ ArgReg.arg1 ≠ .arg0 ∧
      exec .get (configured .noCrossing 3 [1, 2, 3, 4, 5] |>.setArg .arg0 4) = .fault .getUnencoded) ∧
    (ArgReg.arg2 ≠ .arg0 ∧ ArgReg.arg2 ≠ .arg1 ∧ ∃ t, exec .ceilDiv encoded = .next t) ∧
    (Instr.slotExtract ∈ [Instr.cfg, .slotExtract] ∧ ∃ t, exec .slotExtract encoded = .next t) :=
  ⟨⟨by decide, _, rfl⟩, ⟨by decide, by decide, rfl⟩, ⟨by decide, by decide, next_some (by decide)⟩, by decide,
    next_some (by decide)⟩

theorem witness_HostWritesStoreOneWord :
    encoded.busy = false ∧ (0#28).toNat < encoded.params.nMax.toNat ∧ (15#28).toNat < encoded.params.nMax.toNat := by
  decide

theorem witness_RegisterAccessRules :
    encoded.busy = false ∧ (0x05 ≤ (0x05#28).toNat ∧ (0x05#28).toNat ≤ 0x13) ∧
    (0x05 ≤ (0x13#28).toNat ∧ (0x13#28).toNat ≤ 0x13) ∧ 0x14 ≤ (0x14#28).toNat := by decide

theorem witness_ReadsHaveNoSideEffects : ∃ t, performAccess encoded (.rd 0x40000000) = .next t := ⟨_, rfl⟩

theorem witness_StatusWordFields : encoded.busy = false := rfl

theorem witness_CapabilityRegistersHoldParameters :
    (∃ t, step (awaiting encoded .reset) = .next t) ∧ encoded.busy = false ∧
    (0x10 ≤ (0x10#28).toNat ∧ (0x10#28).toNat ≤ 0x13) ∧ (0x10 ≤ (0x13#28).toNat ∧ (0x13#28).toNat ≤ 0x13) :=
  ⟨⟨_, rfl⟩, rfl, by decide, by decide⟩

theorem witness_AccessRefusedExactlyOutsideInterface :
    encoded.busy = false ∧ Access.wf encoded.params (.rd 0x10000010) = false ∧
    Refuses (performAccess encoded (.rd 0x10000010)) ∧ Access.wf encoded.params (.rd 0x1000000F) = true :=
  ⟨rfl, by decide, ⟨_, rfl⟩, by decide⟩

theorem witness_MemoryReadsReturnDefinedWords :
    ((3#28).toNat < encoded.params.nMax.toNat ∧ encoded.vin.read 3 = some 3 ∧ encoded.vin.read 4 = none) ∧
    (encoded.n.toNat ≤ (4#28).toNat ∧ encoded.vout.read 0 = none) ∧
    ({ encoded with vout := [(3, 7)] }.vout.read 3 = some 7 ∧ (3#28).toNat < encoded.n.toNat) ∧
    (encoded.valid = true ∧ (0#28).toNat < encoded.words.toNat ∧ encoded.words.toNat ≤ (1#28).toNat ∧
      (1#28).toNat < encoded.params.pbufWords.toNat ∧ encoded.pbuf.read 0 = some 0x00096142) ∧
    ((0#28).toNat < encoded.ovtM.toNat ∧ encoded.ovtM.toNat ≤ (1#28).toNat ∧
      (1#28).toNat < encoded.params.ovtMax.toNat ∧ encoded.ovt.read 0 = some 9) ∧ State.reset.valid = false := by decide

theorem witness_ResetInputRestoresResetState : (awaiting encoded .reset).pending = [.reset] := rfl

theorem witness_StepKeepsMemoryForm :
    (encoded.placeCommand 0x04).MemoriesWf ∧ ∃ t, step (encoded.placeCommand 0x04) = .next t :=
  ⟨⟨by decide, by decide, by decide, by decide⟩, next_some (by decide)⟩

/-- A COMPRESS on an encoded instance: the state meets the whole invariant, and the step answers a next state. -/
theorem witness_StepKeepsRegisterInvariants :
    (encoded.placeCommand 0x02).Inv ∧ ∃ t, step (encoded.placeCommand 0x02) = .next t := by
  refine ⟨⟨⟨by decide, by decide, by decide, by decide⟩, fun h => (by cases h),
    ⟨by decide, fun _ => by decide, by decide, by decide, by decide⟩,
    ⟨fun h => (by cases h), fun _ _ => by decide⟩, ⟨by decide, by decide, fun h => absurd rfl h⟩,
    encoded_readable, fun j hj => ⟨?_, rfl⟩⟩, next_some (by decide +kernel)⟩
  · have hj : 16 ≤ j := hj
    show Memory.read [(0, 1), (1, 2), (2, 9), (3, 3)] j = none
    simp only [Memory.read]
    repeat rw [if_neg (by omega)]

/-- The same state and step meet the hypotheses of the other invariant. -/
theorem witness_StepKeepsEncodingReadable :
    (encoded.placeCommand 0x02).Inv ∧ ∃ t, step (encoded.placeCommand 0x02) = .next t :=
  witness_StepKeepsRegisterInvariants

end Sys2Proof.Tests
end

section
/-! PROOFS. The register map of the host port, the parameters along a step, and the state after reset
(spec/10_state.md R33, R34, R35, R40). -/

namespace Sys2Proof.Machine

/-! ### Addresses and the register map -/

@[simp] theorem spaceOf_append (space : BitVec 4) (i : BitVec 28) : spaceOf (space ++ i) = space.toNat :=
  congrArg BitVec.toNat BitVec.extractLsb'_append_eq_left

@[simp] theorem indexOf_append (space : BitVec 4) (i : BitVec 28) : indexOf (space ++ i) = i.toNat :=
  congrArg BitVec.toNat BitVec.extractLsb'_append_eq_right

/-- The register map ends at 0x13 (10_state.md R34). -/
theorem regAt_eq_none {i : Nat} : regAt i = none ↔ 0x14 ≤ i := by
  constructor
  · intro h
    by_contra hlt
    interval_cases i <;> cases h
  · intro h
    obtain ⟨j, rfl⟩ := Nat.exists_eq_add_of_le' h
    rfl

/-- The registers from 0x05 to 0x13 are neither CMD nor an operand register (10_state.md R34). -/
theorem exists_regAt_not_writable {i : Nat} (h5 : 0x05 ≤ i) (h13 : i ≤ 0x13) :
    ∃ r, regAt i = some r ∧ r ≠ .cmd ∧ ∀ q, r ≠ .arg q := by
  interval_cases i <;> exact ⟨_, rfl, nofun, nofun⟩

/-- Only CMD and the operand registers take a host write (10_state.md R35). -/
theorem writeReg_of_not_writable {r : Reg} (hcmd : r ≠ .cmd) (harg : ∀ q, r ≠ .arg q) (s : State) (data : Word) :
    writeReg s r data = .next s := by
  cases r with
  | cmd => exact absurd rfl hcmd
  | arg q => exact absurd rfl (harg q)
  | _ => rfl

/-! ### Accesses to space 0 -/

section
variable {s : State} {addr : Word}

theorem performAccess_wr_of_idle (hb : s.busy = false) (addr data : Word) :
    performAccess s (.wr addr data) = portWrite s addr data := by simp [performAccess, hb]

theorem performAccess_rd_of_idle (hb : s.busy = false) (addr : Word) :
    performAccess s (.rd addr) = hostRead s addr := by simp [performAccess, hb]

theorem portRead_of_regAt_some {r : Reg} (hsp : spaceOf addr = 0) (hr : regAt (indexOf addr) = some r) :
    portRead s addr = .next (readReg s r) := by simp [portRead, hsp, hr]

theorem portRead_of_regAt_none (hsp : spaceOf addr = 0) (hr : regAt (indexOf addr) = none) :
    portRead s addr = .refused .reservedRegister := by simp [portRead, hsp, hr]

theorem portWrite_of_regAt_some {r : Reg} (hsp : spaceOf addr = 0) (hr : regAt (indexOf addr) = some r) (data : Word) :
    portWrite s addr data = writeReg s r data := by simp [portWrite, hsp, hr]

theorem portWrite_of_regAt_none (hsp : spaceOf addr = 0) (hr : regAt (indexOf addr) = none) (data : Word) :
    portWrite s addr data = .refused .reservedRegister := by simp [portWrite, hsp, hr]

/-- A host write to a register from 0x05 to 0x13 has no effect (10_state.md R35). -/
theorem performAccess_wr_readOnly (hb : s.busy = false) {i : BitVec 28} (h5 : 0x05 ≤ i.toNat) (h13 : i.toNat ≤ 0x13)
    (data : Word) : performAccess s (.wr (0x0#4 ++ i) data) = .next s := by
  obtain ⟨r, hr, hcmd, harg⟩ := exists_regAt_not_writable h5 h13
  rw [performAccess_wr_of_idle hb, portWrite_of_regAt_some (r := r) (by simp) (by simpa using hr),
    writeReg_of_not_writable hcmd harg]

end

/-- Settles O46: from 0x05 to 0x13 the map holds registers that ignore a write, from 0x14 on it holds none. -/
theorem registerAccessRules : Obligations.RegisterAccessRules := by
  unfold Obligations.RegisterAccessRules
  intro s i data hb
  refine ⟨fun h5 h13 => performAccess_wr_readOnly hb h5 h13 data, ?_, fun h14 => ?_⟩
  · exact portRead_of_regAt_some (r := .cmd) (by decide) (by decide)
  · have hsp : spaceOf (0x0#4 ++ i) = 0 := by simp
    have hnone : regAt (indexOf (0x0#4 ++ i)) = none := by simpa using regAt_eq_none.2 h14
    constructor
    · rw [performAccess_wr_of_idle hb, portWrite_of_regAt_none hsp hnone]
    · rw [performAccess_rd_of_idle hb, hostRead, portRead_of_regAt_none hsp hnone]

/-! ### The parameters along a step -/

section
variable {s t : State}

theorem exec_params {i : Instr} (h : exec i s = .next t) : t.params = s.params := by
  cases i
  case nop =>
    obtain rfl : s.complete = t := by simpa [exec, execNop] using h
    rfl
  case cfg => obtain ⟨_, _, _, _, rfl⟩ | ⟨_, _, rfl⟩ := execCfg_cases h <;> rfl
  case compress => obtain ⟨_, _, rfl⟩ | ⟨_, _, _, _, _, _, _, _, rfl⟩ := execCompress_cases h <;> rfl
  case decompress => obtain ⟨_, _, rfl⟩ | ⟨_, _, _, _, rfl⟩ := execDecompress_cases h <;> rfl
  all_goals obtain ⟨_, rfl⟩ | ⟨_, _, rfl⟩ := exec_scalar_cases rfl h <;> rfl

theorem runCommand_params {c : Word} (h : runCommand s c = .next t) : t.params = s.params := by
  obtain ⟨i, -, hi⟩ | ⟨e, -, rfl⟩ := runCommand_cases h
  · exact (exec_params hi).trans s.startCommand_params
  · exact State.raise_params s.startCommand _

theorem portWrite_params {addr data : Word} (h : portWrite s addr data = .next t) : t.params = s.params := by
  obtain hrun | ⟨r, rfl⟩ | rfl | ⟨-, rfl⟩ := portWrite_cases h
  · exact runCommand_params hrun
  · exact State.setArg_params s r data
  · rfl
  · rfl

/-- No step changes a parameter, the reset input among them (10_state.md R33). -/
theorem step_params (h : step s = .next t) : t.params = s.params := by
  obtain ⟨-, rfl⟩ | ⟨rest, -, rfl⟩ | ⟨addr, rest, w, -, -, rfl⟩ | ⟨addr, data, rest, -, -, hw⟩ := step_cases h
  · rfl
  · rfl
  · rfl
  · exact (portWrite_params hw :)

end

theorem featuresWord_eq (p : Params) : featuresWord p = if p.ovfDedup then 1 else 0 := by
  unfold featuresWord
  cases p.ovfDedup <;> rfl

/-- Settles O51: each capability register reads a field of the parameters, which `step_params` keeps. -/
theorem capabilityRegistersHoldParameters : Obligations.CapabilityRegistersHoldParameters := by
  unfold Obligations.CapabilityRegistersHoldParameters
  refine ⟨fun s t => step_params, fun s => ⟨?_, ?_, ?_, ?_, fun i data hb h10 h13 => ?_⟩⟩
  · rw [portRead_of_regAt_some (r := .capN) (by decide) (by decide), BitVec.ofNat_toNat, readReg]
  · rw [portRead_of_regAt_some (r := .capPbuf) (by decide) (by decide), BitVec.ofNat_toNat, readReg]
  · rw [portRead_of_regAt_some (r := .capOvt) (by decide) (by decide), readReg]
  · rw [portRead_of_regAt_some (r := .features) (by decide) (by decide), readReg, featuresWord_eq]
  · exact performAccess_wr_readOnly hb (by omega) h13 data

/-! ### The state after reset -/

theorem statusWord_resetWith (p : Params) : statusWord (State.resetWith p) = 0 := by
  simp [statusWord, State.resetWith, causeCode, errCode, flagBit]

/-- Every register but the capability registers reads 0 after reset (10_state.md R40). -/
theorem readReg_resetWith (p : Params) {r : Reg} (hr : r ∉ [Reg.capN, .capPbuf, .capOvt, .features]) :
    readReg (State.resetWith p) r = 0 := by
  cases r with
  | arg q => cases q <;> rfl
  | status => exact statusWord_resetWith p
  | capN | capPbuf | capOvt | features => simp at hr
  | _ => rfl

/-- Settles O55: the registers by `readReg_resetWith`, the flags and the empty memories as reset lists them. -/
theorem resetLeavesListedValues : Obligations.ResetLeavesListedValues := by
  unfold Obligations.ResetLeavesListedValues
  intro p
  refine ⟨fun r hr => readReg_resetWith p ?_, rfl, rfl, rfl, rfl, rfl, rfl, rfl, rfl, rfl, rfl,
    fun j => ⟨rfl, rfl, rfl, rfl⟩⟩
  revert r
  decide

end Sys2Proof.Machine
end

section
/-! PROOFS. Host accesses to the spaces: which are refused, and what a read of a memory word answers
(spec/20_memory.md R51, R52, R66, R67, R69). -/

namespace Sys2Proof.Machine

/-! ### The fields of an address -/

theorem spaceOf_eq_div (addr : Word) : spaceOf addr = addr.toNat / 2 ^ 28 := by
  rw [spaceOf, BitVec.extractLsb'_toNat, Nat.shiftRight_eq_div_pow]
  omega

theorem indexOf_eq_mod (addr : Word) : indexOf addr = addr.toNat % 2 ^ 28 := by
  rw [indexOf, BitVec.extractLsb'_toNat, Nat.shiftRight_zero]

/-- When a read is outside the interface of R52, in the fields of its address. -/
theorem access_rd_wf_eq_false {p : Params} {addr : Word} :
    Access.wf p (.rd addr) = false ↔ p.depth (spaceOf addr) ≤ indexOf addr := by
  simp [Access.wf, spaceOf_eq_div, indexOf_eq_mod]

/-- When a write is outside the interface of R52: the host writes spaces 0 and 1 only, the registers and VIN. -/
theorem access_wr_wf_eq_false {p : Params} {addr data : Word} :
    Access.wf p (.wr addr data) = false ↔ p.depth (spaceOf addr) ≤ indexOf addr ∨ 1 < spaceOf addr := by
  simp [Access.wf, spaceOf_eq_div, indexOf_eq_mod, imp_iff_not_or]

/-! ### Reads of a memory word -/

@[simp] theorem readOutcome_ok (w : Word) : readOutcome (.ok w) = .next w := rfl

@[simp] theorem readOutcome_error (f : Fault) : readOutcome (.error f) = .fault f := rfl

/-- A memory word is there or undefined; a read of it is never refused. -/
theorem readOutcome_ne_refused (x : Except Fault Word) (r : Refusal) : readOutcome x ≠ .refused r := by
  cases x <;> nofun

section
variable {s : State} {addr : Word}

theorem portRead_vin (hsp : spaceOf addr = 1) (hi : indexOf addr < s.params.nMax.toNat) :
    portRead s addr = readOutcome (s.vinWord (indexOf addr)) := by simp [portRead, hsp, hi]

theorem portRead_vout (hsp : spaceOf addr = 2) (hi : indexOf addr < s.params.nMax.toNat) :
    portRead s addr = readOutcome (s.voutWord (indexOf addr)) := by simp [portRead, hsp, hi]

theorem portRead_pbuf (hsp : spaceOf addr = 3) (hi : indexOf addr < s.params.pbufWords.toNat) :
    portRead s addr = readOutcome (s.pbufWord (indexOf addr)) := by simp [portRead, hsp, hi]

theorem portRead_ovt (hsp : spaceOf addr = 4) (hi : indexOf addr < s.params.ovtMax.toNat) :
    portRead s addr = readOutcome (s.ovtWord (indexOf addr)) := by simp [portRead, hsp, hi]

end

section
variable {s : State} {j : Nat}

/-- A read of VOUT answers exactly below N, with the word listed there (R67). -/
theorem State.voutWord_eq_ok {w : Word} : s.voutWord j = .ok w ↔ j < s.n.toNat ∧ s.vout.read j = some w := by
  unfold State.voutWord
  split
  · next h => cases hr : s.vout.read j <;> simp [h]
  · next h => simp [h]

theorem State.voutWord_of_undefined (h : s.n.toNat ≤ j ∨ s.vout.read j = none) :
    s.voutWord j = .error .voutUndefined := by
  obtain h | h := h
  · exact if_neg (by omega)
  · simp [State.voutWord, h]

theorem State.pbufWord_of_undefined (h : s.valid = false ∨ s.words.toNat ≤ j) :
    s.pbufWord j = .error .pbufUndefined :=
  if_neg fun ⟨hv, hj⟩ => h.elim (by simp [hv]) (by omega)

theorem State.ovtWord_of_undefined (h : s.valid = false ∨ s.ovtM.toNat ≤ j) :
    s.ovtWord j = .error .ovtUndefined :=
  if_neg fun ⟨hv, hj⟩ => h.elim (by simp [hv]) (by omega)

end

/-- Settles O53: inside its space a read answers `readOutcome` of the word, which is held exactly in the defined
range. -/
theorem memoryReadsReturnDefinedWords : Obligations.MemoryReadsReturnDefinedWords := by
  unfold Obligations.MemoryReadsReturnDefinedWords
  intro s i
  refine ⟨fun hi => ?_, fun hi => ?_, fun hi => ?_, fun hi => ?_⟩
  · rw [portRead_vin (by simp) (by simpa using hi), indexOf_append, State.vinWord]
    cases s.vin.read i.toNat <;> rfl
  · rw [portRead_vout (by simp) (by simpa using hi), indexOf_append]
    refine ⟨fun h => ?_, fun w hn hr => ?_⟩
    · rw [State.voutWord_of_undefined h, readOutcome_error]
    · rw [State.voutWord_eq_ok.2 ⟨hn, hr⟩, readOutcome_ok]
  · rw [portRead_pbuf (by simp) (by simpa using hi), indexOf_append]
    refine ⟨fun h => ?_, fun w hv hj hr => ?_⟩
    · rw [State.pbufWord_of_undefined h, readOutcome_error]
    · rw [State.pbufWord_eq_ok.2 ⟨⟨hv, hj⟩, hr⟩, readOutcome_ok]
  · rw [portRead_ovt (by simp) (by simpa using hi), indexOf_append]
    refine ⟨fun h => ?_, fun w hv hj hr => ?_⟩
    · rw [State.ovtWord_of_undefined h, readOutcome_error]
    · rw [State.ovtWord_eq_ok.2 ⟨⟨hv, hj⟩, hr⟩, readOutcome_ok]

/-! ### Refusals -/

theorem runCommand_ne_refused (s : State) (c : Word) (r : Refusal) : runCommand s c ≠ .refused r := by
  unfold runCommand
  cases decode c with
  | ok i => exact exec_ne_refused i s.startCommand r
  | error e => nofun

/-- A host write to a register of the map is never refused (10_state.md R35). -/
theorem writeReg_ne_refused (s : State) (reg : Reg) (data : Word) (r : Refusal) : writeReg s reg data ≠ .refused r := by
  cases reg with
  | cmd => exact runCommand_ne_refused s data r
  | _ => nofun

/-- A read or write guarded by a depth is refused exactly at or above it, when what it guards is not refused. -/
theorem guarded_refused_iff {α : Type} {i depth : Nat} {o : Host.Outcome α Fault Refusal}
    (ho : ∀ r, o ≠ .refused r) :
    (∃ r, (if i < depth then o else .refused .beyondDepth) = .refused r) ↔ depth ≤ i := by
  by_cases h : i < depth
  · simp [h, ho]
  · simp [h, Nat.le_of_not_lt h]

/-- A read is refused exactly at or above the depth of its space, which is 0 for a reserved space (R51, R52). -/
theorem portRead_refused_iff {s : State} {addr : Word} :
    (∃ r, portRead s addr = .refused r) ↔ s.params.depth (spaceOf addr) ≤ indexOf addr := by
  unfold portRead
  generalize spaceOf addr = space
  match space with
  | 0 =>
    show _ ↔ 0x14 ≤ _
    rw [← regAt_eq_none]
    cases h : regAt (indexOf addr) <;> simp [h]
  | 1 | 2 | 3 | 4 => exact guarded_refused_iff (readOutcome_ne_refused _)
  | _ + 5 => simp [Params.depth]

/-- A write is refused at or above the depth of its space, and in every space but 0 and 1 (R51, R52). -/
theorem portWrite_refused_iff {s : State} {addr data : Word} :
    Refuses (portWrite s addr data) ↔ s.params.depth (spaceOf addr) ≤ indexOf addr ∨ 1 < spaceOf addr := by
  unfold Refuses portWrite
  generalize spaceOf addr = space
  match space with
  | 0 =>
    show _ ↔ 0x14 ≤ _ ∨ _
    rw [← regAt_eq_none]
    cases h : regAt (indexOf addr) <;> simp [h, writeReg_ne_refused]
  | 1 =>
    rw [or_iff_left (by decide)]
    exact guarded_refused_iff (o := .next _) nofun
  | 2 | 3 | 4 | _ + 5 => simp

theorem hostRead_refused_iff {s : State} {addr : Word} :
    Refuses (hostRead s addr) ↔ ∃ r, portRead s addr = .refused r := by
  unfold Refuses hostRead
  cases portRead s addr <;> simp

/-- Settles O52: `portRead_refused_iff` for a read and `portWrite_refused_iff` for a write. -/
theorem accessRefusedExactlyOutsideInterface : Obligations.AccessRefusedExactlyOutsideInterface := by
  unfold Obligations.AccessRefusedExactlyOutsideInterface
  intro s a hb
  cases a with
  | rd addr => rw [access_rd_wf_eq_false, performAccess_rd_of_idle hb, hostRead_refused_iff, portRead_refused_iff]
  | wr addr data => rw [access_wr_wf_eq_false, performAccess_wr_of_idle hb, portWrite_refused_iff]

end Sys2Proof.Machine
end

section
/-! PROOFS. The decode order of a CMD word, and what a CMD write does with it (spec/30_encoding.md R71, R72). -/

namespace Sys2Proof

section
variable {c : Word}

/-- The MBZ check needs no look at the opcode (R72). -/
theorem decode_of_mbzField_ne_zero (hm : mbzField c ≠ 0) : decode c = .error .reservedBits := if_pos hm

theorem decode_of_mbzField_eq_zero_of_le (hm : mbzField c = 0) (hop : 0x10 ≤ (opcodeField c).toNat) :
    decode c = .error .reservedOpcode := by
  simp [decode, hm, instrOfOpcode_eq_none.2 hop]

theorem decode_of_mbzField_eq_zero_of_opcodeOf {i : Instr} (hm : mbzField c = 0) (hop : opcodeOf i = opcodeField c) :
    decode c = .ok i := by
  simp [decode, hm, instrOfOpcode_eq_some.2 hop.symm]

end

/-- Every opcode below 0x10 is that of a command (R73). -/
theorem exists_opcodeOf_eq {op : BitVec 5} (h : op.toNat < 0x10) : ∃ i, opcodeOf i = op := by
  cases hi : instrOfOpcode op with
  | some i => exact ⟨i, (instrOfOpcode_eq_some.1 hi).symm⟩
  | none => exact absurd (instrOfOpcode_eq_none.1 hi) (Nat.not_le_of_lt h)

end Sys2Proof

namespace Sys2Proof.Machine

section
variable {s : State} {c : Word}

theorem performAccess_wr_cmd (hb : s.busy = false) : performAccess s (.wr cmdAddr c) = runCommand s c := by
  rw [performAccess_wr_of_idle hb, portWrite_of_regAt_some (r := .cmd) (by decide) (by decide), writeReg]

theorem runCommand_of_decode_ok {i : Instr} (h : decode c = .ok i) : runCommand s c = exec i s.startCommand := by
  simp [runCommand, h]

/-- An illegal CMD word leaves the error report and nothing else, since BUSY is 0 again (R72; 60_exceptions.md R271). -/
theorem runCommand_of_decode_error {e : DecodeError} (h : decode c = .error e) :
    runCommand s c = .next (s.afterError (classOf (causeOfDecode e)) (causeOfDecode e)) := by
  simp [runCommand, h, failWith, State.raise, State.startCommand, State.afterError]

end

/-- Settles O2: one equation of `decode` per clause, carried through `runCommand`. -/
theorem cmdWriteDecodesInOrder : Obligations.CmdWriteDecodesInOrder := by
  unfold Obligations.CmdWriteDecodesInOrder
  intro s c hb
  have hrun : performAccess s (.wr 0x00000000#32 c) = runCommand s c := performAccess_wr_cmd hb
  rw [hrun]
  refine ⟨fun hm => ?_, fun hm hop => ?_, fun hm hop => ?_⟩
  · exact runCommand_of_decode_error (decode_of_mbzField_ne_zero hm)
  · exact runCommand_of_decode_error (decode_of_mbzField_eq_zero_of_le hm hop)
  · obtain ⟨i, hi⟩ := exists_opcodeOf_eq hop
    exact ⟨i, hi, runCommand_of_decode_ok (decode_of_mbzField_eq_zero_of_opcodeOf hm hi)⟩

end Sys2Proof.Machine
end

section
/-! PROOFS. The bit-utility commands, each by when its function is at most a given number: `f x ≤ w ↔ …` says
both that `f x` serves and that it is the least that does (spec/40_bitutil.md R100 to R107). -/

namespace Sys2Proof.Machine

/-! ### The least width, quotient and power, over `s32` -/

/-- `bitsReq` of a positive value is the smallest `w` with `v < 2^w` (R100). -/
theorem bitsReq_le_iff {v : Word} (h : 0 < v.s32) {w : Nat} : bitsReq v ≤ w ↔ v.s32 < 2 ^ w := by
  obtain ⟨hv, -⟩ := toNat_of_s32_pos h
  obtain ⟨hlt, hle⟩ := bitsReq_bounds h
  rw [hv]
  norm_cast
  constructor
  · intro hw
    exact hlt.trans_le (Nat.pow_le_pow_right (by decide) hw)
  · intro hw
    by_contra hc
    have : 2 ^ (w + 1) ≤ 2 ^ bitsReq v := Nat.pow_le_pow_right (by decide) (by omega)
    omega

/-- `ceilDiv_le_iff` over operands read as s32 (R104, R105). -/
theorem ceilDiv_toNat_le_iff {a b : Int} (hb : 0 < b) {q : Nat} : ceilDiv a.toNat b.toNat ≤ q ↔ a ≤ q * b := by
  rw [ceilDiv_le_iff (by omega), Int.toNat_le, Int.natCast_mul, Int.toNat_of_nonneg hb.le]

/-- `ceilLog2_le_iff` over an operand read as s32; a negative one counts as 0 (R106, R107). -/
theorem ceilLog2_toNat_le_iff {x : Int} {w : Nat} : ceilLog2 x.toNat ≤ w ↔ x ≤ 2 ^ w := by
  rw [ceilLog2_le_iff, Int.toNat_le]
  norm_cast

theorem mask_toNat_getLsbD {w : Int} {i : Nat} (hi : i < 32) :
    (mask w.toNat).getLsbD i = decide ((i : Int) < w) := by
  rw [mask_getLsbD, decide_eq_true hi, Bool.and_true, decide_eq_decide]
  exact Int.lt_toNat

/-! ### What each command answers -/

theorem exec_bitsReq (s : State) : exec .bitsReq s = .next (s.afterResult (BitVec.ofNat 32 (bitsReq s.arg0))) := rfl

theorem exec_ceilLog2 (s : State) :
    exec .ceilLog2 s = .next (s.afterResult (BitVec.ofNat 32 (ceilLog2 s.arg0.toInt.toNat))) := rfl

section
variable {s : State}

theorem exec_mask_of_neg (h : s.arg0.toInt < 0) :
    exec .mask s = .next (s.afterError .invalidArgument .argUtil) := if_pos h

theorem exec_mask_of_nonneg (h : 0 ≤ s.arg0.toInt) :
    exec .mask s = .next (s.afterResult (mask s.arg0.toInt.toNat)) := if_neg (Int.not_lt.2 h)

theorem exec_ceilDiv_of_invalid (h : s.arg0.toInt < 0 ∨ s.arg1.toInt ≤ 0) :
    exec .ceilDiv s = .next (s.afterError .invalidArgument .argUtil) := if_pos h

theorem exec_ceilDiv_of_valid (ha : 0 ≤ s.arg0.toInt) (hb : 0 < s.arg1.toInt) :
    exec .ceilDiv s =
      .next (s.afterResult (BitVec.ofNat 32 (ceilDiv s.arg0.toInt.toNat s.arg1.toInt.toNat))) :=
  if_neg (not_or.2 ⟨Int.not_lt.2 ha, Int.not_le.2 hb⟩)

end

/-! ### The obligations -/

/-- Settles O6: the width is `bitsReq`, the least by `bitsReq_le_iff` and within 1..31 by `bitsReq_range`. -/
theorem bitsReqGivesSmallestWidth : Obligations.BitsReqGivesSmallestWidth := by
  unfold Obligations.BitsReqGivesSmallestWidth
  refine ⟨by decide, fun s => ?_⟩
  obtain ⟨hlo, hhi⟩ := bitsReq_range s.arg0
  refine ⟨bitsReq s.arg0, exec_bitsReq s, hlo, hhi, bitsReq_nonpos, fun hpos => ?_⟩
  exact ⟨(bitsReq_le_iff hpos).1 le_rfl, fun w' hw' => (bitsReq_le_iff hpos).2 hw'⟩

/-- Settles O7: the sign of the width chooses the clause, and `mask_toNat_getLsbD` reads the bits. -/
theorem maskSetsLowBits : Obligations.MaskSetsLowBits := by
  unfold Obligations.MaskSetsLowBits
  refine ⟨by decide, fun s => ⟨exec_mask_of_neg, fun h => ?_⟩⟩
  exact ⟨mask s.arg0.toInt.toNat, exec_mask_of_nonneg h, fun i hi => mask_toNat_getLsbD hi⟩

/-- Settles O8: the quotient is `ceilDiv`, the least by `ceilDiv_toNat_le_iff` and no greater than the dividend. -/
theorem ceilDivGivesSmallestQuotient : Obligations.CeilDivGivesSmallestQuotient := by
  unfold Obligations.CeilDivGivesSmallestQuotient
  refine ⟨by decide, fun s => ⟨exec_ceilDiv_of_invalid, fun ha hb => ?_⟩⟩
  refine ⟨ceilDiv s.arg0.toInt.toNat s.arg1.toInt.toNat, exec_ceilDiv_of_valid ha hb, ?_, ?_, fun q' hq' => ?_⟩
  · have hself : ceilDiv s.arg0.toInt.toNat s.arg1.toInt.toNat ≤ s.arg0.toInt.toNat := ceilDiv_le_self (by omega)
    have : s.arg0.toInt < 2 ^ 31 := BitVec.toInt_lt
    omega
  · exact (ceilDiv_toNat_le_iff hb).1 le_rfl
  · exact (ceilDiv_toNat_le_iff hb).2 hq'

/-- Settles O9: `ceilLog2_toNat_le_iff` gives the bound 31, the value 0 for `x ≤ 1`, and the least power. -/
theorem ceilLog2GivesSmallestPower : Obligations.CeilLog2GivesSmallestPower := by
  unfold Obligations.CeilLog2GivesSmallestPower
  refine ⟨by decide, fun s => ⟨ceilLog2 s.arg0.toInt.toNat, exec_ceilLog2 s, ?_, fun hx => ?_, fun _ => ?_⟩⟩
  · exact ceilLog2_toNat_le_iff.2 BitVec.toInt_lt.le
  · exact Nat.le_zero.1 (ceilLog2_toNat_le_iff.2 hx)
  · exact ⟨ceilLog2_toNat_le_iff.1 le_rfl, fun w' hw' => ceilLog2_toNat_le_iff.2 hw'⟩

end Sys2Proof.Machine
end

section
/-! PROOFS. The commands SLOT_EXTRACT and SLOT_INSERT, bit by bit (spec/41_barrel.md R121 to R126). -/

namespace Sys2Proof.Machine

/-- The field test on exact numbers (R125). -/
theorem fieldOK_iff {off w : Nat} : fieldOK off w = true ↔ off ≤ 31 ∧ w ≤ 32 ∧ off + w ≤ 32 := by
  simp [fieldOK, and_assoc]

/-! ### What each command answers -/

section
variable {s : State}

theorem exec_slotExtract_of_fieldOK (h : fieldOK s.arg1.toNat s.arg2.toNat = true) :
    exec .slotExtract s = .next (s.afterResult (extract s.arg0 s.arg1.toNat s.arg2.toNat)) := if_pos h

theorem exec_slotExtract_of_not_fieldOK (h : ¬fieldOK s.arg1.toNat s.arg2.toNat = true) :
    exec .slotExtract s = .next (s.afterError .invalidArgument .argUtil) := if_neg h

theorem exec_slotInsert_of_fieldOK (h : fieldOK s.arg1.toNat s.arg2.toNat = true) :
    exec .slotInsert s = .next (s.afterResult (insertField s.arg0 s.arg1.toNat s.arg2.toNat s.arg3)) := if_pos h

theorem exec_slotInsert_of_not_fieldOK (h : ¬fieldOK s.arg1.toNat s.arg2.toNat = true) :
    exec .slotInsert s = .next (s.afterError .invalidArgument .argUtil) := if_neg h

end

/-! ### The obligations -/

/-- Settles O10: `fieldOK` chooses the clause, and `extract_getLsbD` reads the bits. -/
theorem slotExtractReadsField : Obligations.SlotExtractReadsField := by
  unfold Obligations.SlotExtractReadsField
  refine ⟨by decide, fun s => ?_⟩
  rw [← fieldOK_iff]
  refine ⟨fun h => ?_, exec_slotExtract_of_not_fieldOK⟩
  exact ⟨_, exec_slotExtract_of_fieldOK h, extract_getLsbD s.arg0 s.arg1.toNat s.arg2.toNat⟩

/-- Settles O11: `fieldOK` chooses the clause, and its bound on the sum lets `insertField_getLsbD` read the bits. -/
theorem slotInsertWritesField : Obligations.SlotInsertWritesField := by
  unfold Obligations.SlotInsertWritesField
  refine ⟨by decide, fun s => ?_⟩
  rw [← fieldOK_iff]
  refine ⟨fun h => ?_, exec_slotInsert_of_not_fieldOK⟩
  obtain ⟨-, -, hsum⟩ := fieldOK_iff.1 h
  exact ⟨_, exec_slotInsert_of_fieldOK h, insertField_getLsbD s.arg0 s.arg1.toNat s.arg2.toNat s.arg3 hsum⟩

end Sys2Proof.Machine
end

section
/-! PROOFS. The contract commands NOP, CFG and GET, and what a failed COMPRESS leaves (spec/42_contract.md R140 to
R143, R149, R151, R155, R156). -/

namespace Sys2Proof.Machine

/-! ### The operands of CFG -/

/-- The mode numbers from 6 on are reserved (30_encoding.md R78). -/
theorem modeOf_of_reserved {i : Nat} (h : 5 < i) : modeOf i = none := by
  obtain ⟨j, rfl⟩ := Nat.exists_eq_add_of_le' h
  rfl

/-- Every number up to 5 is that of a mode, the one `modeOf` answers (30_encoding.md R78). -/
theorem exists_modeOf_eq_some {i : Nat} (h : i ≤ 5) : ∃ mode, modeOf i = some mode ∧ (modeCode mode).toNat = i := by
  interval_cases i <;> exact ⟨_, rfl, rfl⟩

/-- The width test by the number of the mode: modes 0, 2 and 3 want a width of at least 1 (R142). -/
theorem kOK_iff {mode : Mode} {k : Nat} :
    kOK mode k = true ↔ k ≤ 32 ∧
      ((modeCode mode).toNat = 0 ∨ (modeCode mode).toNat = 2 ∨ (modeCode mode).toNat = 3 → 1 ≤ k) := by
  cases mode <;> simp [kOK, modeCode, and_comm]

/-- The crossing modes by their numbers (R143). -/
theorem crossOf_eq_decide (mode : Mode) :
    crossOf mode = decide ((modeCode mode).toNat = 1 ∨ (modeCode mode).toNat = 3 ∨ (modeCode mode).toNat = 5) := by
  cases mode <;> rfl

/-! ### What CFG answers, in the order of its tests -/

section
variable {s : State} {mode : Mode}

theorem exec_cfg_of_reserved_mode (hm : modeOf s.arg0.toNat = none) :
    exec .cfg s = .next (s.afterError .invalidArgument .argMode) := by
  simp only [exec, execCfg, State.argU32_arg0, hm]
  rfl

theorem exec_cfg_of_not_kOK (hm : modeOf s.arg0.toNat = some mode) (hk : kOK mode s.arg2.toNat = false) :
    exec .cfg s = .next (s.afterError .invalidArgument .argK) := by
  simp only [exec, execCfg, State.argU32_arg0, hm]
  exact if_pos hk

theorem exec_cfg_of_count_above (hm : modeOf s.arg0.toNat = some mode) (hk : kOK mode s.arg2.toNat = true)
    (hn : s.params.nMax.toNat < s.arg1.toNat) : exec .cfg s = .next (s.afterError .capacity .nCapacity) := by
  simp only [exec, execCfg, State.argU32_arg0, State.argU32_arg2, hm, hk]
  exact if_pos hn

theorem exec_cfg_of_valid (hm : modeOf s.arg0.toNat = some mode) (hk : kOK mode s.arg2.toNat = true)
    (hn : s.arg1.toNat ≤ s.params.nMax.toNat) :
    exec .cfg s = .next (s.construct mode s.arg1.toNat s.arg2.toNat).complete := by
  simp only [exec, execCfg, State.argU32_arg0, State.argU32_arg2, hm, hk]
  exact if_neg (Nat.not_lt.2 hn)

end

/-- Without an encoding and with nothing in VOUT every read inside the depth of VOUT, PBUF or OVT faults
(20_memory.md R66, R67). -/
theorem portRead_faults_of_nothing_defined {t : State} (hv : t.valid = false) (ho : t.vout = []) (i : BitVec 28) :
    (i.toNat < t.params.nMax.toNat → portRead t (0x2#4 ++ i) = .fault .voutUndefined) ∧
    (i.toNat < t.params.pbufWords.toNat → portRead t (0x3#4 ++ i) = .fault .pbufUndefined) ∧
    (i.toNat < t.params.ovtMax.toNat → portRead t (0x4#4 ++ i) = .fault .ovtUndefined) := by
  refine ⟨fun hi => ?_, fun hi => ?_, fun hi => ?_⟩
  · rw [portRead_vout (by simp) (by simpa using hi), State.voutWord_of_undefined (.inr (by simp [ho])), readOutcome_error]
  · rw [portRead_pbuf (by simp) (by simpa using hi), State.pbufWord_of_undefined (.inl hv), readOutcome_error]
  · rw [portRead_ovt (by simp) (by simpa using hi), State.ovtWord_of_undefined (.inl hv), readOutcome_error]

/-! ### What GET answers, in the order of its tests -/

section
variable {s : State}

/-- A codec command without an instance reports NOT_CONFIGURED (R149). -/
theorem requireConfigured_of_unconfigured (hc : s.configured = false)
    (run : State → Host.Outcome State Fault Refusal) :
    requireConfigured s run = .next (s.afterError .illegalCommand .notConfigured) := by
  simp only [requireConfigured, hc]
  rfl

/-- A codec command with an instance answers as its body (R149). -/
theorem requireConfigured_of_configured (hc : s.configured = true)
    (run : State → Host.Outcome State Fault Refusal) : requireConfigured s run = run s := if_pos hc

theorem exec_get_of_unconfigured (hc : s.configured = false) :
    exec .get s = .next (s.afterError .illegalCommand .notConfigured) := by
  rw [exec, execGet, requireConfigured_of_unconfigured hc]

theorem exec_get_of_index_above (hc : s.configured = true) (hi : s.n.toNat ≤ s.arg0.toNat) :
    exec .get s = .next (s.afterError .outOfRange .indexRange) := by
  rw [exec, execGet, requireConfigured_of_configured hc]
  exact if_pos hi

theorem exec_get_of_unencoded (hc : s.configured = true) (hi : s.arg0.toNat < s.n.toNat) (hv : s.valid = false) :
    exec .get s = .fault .getUnencoded := by
  rw [exec, execGet, requireConfigured_of_configured hc]
  exact (if_neg (Nat.not_le.2 hi)).trans (if_pos hv)

theorem exec_get_of_decodeAt_ok {v : Word} (hc : s.configured = true) (hi : s.arg0.toNat < s.n.toNat)
    (hv : s.valid = true) (hd : s.decodeAt s.arg0.toNat = .ok v) : exec .get s = .next (s.afterResult v) := by
  rw [exec, execGet, requireConfigured_of_configured hc]
  simp only [State.argU32_arg0, Nat.not_le.2 hi, hv, hd]
  rfl

end

/-! ### The obligations -/

/-- Settles O16: the number in ARG0 names a mode or is reserved, `kOK_iff` chooses between the second clause and the
rest, and the instance constructed has no word defined. -/
theorem cfgConstructsInstance : Obligations.CfgConstructsInstance := by
  unfold Obligations.CfgConstructsInstance
  refine ⟨by decide, fun s => ⟨fun h => ?_, fun h hk => ?_, fun h hk32 hk1 => ?_⟩⟩
  · exact exec_cfg_of_reserved_mode (modeOf_of_reserved h)
  · obtain ⟨mode, hm, hcode⟩ := exists_modeOf_eq_some h
    rw [← hcode, ← kOK_iff, Bool.not_eq_true] at hk
    exact exec_cfg_of_not_kOK hm hk
  · obtain ⟨mode, hm, hcode⟩ := exists_modeOf_eq_some h
    have hk : kOK mode s.arg2.toNat = true := kOK_iff.2 ⟨hk32, hcode ▸ hk1⟩
    refine ⟨exec_cfg_of_count_above hm hk, fun hn => ⟨_, exec_cfg_of_valid hm hk hn, hcode, ?_, ?_⟩⟩
    · rw [← hcode, ← crossOf_eq_decide, State.construct, BitVec.ofNat_toNat, BitVec.ofNat_toNat, BitVec.setWidth_eq]
      rfl
    · exact portRead_faults_of_nothing_defined (t := (s.construct mode _ _).complete) rfl rfl

/-- Settles O21: of the two outcomes of `execCompress_cases` the failed one has this form, and the other reports OK. -/
theorem failedCompressEffects : Obligations.FailedCompressEffects := by
  unfold Obligations.FailedCompressEffects
  intro s t h herr
  obtain ⟨c, -, rfl⟩ | ⟨vals, p, -, -, -, -, -, -, rfl⟩ := execCompress_cases h
  · rfl
  · exact absurd (State.complete_err (s.install p)) herr

/-- Settles O15: `execNop` is `State.complete`, which writes the report and BUSY. -/
theorem nopOnlyClearsReport : Obligations.NopOnlyClearsReport := by
  unfold Obligations.NopOnlyClearsReport
  exact ⟨by decide, fun _ => rfl⟩

/-- Settles O34: one equation of `exec .get` per clause. -/
theorem getReturnsDecodedValue : Obligations.GetReturnsDecodedValue := by
  unfold Obligations.GetReturnsDecodedValue
  refine ⟨by decide, fun s => ⟨fun hc => ?_, fun hc => ⟨?_, fun hi => ⟨?_, fun hv v => ?_⟩⟩⟩⟩
  · exact exec_get_of_unconfigured hc
  · exact exec_get_of_index_above hc
  · exact exec_get_of_unencoded hc hi
  · exact exec_get_of_decodeAt_ok hc hi hv

end Sys2Proof.Machine
end

section
/-! PROOFS. COMPRESS in mode 1: the slot width of the data, the registers, and PBUF (spec/44_contiguous.md R190 to
R193). -/

namespace Sys2Proof.Machine

/-! ### The slot width of the data -/

/-- The negative check of modes 1 to 5 over `s32` (42_contract.md R150). -/
theorem any_negative_eq_false_iff {vals : List Word} :
    vals.any Word.negative = false ↔ ∀ v ∈ vals, 0 ≤ v.toInt := by
  simp [List.any_eq_false, Word.negative, Word.s32]

/-- One bit less than `bitsReq` does not hold a positive value (R100). -/
theorem two_pow_bitsReq_sub_one_le {v : Word} (h : 0 < v.s32) : 2 ^ (bitsReq v - 1) ≤ v.toNat := by
  obtain ⟨hone, -⟩ := bitsReq_range v
  obtain ⟨-, hle⟩ := bitsReq_bounds h
  have hdouble : 2 * 2 ^ (bitsReq v - 1) = 2 ^ bitsReq v := by rw [← pow_succ', Nat.sub_add_cancel hone]
  omega

/-- The width of the data is the least from 1 on: some value needs all of it (R109, R190). -/
theorem dataBits_eq_one_or_exists_le (vals : List Word) :
    dataBits vals = 1 ∨ ∃ v ∈ vals, 2 ^ (dataBits vals - 1) ≤ v.toNat := by
  by_cases hpos : 0 < (maxVal vals).s32
  · have hne : vals ≠ [] := by
      rintro rfl
      exact absurd hpos (by decide)
    exact .inr ⟨maxVal vals, maxVal_mem hne, two_pow_bitsReq_sub_one_le hpos⟩
  · exact .inl (bitsReq_nonpos (Int.not_lt.1 hpos))

/-! ### The plan of mode 1 -/

theorem planContig_words (vals : List Word) : (planContig vals).words = (vals.length * dataBits vals + 31) / 32 :=
  ceilDiv_eq_div _ (by decide)

/-- The slots of mode 1 are the data's values from slot 0 on (R191, R193). -/
theorem planContig_writes (vals : List Word) :
    (planContig vals).writes = valueFields .contigClass (dataBits vals) 0 vals :=
  slotWrites_eq_valueFields .contigClass (dataBits vals) 0 vals

/-- In mode 1 a COMPRESS with the right length, values that are written and not negative, and enough PBUF installs
the mode's plan (R192; 42_contract.md R150). -/
theorem exec_compress_crossing {s : State} {vals : List Word} (hc : s.configured = true) (hm : s.mode = .crossing)
    (hl : s.arg0 = s.n) (hv : s.inputs = some vals) (hn : vals.any Word.negative = false)
    (hw : (planContig vals).words ≤ s.params.pbufWords.toNat) :
    exec .compress s = .next (s.install (planContig vals)).complete :=
  execCompress_of_plan hc (by rw [hl]) hv (.inr hn) (by rw [hm, plan]) hw

/-- WORDS and HBITS of a plan that fits PBUF do not wrap, PBUF_WORDS being below 2^27 (00_scope.md R13). -/
theorem Plan.size_lt_of_le_pbufWords {p : Plan} {params : Params} {vals : List Word} (hp : p.Good params vals)
    (hw : p.words ≤ params.pbufWords.toNat) : p.words < 2 ^ 32 ∧ p.hbits < 2 ^ 32 := by
  have hpbuf : params.pbufWords.toNat < 2 ^ 27 := params.pbufWords.isLt
  have hbits := hp.hbits_le
  omega

/-- Settles O23: the width is `dataBits`, the least by `dataBits_eq_one_or_exists_le`; the plan of mode 1 fits the
registers because its words fit PBUF, and leaves exactly the slots of the values. -/
theorem contiguousCompressRegisters : Obligations.ContiguousCompressRegisters := by
  unfold Obligations.ContiguousCompressRegisters
  intro s vals hc hm hl hlen hread hnonneg
  have hn : vals.any Word.negative = false := any_negative_eq_false_iff.2 hnonneg
  obtain ⟨hlo, hhi⟩ : 1 ≤ dataBits vals ∧ dataBits vals ≤ 31 := bitsReq_range (maxVal vals)
  refine ⟨dataBits vals, hlo, hhi, fun v => lt_two_pow_dataBits hn, dataBits_eq_one_or_exists_le vals, fun hfit => ?_⟩
  rw [← hlen, ← planContig_words] at hfit ⊢
  have hgood : (planContig vals).Good s.params vals := planContig_good vals
  obtain ⟨hwords, hhbits⟩ := Plan.size_lt_of_le_pbufWords hgood hfit
  have hpacks := Plan.packsExactly_install s (planContig vals) hgood.placeable hwords
  rw [planContig_writes] at hpacks
  refine ⟨(s.install (planContig vals)).complete,
    exec_compress_crossing hc hm hl (State.inputs_eq_some.2 ⟨hlen, hread⟩) hn hfit, rfl, rfl, ?_, rfl, rfl, ?_, ?_,
    rfl, rfl, rfl, rfl, hpacks⟩
  · exact Nat.mod_eq_of_lt (show dataBits vals < 2 ^ 6 by omega)
  · exact Nat.mod_eq_of_lt hwords
  · exact Nat.mod_eq_of_lt hhbits

end Sys2Proof.Machine
end

section
/-! PROOFS. COMPRESS in modes 2 and 3: the capacity checks, the table, the registers, and PBUF field by field
(spec/45_overflow.md R210 to R219). -/

namespace Sys2Proof.Machine

/-! ### Lists of fields by the bits they set -/

/-- The field puts the bit `x` at bit `p` of the buffer. -/
def FieldWrite.Sets (f : FieldWrite) (p : Nat) (x : Bool) : Prop :=
  ∃ b < f.width, f.pos + b = p ∧ f.value.getLsbD b = x

theorem FieldWrite.covers_iff_exists_sets {f : FieldWrite} {p : Nat} : f.covers p ↔ ∃ x, f.Sets p x := by
  constructor
  · rintro ⟨hlo, hhi⟩
    exact ⟨_, p - f.pos, by omega, by omega, rfl⟩
  · rintro ⟨-, b, hb, rfl, -⟩
    exact ⟨by omega, by omega⟩

/-- What a buffer packs is a matter of the bits the fields set, however these are grouped into fields. -/
theorem State.PacksExactly.congr {s : State} {fs gs : List FieldWrite} (hfs : s.PacksExactly fs)
    (h : ∀ p x, (∃ f ∈ fs, f.Sets p x) ↔ ∃ g ∈ gs, g.Sets p x) : s.PacksExactly gs := by
  obtain ⟨hin, hout⟩ := hfs
  refine ⟨fun g hg b hb => ?_, fun p hp hnone => hout p hp fun f hf hc => ?_⟩
  · obtain ⟨f, hf, c, hc, hpos, hval⟩ := (h (g.pos + b) (g.value.getLsbD b)).2 ⟨g, hg, b, hb, rfl, rfl⟩
    rw [← hpos, hin f hf c hc, hval]
  · obtain ⟨x, hx⟩ := FieldWrite.covers_iff_exists_sets.1 hc
    obtain ⟨g, hg, hgx⟩ := (h p x).1 ⟨f, hf, hx⟩
    exact hnone g hg (FieldWrite.covers_iff_exists_sets.2 ⟨x, hgx⟩)

/-! ### A two-tier slot as its tag and its payload -/

section
variable (payload : Word) (tag : Bool)

/-- The tag is bit 0 of a slot (R210). -/
theorem slot_getLsbD_zero : (shl32 payload 1 ||| BitVec.ofNat 32 tag.toNat).getLsbD 0 = tag := by
  cases tag <;> simp [shl32]

/-- The payload lies above the tag (R210). -/
theorem slot_getLsbD_succ {b : Nat} (hb : b + 1 < 32) :
    (shl32 payload 1 ||| BitVec.ofNat 32 tag.toNat).getLsbD (b + 1) = payload.getLsbD b := by
  cases tag <;> simp [shl32, hb, BitVec.getLsbD_eq_getElem (show b < 32 by omega)]

/-- A slot of width `w` sets the bits of its tag and of the low `w - 1` bits of its payload (R210). -/
theorem sets_slot_iff {pos w : Nat} (h1 : 1 ≤ w) (h2 : w ≤ 32) {p : Nat} {x : Bool} :
    FieldWrite.Sets ⟨pos, w, shl32 (payload &&& mask (w - 1)) 1 ||| BitVec.ofNat 32 tag.toNat⟩ p x ↔
      FieldWrite.Sets ⟨pos, 1, BitVec.ofNat 32 tag.toNat⟩ p x ∨ FieldWrite.Sets ⟨pos + 1, w - 1, payload⟩ p x := by
  have htag : (BitVec.ofNat 32 tag.toNat).getLsbD 0 = tag := by cases tag <;> rfl
  have hpayload : ∀ b < w - 1, (payload &&& mask (w - 1)).getLsbD b = payload.getLsbD b := fun b hb => by
    simp [mask_getLsbD, hb, show b < 32 by omega]
  constructor
  · rintro ⟨_ | b, hb, rfl, rfl⟩
    · exact .inl ⟨0, Nat.one_pos, rfl, by rw [slot_getLsbD_zero, htag]⟩
    · have hb : b < w - 1 := Nat.lt_sub_of_add_lt hb
      exact .inr ⟨b, hb, Nat.add_right_comm pos 1 b, by rw [slot_getLsbD_succ _ _ (by omega), hpayload b hb]⟩
  · rintro (⟨b, hb, rfl, rfl⟩ | ⟨b, hb, rfl, rfl⟩)
    · obtain rfl : b = 0 := Nat.lt_one_iff.1 hb
      exact ⟨0, h1, rfl, by rw [slot_getLsbD_zero, htag]⟩
    · have hb : b < w - 1 := hb
      exact ⟨b + 1, Nat.add_lt_of_lt_sub hb, (Nat.add_right_comm pos 1 b).symm,
        by rw [slot_getLsbD_succ _ _ (by omega), hpayload b hb]⟩

end

/-! ### The slots of the fixed split -/

/-- The slot of the value `v` at place `i` of the input (R212, R213). -/
def fixedSlot (dedup : Bool) (bb : Nat) (vals : List Word) (i : Nat) (v : Word) : Word :=
  if 2 ^ bb ≤ v.toNat then slotLarge bb (entryOf dedup bb vals i v) else slotSmall bb v

/-- The fixed split leaves one slot for each value (R214). -/
theorem splitFixed_slots (dedup : Bool) (bb : Nat) (vals : List Word) :
    (splitFixed dedup bb [] vals).1 = vals.mapIdx (fixedSlot dedup bb vals) := by
  obtain ⟨-, hlen, hslot⟩ := splitFixed_spec dedup bb [] vals
  refine List.ext_getElem? fun i => ?_
  rw [List.getElem?_mapIdx]
  cases hv : vals[i]? with
  | none => simpa [hlen] using hv
  | some v =>
    by_cases hlarge : 2 ^ bb ≤ v.toNat
    · rw [splitFixed_index dedup bb [] vals hv hlarge, splitFixed_table]
      cases dedup <;> simp [fixedSlot, entryOf, hlarge]
    · obtain ⟨-, hsmall⟩ | ⟨hge, -⟩ := hslot i v hv
      · simp [hsmall, fixedSlot, hlarge]
      · exact absurd hge hlarge

/-- The slot of a value sets the bits of its two fields in `headerFields` (R210, R212, R213). -/
theorem sets_fixedSlot_iff {dedup : Bool} {vals : List Word} {i pos k : Nat} {v : Word} (h1 : 1 ≤ k) (h2 : k ≤ 32)
    {p : Nat} {x : Bool} :
    FieldWrite.Sets ⟨pos, k, fixedSlot dedup (k - 1) vals i v⟩ p x ↔
      FieldWrite.Sets ⟨pos, 1, if 2 ^ (k - 1) ≤ v.toNat then 1 else 0⟩ p x ∨
      FieldWrite.Sets ⟨pos + 1, k - 1,
        if 2 ^ (k - 1) ≤ v.toNat then BitVec.ofNat 32 (entryOf dedup (k - 1) vals i v) else v⟩ p x := by
  unfold fixedSlot
  split
  · rw [slotLarge_eq, sets_slot_iff _ _ h1 h2]
    rfl
  · rw [slotSmall_eq, sets_slot_iff _ _ h1 h2]
    rfl

theorem exists_mem_valueFields_iff {cls : LayoutClass} {w : Nat} {vs : List Word} {P : FieldWrite → Prop} :
    (∃ f ∈ valueFields cls w 0 vs, P f) ↔ ∃ i v, vs[i]? = some v ∧ P ⟨slotPos cls i w, w, v⟩ := by
  simp only [← slotWrites_eq_valueFields, mem_slotWrites, Nat.zero_add]
  constructor
  · rintro ⟨-, ⟨i, v, hv, rfl⟩, hP⟩
    exact ⟨i, v, hv, hP⟩
  · rintro ⟨i, v, hv, hP⟩
    exact ⟨_, ⟨i, v, hv, rfl⟩, hP⟩

/-- The slots of the fixed split set the bits of the tags and payloads of the values (R210). -/
theorem exists_fixedSlot_sets_iff {cls : LayoutClass} {dedup : Bool} {vals : List Word} {k : Nat} (h1 : 1 ≤ k)
    (h2 : k ≤ 32) {p : Nat} {x : Bool} :
    (∃ f ∈ valueFields cls k 0 (vals.mapIdx (fixedSlot dedup (k - 1) vals)), f.Sets p x) ↔
      ∃ f ∈ headerFields cls k (k - 1) dedup vals, f.Sets p x := by
  rw [exists_mem_valueFields_iff]
  constructor
  · rintro ⟨i, slot, hslot, hsets⟩
    obtain ⟨v, hv, rfl⟩ : ∃ v, vals[i]? = some v ∧ fixedSlot dedup (k - 1) vals i v = slot := by
      rwa [List.getElem?_mapIdx, Option.map_eq_some_iff] at hslot
    obtain htag | hpayload := (sets_fixedSlot_iff h1 h2).1 hsets
    · exact ⟨_, mem_headerFields.2 ⟨i, v, hv, .inl rfl⟩, htag⟩
    · exact ⟨_, mem_headerFields.2 ⟨i, v, hv, .inr rfl⟩, hpayload⟩
  · rintro ⟨f, hf, hsets⟩
    obtain ⟨i, v, hv, hfield⟩ := mem_headerFields.1 hf
    refine ⟨i, _, by rw [List.getElem?_mapIdx, hv, Option.map_some], (sets_fixedSlot_iff h1 h2).2 ?_⟩
    obtain rfl | rfl := hfield
    · exact .inl hsets
    · exact .inr hsets

/-! ### The plan of modes 2 and 3 -/

/-- The plan of modes 2 and 3 when the table fits (R218, R219). -/
def fixedPlan (params : Params) (cls : LayoutClass) (cross : Bool) (k : Nat) (vals : List Word) : Plan :=
  let table := tableOf params.ovfDedup (k - 1) vals
  { words := slotWords cls (vals.length + table.length) k
    k := k, cross := cross, deleg := false, table := table
    smallW := k - 1, idxW := k - 1, ew := k
    hbits := slotPos cls vals.length k
    writes := valueFields cls k 0 (vals.mapIdx (fixedSlot params.ovfDedup (k - 1) vals)) ++
      valueFields cls k vals.length table }

/-- The checks of R216 and R217, then the plan. -/
theorem planFixed_eq (params : Params) (cls : LayoutClass) (cross : Bool) (k : Nat) (vals : List Word) :
    planFixed params cls cross k vals =
      if 2 ^ (k - 1) < (tableOf params.ovfDedup (k - 1) vals).length then .error .idxCapacity
      else if params.ovtMax.toNat < (tableOf params.ovfDedup (k - 1) vals).length then .error .ovtFull
      else .ok (fixedPlan params cls cross k vals) := by
  simp only [planFixed, splitFixed_table, splitFixed_slots, slotWrites_eq_valueFields, fixedPlan]

/-- Modes 2 and 3 have one plan, placed by the class of the mode (R218). -/
theorem plan_of_fixedSplit {params : Params} {mode : Mode} {cls : LayoutClass} {k : Nat} {vals : List Word}
    (hm : (mode = .overflowNoCrossing ∧ cls = .alignedClass) ∨ (mode = .overflowCrossing ∧ cls = .contigClass)) :
    plan params mode k vals = planFixed params cls (decide (mode = .overflowCrossing)) k vals := by
  obtain ⟨rfl, rfl⟩ | ⟨rfl, rfl⟩ := hm <;> rfl

theorem slotWords_alignedClass (slots : Nat) {k : Nat} (h1 : 1 ≤ k) (h2 : k ≤ 32) :
    slotWords .alignedClass slots k = (slots + 32 / k - 1) / (32 / k) := ceilDiv_eq_div slots (vpw_pos h1 h2)

theorem slotWords_contigClass (slots k : Nat) : slotWords .contigClass slots k = (slots * k + 31) / 32 :=
  ceilDiv_eq_div _ (by decide)

/-- PBUF after a COMPRESS of modes 2 and 3 (R219). -/
theorem packsExactly_install_fixedPlan (s : State) {params : Params} {cls : LayoutClass} {cross : Bool} {k : Nat}
    {vals : List Word} (h1 : 1 ≤ k) (h2 : k ≤ 32) (hp : (fixedPlan params cls cross k vals).Placeable)
    (hw : (fixedPlan params cls cross k vals).words < 2 ^ 32) :
    (s.install (fixedPlan params cls cross k vals)).PacksExactly
      (headerFields cls k (k - 1) params.ovfDedup vals ++
        valueFields cls k vals.length (tableOf params.ovfDedup (k - 1) vals)) := by
  refine (Plan.packsExactly_install s _ hp hw).congr fun p x => ?_
  simp only [fixedPlan, List.mem_append, or_and_right, exists_or, exists_fixedSlot_sets_iff h1 h2]

/-! ### COMPRESS -/

/-- COMPRESS fails with the cause of its plan when its length and values pass (42_contract.md R150, R151). -/
theorem execCompress_of_plan_error {s : State} {vals : List Word} {c : Cause} (hc : s.configured = true)
    (hl : s.arg0 = s.n) (hv : s.inputs = some vals) (hn : s.mode = .noCrossing ∨ vals.any Word.negative = false)
    (hp : plan s.params s.mode s.k.toNat vals = .error c) :
    exec .compress s = .next (s.afterFailedCompress (classOf c) c) := by
  have hneg : ¬(s.mode ≠ .noCrossing ∧ vals.any Word.negative = true) := by
    obtain h | h := hn <;> simp [h]
  simp only [exec, execCompress, hc, Bool.true_eq_false, State.argU32_arg0, hl, ne_eq, not_true_eq_false, if_false, hv,
    compressValues]
  rw [if_neg hneg, hp]
  rfl

/-- Only the report without a cause is OK (60_exceptions.md R270). -/
theorem classOf_eq_ok_iff {c : Cause} : classOf c = .ok ↔ c = .noCause := by
  cases c <;> decide

/-- A COMPRESS that reports OK has installed the plan of the values it read (42_contract.md R150). -/
theorem execCompress_ok {s t : State} {vals : List Word} (hlen : vals.length = s.n.toNat)
    (hread : ∀ i < s.n.toNat, s.vin.read i = vals[i]?) (h : exec .compress s = .next t) (hok : t.err = .ok) :
    ∃ p, plan s.params s.mode s.k.toNat vals = .ok p ∧ p.words ≤ s.params.pbufWords.toNat ∧
      t = (s.install p).complete := by
  obtain ⟨c, hne, rfl⟩ | ⟨us, p, -, -, hus, -, hp, hw, rfl⟩ := execCompress_cases h
  · exact absurd (classOf_eq_ok_iff.1 hok) hne
  · obtain rfl : us = vals := Option.some.inj (hus.symm.trans (State.inputs_eq_some.2 ⟨hlen, hread⟩))
    exact ⟨p, hp, hw, rfl⟩

/-- Settles O24: `planFixed_eq` makes the two checks in their order, and `slotWords` is the count the mode's premise
bounds. -/
theorem fixedSplitChecksCapacity : Obligations.FixedSplitChecksCapacity := by
  unfold Obligations.FixedSplitChecksCapacity
  intro s vals hc hmode hl hlen hread hnonneg
  have hv : s.inputs = some vals := State.inputs_eq_some.2 ⟨hlen, hread⟩
  have hn : s.mode = .noCrossing ∨ vals.any Word.negative = false := .inr (any_negative_eq_false_iff.2 hnonneg)
  obtain ⟨cls, hm⟩ : ∃ cls : LayoutClass, (s.mode = .overflowNoCrossing ∧ cls = .alignedClass) ∨
      (s.mode = .overflowCrossing ∧ cls = .contigClass) := by
    obtain h | h := hmode
    · exact ⟨_, .inl ⟨h, rfl⟩⟩
    · exact ⟨_, .inr ⟨h, rfl⟩⟩
  have hplan := (plan_of_fixedSplit (params := s.params) (k := s.k.toNat) (vals := vals) hm).trans (planFixed_eq ..)
  refine ⟨fun hidx => ?_, fun hidx => ⟨fun hovt => ?_, fun hovt h1 h2 haligned hcontig => ?_⟩⟩
  · rw [if_pos hidx] at hplan
    exact execCompress_of_plan_error hc hl hv hn hplan
  · rw [if_neg (Nat.not_lt.2 hidx), if_pos hovt] at hplan
    exact execCompress_of_plan_error hc hl hv hn hplan
  · rw [if_neg (Nat.not_lt.2 hidx), if_neg (Nat.not_lt.2 hovt)] at hplan
    refine ⟨_, execCompress_of_plan hc (by rw [hl]) hv hn hplan ?_, rfl, rfl, rfl⟩
    rw [fixedPlan, hlen]
    obtain ⟨h, rfl⟩ | ⟨h, rfl⟩ := hm
    · exact (slotWords_alignedClass _ h1 h2).trans_le (haligned h)
    · exact (slotWords_contigClass _ _).trans_le (hcontig h)

/-- Settles O25: a COMPRESS that reports OK has installed `fixedPlan`, whose numbers fit their registers since its
words fit PBUF; PBUF is `packsExactly_install_fixedPlan`. -/
theorem fixedSplitRegistersAndTable : Obligations.FixedSplitRegistersAndTable := by
  unfold Obligations.FixedSplitRegistersAndTable
  intro s t vals cls _ hm h1 h2 _ hlen hread hexec hok
  obtain ⟨p, hp, hw, rfl⟩ := execCompress_ok hlen hread hexec hok
  rw [plan_of_fixedSplit hm] at hp
  have hgood : p.Good s.params vals := planFixed_good h1 h2 hp
  obtain ⟨hwords, hhbits⟩ := Plan.size_lt_of_le_pbufWords hgood hw
  have htable : p.table.length < 2 ^ 32 := hgood.table_le.trans_lt s.params.ovtMax.isLt
  obtain rfl : p = fixedPlan s.params cls (decide (s.mode = .overflowCrossing)) s.k.toNat vals := by
    rw [planFixed_eq] at hp
    split at hp
    · cases hp
    · split at hp
      · cases hp
      · exact (Except.ok.inj hp).symm
  have hovtM : (s.install (fixedPlan s.params cls (decide (s.mode = .overflowCrossing)) s.k.toNat vals)).ovtM.toNat =
      (tableOf s.params.ovfDedup (s.k.toNat - 1) vals).length := Nat.mod_eq_of_lt htable
  have hsplit : (BitVec.ofNat 6 (s.k.toNat - 1)).toNat = s.k.toNat - 1 :=
    Nat.mod_eq_of_lt (show s.k.toNat - 1 < 2 ^ 6 by omega)
  have hk : BitVec.ofNat 6 s.k.toNat = s.k := by simp
  have htab : ∀ j, (Memory.ofWordsFrom 0 (tableOf s.params.ovfDedup (s.k.toNat - 1) vals)).read j =
      (tableOf s.params.ovfDedup (s.k.toNat - 1) vals)[j]? := fun j => by simp [Memory.read_ofWordsFrom]
  have hpacks := packsExactly_install_fixedPlan s h1 h2 hgood.placeable hwords
  rw [hlen] at hpacks
  refine ⟨rfl, rfl, hk, hsplit, hsplit, hk, rfl, hovtM, htab, fun h => ?_, fun h => ?_, hpacks⟩
  · obtain rfl : cls = .alignedClass := by simpa [h] using hm
    rw [State.complete_ovtM, hovtM, ← hlen, ← slotWords_alignedClass _ h1 h2]
    exact ⟨Nat.mod_eq_of_lt hwords, Nat.mod_eq_of_lt hhbits⟩
  · obtain rfl : cls = .contigClass := by simpa [h] using hm
    rw [State.complete_ovtM, hovtM, ← hlen, ← slotWords_contigClass]
    exact ⟨Nat.mod_eq_of_lt hwords, Nat.mod_eq_of_lt hhbits⟩

end Sys2Proof.Machine
end

section
/-! PROOFS. The search of modes 4 and 5: the candidate it keeps, and a COMPRESS that delegates (spec/46_search.md R246,
R247). -/

namespace Sys2Proof.Machine

/-! ### The candidate kept -/

/-- The newer candidate is kept exactly when it is the first one or cheaper than the best so far (R246). -/
theorem better_eq_some_iff {best : Option Candidate} {c d : Candidate} :
    better best c = some d ↔
      (d = c ∧ ∀ b, best = some b → c.cost < b.cost) ∨ (best = some d ∧ d.cost ≤ c.cost) := by
  cases best with
  | none => simp [better, eq_comm]
  | some b =>
    by_cases hlt : c.cost < b.cost
    · have hdropped : d = b → d.cost ≤ c.cost → c = d := fun h hle => absurd hlt (Nat.not_lt.2 (h ▸ hle))
      simpa [better, hlt, eq_comm] using hdropped
    · have hkept : b = d → d.cost ≤ c.cost := fun h => h ▸ Nat.not_lt.1 hlt
      simpa [better, hlt] using hkept

/-- With a candidate to try, one is kept (R246). -/
theorem exists_bestUpTo_eq_some (cls : LayoutClass) (vals : List Word) {upTo : Nat} (h : 1 ≤ upTo) :
    ∃ c, bestUpTo cls vals upTo = some c := by
  obtain ⟨prev, rfl⟩ := Nat.exists_eq_add_of_le' h
  rw [bestUpTo]
  cases bestUpTo cls vals prev with
  | none => exact ⟨_, rfl⟩
  | some best =>
    by_cases hlt : (candidate cls vals (prev + 1)).cost < best.cost
    · exact ⟨_, if_pos hlt⟩
    · exact ⟨_, if_neg hlt⟩

/-- The candidate kept is the first of the cheapest ones tried (R246). -/
theorem bestUpTo_cheapest {cls : LayoutClass} {vals : List Word} {upTo : Nat} {c : Candidate}
    (h : bestUpTo cls vals upTo = some c) :
    ∃ bb, 1 ≤ bb ∧ bb ≤ upTo ∧ c = candidate cls vals bb ∧
      (∀ b, 1 ≤ b → b ≤ upTo → c.cost ≤ (candidate cls vals b).cost) ∧
      ∀ b, 1 ≤ b → b < bb → c.cost < (candidate cls vals b).cost := by
  induction upTo generalizing c with
  | zero => cases h
  | succ upTo ih =>
    obtain ⟨rfl, hcheaper⟩ | ⟨hbest, hkept⟩ := better_eq_some_iff.1 h
    · have hall : ∀ b, 1 ≤ b → b ≤ upTo → (candidate cls vals (upTo + 1)).cost < (candidate cls vals b).cost := by
        intro b h1 h2
        obtain ⟨best, hbest⟩ := exists_bestUpTo_eq_some cls vals (h1.trans h2)
        obtain ⟨-, -, -, -, hle, -⟩ := ih hbest
        exact (hcheaper best hbest).trans_le (hle b h1 h2)
      refine ⟨upTo + 1, Nat.le_add_left 1 upTo, le_rfl, rfl, fun b h1 h2 => ?_,
        fun b h1 h2 => hall b h1 (Nat.le_of_lt_succ h2)⟩
      obtain h2 | rfl := Nat.le_succ_iff.1 h2
      · exact (hall b h1 h2).le
      · exact le_rfl
    · obtain ⟨bb, h1, h2, hc, hle, hlt⟩ := ih hbest
      refine ⟨bb, h1, Nat.le_succ_of_le h2, hc, fun b h1 h2 => ?_, hlt⟩
      obtain h2 | rfl := Nat.le_succ_iff.1 h2
      · exact hle b h1 h2
      · exact hkept

/-- The best candidate is selected exactly when it beats the plain cost (R246). -/
theorem selectSplit_eq_some_iff {cls : LayoutClass} {vals : List Word} {c : Candidate} :
    selectSplit cls vals = some c ↔
      bestUpTo cls vals (dataBits vals - 1) = some c ∧ c.cost < vals.length * dataBits vals := by
  rw [selectSplit]
  cases bestUpTo cls vals (dataBits vals - 1) with
  | none => simp
  | some best =>
    simp only [Option.some.injEq]
    split
    · next hplain =>
      simp only [reduceCtorEq, false_iff, not_and]
      rintro rfl
      exact Nat.not_lt.2 hplain
    · next hbeats =>
      constructor
      · intro h
        cases h
        exact ⟨rfl, Nat.not_le.1 hbeats⟩
      · rintro ⟨rfl, -⟩
        rfl

/-- Settles O26: a selected candidate is the best one by `bestUpTo_cheapest`; when none is selected the best one does
not beat the plain cost, so no candidate does. -/
theorem searchKeepsCheapestSplit : Obligations.SearchKeepsCheapestSplit := by
  unfold Obligations.SearchKeepsCheapestSplit
  intro cls vals
  refine ⟨fun c hc => ?_, fun hnone b h1 h2 => ?_⟩
  · obtain ⟨hbest, hplain⟩ := selectSplit_eq_some_iff.1 hc
    obtain ⟨bb, h1, h2, hcand, hle, hlt⟩ := bestUpTo_cheapest hbest
    exact ⟨bb, h1, by omega, hcand, hplain, fun b h1 h2 => hle b h1 (Nat.le_sub_one_of_lt h2), hlt⟩
  · obtain ⟨best, hbest⟩ := exists_bestUpTo_eq_some cls vals (h1.trans (Nat.le_sub_one_of_lt h2))
    obtain ⟨-, -, -, -, hle, -⟩ := bestUpTo_cheapest hbest
    have hplain : ¬best.cost < vals.length * dataBits vals := fun hlt => by
      rw [selectSplit_eq_some_iff.2 ⟨hbest, hlt⟩] at hnone
      cases hnone
    exact (Nat.not_lt.1 hplain).trans (hle b h1 (Nat.le_sub_one_of_lt h2))

/-! ### The plan of modes 4 and 5 -/

/-- Modes 4 and 5 have one plan, placed by the class of the mode (R240). -/
theorem plan_of_search {params : Params} {mode : Mode} {cls : LayoutClass} {k : Nat} {vals : List Word}
    (hm : (mode = .searchNoCrossing ∧ cls = .alignedClass) ∨ (mode = .searchCrossing ∧ cls = .contigClass)) :
    plan params mode k vals = planSearch params cls (decide (mode = .searchCrossing)) vals := by
  obtain ⟨rfl, rfl⟩ | ⟨rfl, rfl⟩ := hm <;> rfl

theorem planSearch_of_selectSplit_none {params : Params} {cls : LayoutClass} {cross : Bool} {vals : List Word}
    (h : selectSplit cls vals = none) : planSearch params cls cross vals = .ok (planDelegated vals) :=
  planSearch_eq_ok.2 (.inl ⟨h, rfl⟩)

/-! ### Delegation -/

/-- Settles O29: the COMPRESS of mode 1 that reports OK has installed `planContig`, and the delegated one installs
`planDelegated`, which differs in DELEG alone. -/
theorem delegationEncodesAsContiguous : Obligations.DelegationEncodesAsContiguous := by
  unfold Obligations.DelegationEncodesAsContiguous
  intro s u vals cls hm hlen hread hnone hexec hok
  obtain ⟨c, hne, rfl⟩ | ⟨us, p, hc, hl, hus, hneg, hp, hw, rfl⟩ := execCompress_cases hexec
  · exact absurd (classOf_eq_ok_iff.1 hok) hne
  have hv : s.inputs = some vals := State.inputs_eq_some.2 ⟨hlen, hread⟩
  obtain rfl : us = vals := Option.some.inj (hus.symm.trans hv)
  obtain rfl : planContig us = p := Except.ok.inj hp
  have hnonneg : us.any Word.negative = false := hneg.resolve_left Mode.noConfusion
  have hplan : plan s.params s.mode s.k.toNat us = .ok (planDelegated us) :=
    (plan_of_search hm).trans (planSearch_of_selectSplit_none hnone)
  refine ⟨execCompress_of_plan (s := s) hc hl hv (.inr hnonneg) hplan hw, ?_, rfl, rfl, rfl, rfl, rfl⟩
  obtain ⟨hmode, -⟩ | ⟨hmode, -⟩ := hm <;> rw [hmode] <;> rfl

end Sys2Proof.Machine
end

section
/-! PROOFS. A COMPRESS in modes 4 and 5 that keeps a split: the capacity of the table, the registers, and PBUF field by
field (spec/46_search.md R248 to R252). -/

namespace Sys2Proof.Machine

/-! ### The slots of the search -/

/-- What a field sets depends on the bits of its value below its width. -/
theorem FieldWrite.sets_congr {pos w : Nat} {u v : Word} (h : ∀ b < w, u.getLsbD b = v.getLsbD b) {p : Nat} {x : Bool} :
    FieldWrite.Sets ⟨pos, w, u⟩ p x ↔ FieldWrite.Sets ⟨pos, w, v⟩ p x :=
  exists_congr fun b => and_congr_right fun hb => by rw [h b hb]

/-- A slot whose payload is not masked sets the same bits as one whose payload is (R249). -/
theorem sets_unmasked_slot_iff (payload : Word) (tag : Bool) {pos w : Nat} (h1 : 1 ≤ w) (h2 : w ≤ 32) {p : Nat}
    {x : Bool} :
    FieldWrite.Sets ⟨pos, w, shl32 payload 1 ||| BitVec.ofNat 32 tag.toNat⟩ p x ↔
      FieldWrite.Sets ⟨pos, 1, BitVec.ofNat 32 tag.toNat⟩ p x ∨ FieldWrite.Sets ⟨pos + 1, w - 1, payload⟩ p x := by
  rw [← sets_slot_iff payload tag h1 h2]
  refine FieldWrite.sets_congr fun b hb => ?_
  cases b with
  | zero => rw [slot_getLsbD_zero, slot_getLsbD_zero]
  | succ b =>
    rw [slot_getLsbD_succ _ _ (by omega), slot_getLsbD_succ _ _ (by omega)]
    simp [mask_getLsbD, show b < w - 1 by omega, show b < 32 by omega]

/-- The slot of the value `v` at place `i` of the input (R249). -/
def searchSlot (bb : Nat) (vals : List Word) (i : Nat) (v : Word) : Word :=
  if 2 ^ bb ≤ v.toNat then shl32 (BitVec.ofNat 32 (entryOf false bb vals i v)) 1 ||| BitVec.ofNat 32 true.toNat
  else shl32 v 1 ||| BitVec.ofNat 32 false.toNat

/-- The search leaves one slot for each value (R249). -/
theorem searchSlots_eq_mapIdx (bb : Nat) (vals : List Word) :
    searchSlots bb 0 vals = vals.mapIdx (searchSlot bb vals) := by
  obtain ⟨hlen, hslot⟩ := searchSlots_spec bb 0 vals
  refine List.ext_getElem? fun i => ?_
  rw [List.getElem?_mapIdx]
  cases hv : vals[i]? with
  | none => simpa [hlen] using hv
  | some v =>
    by_cases hlarge : 2 ^ bb ≤ v.toNat
    · rw [searchSlots_index bb 0 vals hv hlarge]
      simp [searchSlot, entryOf, hlarge]
    · obtain ⟨-, hsmall⟩ | ⟨hgt, -⟩ := hslot i v hv
      · simp [hsmall, searchSlot, hlarge]
      · omega

/-- The slot of a value sets the bits of its two fields in `headerFields` (R249). -/
theorem sets_searchSlot_iff {bb : Nat} {vals : List Word} {i pos w : Nat} {v : Word} (h1 : 1 ≤ w) (h2 : w ≤ 32)
    {p : Nat} {x : Bool} :
    FieldWrite.Sets ⟨pos, w, searchSlot bb vals i v⟩ p x ↔
      FieldWrite.Sets ⟨pos, 1, if 2 ^ bb ≤ v.toNat then 1 else 0⟩ p x ∨
      FieldWrite.Sets ⟨pos + 1, w - 1,
        if 2 ^ bb ≤ v.toNat then BitVec.ofNat 32 (entryOf false bb vals i v) else v⟩ p x := by
  unfold searchSlot
  split <;> exact sets_unmasked_slot_iff _ _ h1 h2

theorem exists_mem_headerFields_iff {cls : LayoutClass} {w bb : Nat} {dedup : Bool} {vals : List Word}
    {P : FieldWrite → Prop} :
    (∃ f ∈ headerFields cls w bb dedup vals, P f) ↔ ∃ i v, vals[i]? = some v ∧
      (P ⟨slotPos cls i w, 1, if 2 ^ bb ≤ v.toNat then 1 else 0⟩ ∨
        P ⟨slotPos cls i w + 1, w - 1,
          if 2 ^ bb ≤ v.toNat then BitVec.ofNat 32 (entryOf dedup bb vals i v) else v⟩) := by
  simp only [mem_headerFields]
  constructor
  · rintro ⟨-, ⟨i, v, hv, rfl | rfl⟩, hP⟩
    · exact ⟨i, v, hv, .inl hP⟩
    · exact ⟨i, v, hv, .inr hP⟩
  · rintro ⟨i, v, hv, hP | hP⟩
    · exact ⟨_, ⟨i, v, hv, .inl rfl⟩, hP⟩
    · exact ⟨_, ⟨i, v, hv, .inr rfl⟩, hP⟩

/-- The slots of the search set the bits of the tags and payloads of the values (R249). -/
theorem exists_searchSlot_sets_iff {cls : LayoutClass} {bb : Nat} {vals : List Word} {w : Nat} (h1 : 1 ≤ w)
    (h2 : w ≤ 32) {p : Nat} {x : Bool} :
    (∃ f ∈ valueFields cls w 0 (vals.mapIdx (searchSlot bb vals)), f.Sets p x) ↔
      ∃ f ∈ headerFields cls w bb false vals, f.Sets p x := by
  simp only [exists_mem_valueFields_iff, exists_mem_headerFields_iff, ← sets_searchSlot_iff h1 h2,
    List.getElem?_mapIdx, Option.map_eq_some_iff]
  refine exists_congr fun i => ?_
  constructor
  · rintro ⟨-, ⟨v, hv, rfl⟩, hsets⟩
    exact ⟨v, hv, hsets⟩
  · rintro ⟨v, hv, hsets⟩
    exact ⟨_, ⟨v, hv, rfl⟩, hsets⟩

/-! ### The plan of a selected candidate -/

/-- The plan of modes 4 and 5 for the selected candidate `c` when the table fits (R248 to R252). -/
def searchPlan (cls : LayoutClass) (cross : Bool) (vals : List Word) (c : Candidate) : Plan :=
  { words := ceilDiv (c.header + c.large.length * c.kOv) 32
    k := c.slotWidth, cross := cross, deleg := false, table := c.large
    smallW := c.bb, idxW := c.idxBits, ew := c.kOv, hbits := c.header
    writes := valueFields cls c.slotWidth 0 (vals.mapIdx (searchSlot c.bb vals)) ++
      entryFields c.header c.kOv c.large }

/-- The check of R251, then the plan. -/
theorem planSearch_of_selectSplit_some {params : Params} {cls : LayoutClass} {cross : Bool} {vals : List Word}
    {c : Candidate} (h : selectSplit cls vals = some c) :
    planSearch params cls cross vals =
      if params.ovtMax.toNat < c.large.length then .error .ovtFull else .ok (searchPlan cls cross vals c) := by
  simp only [planSearch, h, searchSlots_eq_mapIdx, slotWrites_eq_valueFields, entryWrites_eq_entryFields, searchPlan]

/-- WORDS of a selected candidate comes from its cost, and its table is that of the large values (R250, R252). -/
theorem searchPlan_words_table {cls : LayoutClass} {cross : Bool} {vals : List Word} {c : Candidate}
    (h : selectSplit cls vals = some c) :
    (searchPlan cls cross vals c).words = (c.cost + 31) / 32 ∧ c.large = largeOf c.bb vals := by
  obtain ⟨-, bb, -, -, rfl⟩ := selectSplit_eq_some h
  exact ⟨ceilDiv_eq_div _ (by decide), largeValues_eq_largeOf bb vals⟩

/-- PBUF after a COMPRESS of modes 4 and 5 that keeps a split (R249, R252). -/
theorem packsExactly_install_searchPlan (s : State) {cls : LayoutClass} {cross : Bool} {vals : List Word}
    {c : Candidate} (h1 : 1 ≤ c.slotWidth) (h2 : c.slotWidth ≤ 32) (hp : (searchPlan cls cross vals c).Placeable)
    (hw : (searchPlan cls cross vals c).words < 2 ^ 32) :
    (s.install (searchPlan cls cross vals c)).PacksExactly
      (headerFields cls c.slotWidth c.bb false vals ++ entryFields c.header c.kOv c.large) := by
  refine (Plan.packsExactly_install s _ hp hw).congr fun p x => ?_
  simp only [searchPlan, List.mem_append, or_and_right, exists_or, exists_searchSlot_sets_iff h1 h2]

/-! ### COMPRESS -/

/-- Settles O28: `planSearch_of_selectSplit_some` makes the check of OVT_MAX; the plan it passes to is good, so its
numbers fit their registers, and PBUF is `packsExactly_install_searchPlan`. -/
theorem searchCompressRegisters : Obligations.SearchCompressRegisters := by
  unfold Obligations.SearchCompressRegisters
  intro s vals cls c hc hm hnmax hl hlen hread hnonneg hsel
  have hv : s.inputs = some vals := State.inputs_eq_some.2 ⟨hlen, hread⟩
  have hn : s.mode = .noCrossing ∨ vals.any Word.negative = false := .inr (any_negative_eq_false_iff.2 hnonneg)
  have hplan := (plan_of_search (params := s.params) (k := s.k.toNat) (vals := vals) hm).trans
    (planSearch_of_selectSplit_some hsel)
  refine ⟨fun hovt => ?_, fun hovt hfit => ?_⟩
  · rw [if_pos hovt] at hplan
    exact execCompress_of_plan_error hc hl hv hn hplan
  · rw [if_neg (Nat.not_lt.2 hovt)] at hplan
    obtain ⟨hwordsEq, hlarge⟩ := searchPlan_words_table (cross := decide (s.mode = .searchCrossing)) hsel
    have hcount : vals.length < 2 ^ 31 := by
      rw [hlen]
      exact hnmax.trans_lt s.params.nMax.isLt
    have hgood := planSearch_good hcount ((plan_of_search hm).symm.trans hplan)
    rw [← hwordsEq] at hfit
    obtain ⟨hwords, hhbits⟩ := Plan.size_lt_of_le_pbufWords hgood hfit
    have hpacks := packsExactly_install_searchPlan s hgood.k_pos hgood.k_le hgood.placeable hwords
    rw [hlarge] at hpacks
    refine ⟨_, execCompress_of_plan hc (by rw [hl]) hv hn hplan hfit, rfl, rfl, ?_, rfl, rfl, ?_, ?_, ?_, ?_, ?_, ?_,
      fun j => ?_, hpacks⟩
    · exact Nat.mod_eq_of_lt (hgood.k_le.trans_lt (by decide))
    · exact Nat.mod_eq_of_lt hgood.smallW_lt
    · exact Nat.mod_eq_of_lt hgood.idxW_lt
    · exact Nat.mod_eq_of_lt hgood.ew_lt
    · exact Nat.mod_eq_of_lt hhbits
    · exact (Nat.mod_eq_of_lt hwords).trans hwordsEq
    · exact Nat.mod_eq_of_lt (hgood.table_le.trans_lt s.params.ovtMax.isLt)
    · simp [searchPlan, hlarge, Memory.read_ofWordsFrom]

end Sys2Proof.Machine
end

section
/-! PROOFS. The failures common to all commands: the check of CONFIGURED, and what a failed command leaves unchanged
(spec/60_exceptions.md R271, R272, R274). -/

namespace Sys2Proof.Machine

section
variable {s t : State} {i : Instr}

/-! ### Without an instance -/

theorem exec_decompress_of_unconfigured (hc : s.configured = false) :
    exec .decompress s = .next (s.afterError .illegalCommand .notConfigured) := by
  rw [exec, execDecompress, requireConfigured_of_unconfigured hc]

theorem exec_compress_of_unconfigured (hc : s.configured = false) :
    exec .compress s = .next (s.afterFailedCompress .illegalCommand .notConfigured) := if_pos hc

/-- The codec commands other than COMPRESS test CONFIGURED before all else (60_exceptions.md R272). -/
theorem exec_codec_of_unconfigured (hi : i ∈ [Instr.size, .bpv, .cbitlen, .crosses, .compressed, .get, .decompress])
    (hc : s.configured = false) : exec i s = .next (s.afterError .illegalCommand .notConfigured) := by
  cases i with
  | get => exact exec_get_of_unconfigured hc
  | decompress => exact exec_decompress_of_unconfigured hc
  | size | bpv | cbitlen | crosses | compressed => exact requireConfigured_of_unconfigured hc _
  | _ => simp at hi

/-! ### What a failed command leaves -/

/-- A command other than COMPRESS that answers either reports OK or raises a cause and writes nothing else
(60_exceptions.md R271, R274). -/
theorem exec_err_ok_or_raise (hi : i ≠ .compress) (h : exec i s = .next t) : t.err = .ok ∨ ∃ c, t = s.raise c := by
  cases i with
  | nop =>
    obtain rfl : s.complete = t := by simpa [exec, execNop] using h
    exact .inl s.complete_err
  | compress => exact absurd rfl hi
  | cfg =>
    obtain ⟨_, -, -, -, rfl⟩ | ⟨c, -, rfl⟩ := execCfg_cases h
    · exact .inl rfl
    · exact .inr ⟨c, rfl⟩
  | decompress =>
    obtain ⟨c, -, rfl⟩ | ⟨_, -, -, -, rfl⟩ := execDecompress_cases h
    · exact .inr ⟨c, rfl⟩
    · exact .inl rfl
  | _ =>
    obtain ⟨_, rfl⟩ | ⟨c, -, rfl⟩ := exec_scalar_cases rfl h
    · exact .inl rfl
    · exact .inr ⟨c, rfl⟩

end

/-! ### The obligations -/

/-- Settles O39: a command other than COMPRESS that does not report OK has raised a cause, by `exec_err_ok_or_raise`,
and a failed COMPRESS leaves what `failedCompressEffects` says. -/
theorem failedCommandsChangeNothingElse : Obligations.FailedCommandsChangeNothingElse := by
  unfold Obligations.FailedCommandsChangeNothingElse
  refine fun i s t h herr => ⟨fun hi => ?_, ?_⟩
  · obtain ⟨c, rfl⟩ := (exec_err_ok_or_raise hi h).resolve_left herr
    rfl
  · rintro rfl
    exact failedCompressEffects s t h herr

/-- Settles O18: `exec_codec_of_unconfigured` answers for seven of the commands, and COMPRESS also drops the
encoding. -/
theorem codecCommandsNeedInstance : Obligations.CodecCommandsNeedInstance := by
  unfold Obligations.CodecCommandsNeedInstance
  refine fun s hc => ⟨fun i hi => ?_, ?_⟩
  · exact exec_codec_of_unconfigured hi hc
  · exact ⟨_, exec_compress_of_unconfigured hc, rfl, rfl, rfl⟩

end Sys2Proof.Machine
end

section
/-! PROOFS. The round trip: every slot of an installed plan decodes to the value encoded (spec/42_contract.md R157). -/

namespace Sys2Proof.Machine

/-! ### The two-tier layouts -/

section
variable {s : State} {p : Plan} {cls : LayoutClass}

/-- A two-tier slot decodes to the value `x` when it holds `x` itself with tag 0, or the index of a table entry `x` with
tag 1, and what it holds fits the payload (R221, R222). -/
theorem State.decodeOvf_install_eq_ok (hp : p.Placeable) (hw : p.words < 2 ^ 32) (h1 : 1 ≤ p.k) (h2 : p.k ≤ 32)
    (ht : p.table.length < 2 ^ 32) (hfit : p.table.length ≤ 2 ^ (p.k - 1)) {i : Nat} {x : Word}
    (h : (x.toNat < 2 ^ (p.k - 1) ∧ ⟨slotPos cls i p.k, p.k, shl32 x 1 ||| BitVec.ofNat 32 false.toNat⟩ ∈ p.writes) ∨
      ∃ j, p.table[j]? = some x ∧
        ⟨slotPos cls i p.k, p.k, shl32 (BitVec.ofNat 32 j) 1 ||| BitVec.ofNat 32 true.toNat⟩ ∈ p.writes) :
    (s.install p).decodeOvf cls i = .ok x := by
  obtain ⟨hx, hf⟩ | ⟨j, hj, hf⟩ := h
  · exact State.decodeOvf_install s p hp hw h1 h2 hx false hf
  · obtain ⟨hlt, -⟩ := List.getElem?_eq_some_iff.1 hj
    have hidx : (BitVec.ofNat 32 j).toNat = j := Nat.mod_eq_of_lt (hlt.trans ht)
    rw [State.decodeOvf_install s p hp hw h1 h2 (by omega) true hf, if_pos rfl, hidx]
    exact State.ovtWord_install s p ht hj

theorem slotSmall_of_lt {bb : Nat} {v : Word} (hbb : bb ≤ 32) (hv : v.toNat < 2 ^ bb) :
    slotSmall bb v = shl32 v 1 ||| BitVec.ofNat 32 false.toNat := by
  rw [slotSmall_eq, and_mask_of_lt hbb hv]

theorem slotLarge_of_lt {bb j : Nat} (hbb : bb ≤ 32) (hj : j < 2 ^ bb) :
    slotLarge bb j = shl32 (BitVec.ofNat 32 j) 1 ||| BitVec.ofNat 32 true.toNat := by
  have h32 : 2 ^ bb ≤ 2 ^ 32 := Nat.pow_le_pow_right Nat.two_pos hbb
  have hidx : (BitVec.ofNat 32 j).toNat = j := Nat.mod_eq_of_lt (hj.trans_le h32)
  rw [slotLarge_eq, and_mask_of_lt hbb (hidx.symm ▸ hj)]

end

section
variable {s : State} {p : Plan} {params : Params} {cls : LayoutClass} {cross : Bool} {vals : List Word} {i : Nat}
  {x : Word}

/-- The round trip of modes 2 and 3 (R214, R221). -/
theorem decodeOvf_install_planFixed {k : Nat} (h1 : 1 ≤ k) (h2 : k ≤ 32)
    (hp : planFixed params cls cross k vals = .ok p) (hw : p.words < 2 ^ 32) (hx : vals[i]? = some x) :
    (s.install p).decodeOvf cls i = .ok x := by
  have hgood := planFixed_good h1 h2 hp
  obtain ⟨hfit, -, rfl⟩ := planFixed_eq_ok.1 hp
  obtain ⟨-, -, hslot⟩ := splitFixed_spec params.ovfDedup (k - 1) [] vals
  have hmem : ∀ slot, (splitFixed params.ovfDedup (k - 1) [] vals).1[i]? = some slot →
      ⟨slotPos cls i k, k, slot⟩ ∈ slotWrites cls k 0 (splitFixed params.ovfDedup (k - 1) [] vals).1 ++
        slotWrites cls k vals.length (splitFixed params.ovfDedup (k - 1) [] vals).2 := fun slot h =>
    List.mem_append_left _ (mem_slotWrites.2 ⟨i, slot, h, by rw [Nat.zero_add]⟩)
  refine State.decodeOvf_install_eq_ok hgood.placeable hw h1 h2 (hgood.table_le.trans_lt params.ovtMax.isLt) hfit ?_
  obtain ⟨hsmall, hs⟩ | ⟨-, j, hs, hj⟩ := hslot i x hx
  · exact .inl ⟨hsmall, slotSmall_of_lt (by omega) hsmall ▸ hmem _ hs⟩
  · obtain ⟨hlt, -⟩ := List.getElem?_eq_some_iff.1 hj
    exact .inr ⟨j, hj, slotLarge_of_lt (by omega) (hlt.trans_le hfit) ▸ hmem _ hs⟩

/-- The round trip of modes 4 and 5 when a split is selected (R249, R221). -/
theorem decodeOvf_install_searchPlan {c : Candidate} (hn : vals.length < 2 ^ 31) (hsel : selectSplit cls vals = some c)
    (hp : planSearch params cls cross vals = .ok (searchPlan cls cross vals c))
    (hw : (searchPlan cls cross vals c).words < 2 ^ 32) (hx : vals[i]? = some x) :
    (s.install (searchPlan cls cross vals c)).decodeOvf cls i = .ok x := by
  have hgood := planSearch_good hn hp
  obtain ⟨-, bb, -, hbb, rfl⟩ := selectSplit_eq_some hsel
  obtain ⟨hwidth, -, -⟩ := candidate_widths cls hn hbb
  have hpayload : ∀ {w}, w ≤ max bb (candidate cls vals bb).idxBits →
      2 ^ w ≤ 2 ^ ((candidate cls vals bb).slotWidth - 1) := fun hle => Nat.pow_le_pow_right Nat.two_pos (by omega)
  have hmem : ∀ slot, (searchSlots bb 0 vals)[i]? = some slot →
      ⟨slotPos cls i (candidate cls vals bb).slotWidth, (candidate cls vals bb).slotWidth, slot⟩ ∈
        (searchPlan cls cross vals (candidate cls vals bb)).writes := fun slot h => by
    refine List.mem_append_left _ ?_
    rw [← slotWrites_eq_valueFields]
    exact mem_slotWrites.2 ⟨i, slot, (searchSlots_eq_mapIdx bb vals) ▸ h, by rw [Nat.zero_add]⟩
  refine State.decodeOvf_install_eq_ok hgood.placeable hw hgood.k_pos hgood.k_le
    (hgood.table_le.trans_lt params.ovtMax.isLt) ?_ ?_
  · exact (le_two_pow_ceilLog2 _).trans (hpayload (Nat.le_max_right ..))
  · obtain ⟨-, hslot⟩ := searchSlots_spec bb 0 vals
    obtain ⟨hsmall, hs⟩ | ⟨-, l, hs, hl⟩ := hslot i x hx
    · have hlt : x.toNat < 2 ^ bb := hsmall.trans_lt (Nat.sub_one_lt (Nat.two_pow_pos bb).ne')
      exact .inl ⟨hlt.trans_le (hpayload (Nat.le_max_left ..)), hmem _ (by simpa using hs)⟩
    · exact .inr ⟨l, hl, hmem _ (by simpa using hs)⟩

end

/-! ### Every mode -/

section
variable {s : State} {p : Plan} {vals : List Word} {i : Nat} {x : Word}

/-- A plain slot decodes to its value, masked to the slot width (R173, R194). -/
theorem readField_install_slotWrites (hp : p.Placeable) (hw : p.words < 2 ^ 32) (hk : p.k ≤ 32) {cls : LayoutClass}
    (hwr : p.writes = slotWrites cls p.k 0 vals) (hx : vals[i]? = some x) :
    (s.install p).readField (slotPos cls i (s.install p).k.toNat) (s.install p).k.toNat = .ok (x &&& mask p.k) :=
  State.readField_slot_install s p hp hw hk (hwr ▸ mem_slotWrites.2 ⟨i, x, hx, by rw [Nat.zero_add]⟩)

/-- The round trip of mode 1, and of modes 4 and 5 when they delegate: a value that is not negative fits the width of
the data, so the mask keeps it (R190, R194). -/
theorem decodeContig_install_planContig (hneg : vals.any Word.negative = false)
    (hp : p = planContig vals ∨ p = planDelegated vals) (hw : p.words < 2 ^ 32) (hx : vals[i]? = some x) :
    (s.install p).decodeContig i = .ok x := by
  have hk : p.k = dataBits vals := by obtain rfl | rfl := hp <;> rfl
  have hk32 : dataBits vals ≤ 32 := (bitsReq_range _).2.trans (by decide)
  have hplace : p.Placeable := by
    obtain rfl | rfl := hp
    · exact (planContig_good (params := s.params) vals).placeable
    · exact (planDelegated_good (params := s.params) vals).placeable
  have hwr : p.writes = slotWrites .contigClass p.k 0 vals := by obtain rfl | rfl := hp <;> rfl
  rw [State.decodeContig, readField_install_slotWrites hplace hw (hk ▸ hk32) hwr hx, hk,
    and_mask_of_lt hk32 (lt_two_pow_dataBits hneg (List.mem_of_getElem? hx))]

/-- The round trip of every plan (R157): in mode 0 the low K bits of a value, in the other modes the value. -/
theorem decodeAt_install_plan {k : Nat} (hn : vals.length < 2 ^ 31) (hk : KeepsWidth s.mode → 1 ≤ k) (hk2 : k ≤ 32)
    (hneg : s.mode = .noCrossing ∨ vals.any Word.negative = false) (hp : plan s.params s.mode k vals = .ok p)
    (hw : p.words < 2 ^ 32) (hx : vals[i]? = some x) :
    (s.install p).decodeAt i = .ok (if s.mode = .noCrossing then x &&& mask p.k else x) := by
  have hsearch : ∀ {cls cross}, vals.any Word.negative = false → planSearch s.params cls cross vals = .ok p →
      (p.deleg = true ∧ (s.install p).decodeContig i = .ok x) ∨
        (p.deleg = false ∧ (s.install p).decodeOvf cls i = .ok x) := by
    intro cls cross hneg hp
    cases hsel : selectSplit cls vals with
    | none =>
      obtain rfl := Except.ok.inj ((planSearch_of_selectSplit_none hsel).symm.trans hp)
      exact .inl ⟨rfl, decodeContig_install_planContig hneg (.inr rfl) hw hx⟩
    | some c =>
      have hfull := hp
      rw [planSearch_of_selectSplit_some hsel] at hp
      split at hp
      · cases hp
      · obtain rfl := Except.ok.inj hp
        exact .inr ⟨rfl, decodeOvf_install_searchPlan hn hsel hfull hw hx⟩
  unfold State.decodeAt
  rw [State.install_mode, State.install_deleg]
  cases hm : s.mode <;> rw [hm] at hp hk hneg
  case noCrossing =>
    obtain rfl := Except.ok.inj hp
    exact readField_install_slotWrites (planAligned_good (params := s.params) (hk (.inl rfl)) hk2 vals).placeable hw hk2
      rfl hx
  case crossing =>
    obtain rfl := Except.ok.inj hp
    exact decodeContig_install_planContig (hneg.resolve_left nofun) (.inl rfl) hw hx
  case overflowNoCrossing => exact decodeOvf_install_planFixed (hk (.inr (.inl rfl))) hk2 hp hw hx
  case overflowCrossing => exact decodeOvf_install_planFixed (hk (.inr (.inr rfl))) hk2 hp hw hx
  case searchNoCrossing | searchCrossing =>
    obtain ⟨hd, h⟩ | ⟨hd, h⟩ := hsearch (hneg.resolve_left nofun) hp <;> rw [hd] <;> exact h

end

/-- Settles O31: a COMPRESS that reports OK has installed the plan of its values, and `decodeAt_install_plan` is the
round trip of every plan. -/
theorem compressRoundTrip : Obligations.CompressRoundTrip := by
  unfold Obligations.CompressRoundTrip
  intro s t vals hnmax hk32 hk1 hlen hread hexec hok i x hx
  obtain ⟨c, hne, rfl⟩ | ⟨us, p, -, -, hus, hneg, hp, hw, rfl⟩ := execCompress_cases hexec
  · exact absurd (classOf_eq_ok_iff.1 hok) hne
  obtain rfl : us = vals := Option.some.inj (hus.symm.trans (State.inputs_eq_some.2 ⟨hlen, hread⟩))
  have hn : us.length < 2 ^ 31 := hlen ▸ hnmax.trans_lt s.params.nMax.isLt
  have hgood := plan_good hn hk1 hk32 hp
  obtain ⟨hwords, -⟩ := Plan.size_lt_of_le_pbufWords hgood hw
  have hk : (s.install p).complete.k.toNat = p.k := Nat.mod_eq_of_lt (hgood.k_le.trans_lt (by decide))
  rw [hk]
  exact (State.decodeAt_congr rfl rfl rfl rfl rfl rfl rfl rfl i).trans
    (decodeAt_install_plan hn hk1 hk32 hneg hp hwords hx)

end Sys2Proof.Machine
end

section
/-! PROOFS. What a command and a step leave, as one list of cases each, and the canonical form of the memories along a
step (spec/20_memory.md R51; spec/60_exceptions.md R271, R273; spec/70_reset_and_hazards.md R300, R312). -/

namespace Sys2Proof.Machine

/-! ### What a command leaves -/

/-- What a command that answers leaves of the state it starts from. -/
inductive ExecEffect (s : State) : State → Prop where
  /-- NOP -/
  | success : ExecEffect s s.complete
  /-- the accessors, GET and the utilities -/
  | result (v : Word) : ExecEffect s (s.setResult v).complete
  /-- any command but COMPRESS that reports a cause -/
  | error (c : Cause) : c ≠ .noCause → ExecEffect s (s.raise c)
  /-- CFG (42_contract.md R141) -/
  | construct (mode : Mode) : kOK mode s.arg2.toNat = true → s.arg1.toNat ≤ s.params.nMax.toNat →
      ExecEffect s (s.construct mode s.arg1.toNat s.arg2.toNat).complete
  /-- COMPRESS that reports a cause (42_contract.md R151) -/
  | drop (c : Cause) : c ≠ .noCause → ExecEffect s (s.dropEncoding.raise c)
  /-- COMPRESS (42_contract.md R150) -/
  | install (vals : List Word) (p : Plan) : s.configured = true → vals.length = s.n.toNat →
      s.mode = .noCrossing ∨ vals.any Word.negative = false → plan s.params s.mode s.k.toNat vals = .ok p →
      p.words ≤ s.params.pbufWords.toNat → ExecEffect s (s.install p).complete
  /-- DECOMPRESS (42_contract.md R158) -/
  | fill (vs : List Word) : vs.length = s.n.toNat →
      ExecEffect s (State.setResult { s with vout := s.vout.writeFrom 0 vs } s.n).complete

theorem exec_effect {i : Instr} {s t : State} (h : exec i s = .next t) : ExecEffect s t := by
  cases i with
  | nop =>
    obtain rfl : s.complete = t := Host.Outcome.next.inj h
    exact .success
  | cfg =>
    obtain ⟨mode, -, hk, hn, rfl⟩ | ⟨c, hc, rfl⟩ := execCfg_cases h
    · exact .construct mode hk hn
    · exact .error c hc
  | compress =>
    obtain ⟨c, hc, rfl⟩ | ⟨vals, p, hcfg, -, hv, hneg, hp, hw, rfl⟩ := execCompress_cases h
    · exact .drop c hc
    · exact .install vals p hcfg (State.inputs_eq_some.1 hv).1 hneg hp hw
  | decompress =>
    obtain ⟨c, hc, rfl⟩ | ⟨vs, -, -, hvs, rfl⟩ := execDecompress_cases h
    · exact .error c hc
    · exact .fill vs (State.decodeFrom_eq_ok.1 hvs).1
  | _ =>
    obtain ⟨v, rfl⟩ | ⟨c, hc, rfl⟩ := exec_scalar_cases rfl h
    · exact .result v
    · exact .error c hc

/-! ### What a step leaves -/

/-- What a step that answers leaves of the state it starts from. -/
inductive StepEffect (s : State) : State → Prop where
  /-- no host event to come -/
  | idle : StepEffect s s
  /-- the reset input -/
  | reset (rest : List Event) : s.pending = .reset :: rest → StepEffect s (State.applyReset { s with pending := rest })
  /-- a host read -/
  | read (rest : List Event) (w : Word) : StepEffect s { s with pending := rest, observed := s.observed ++ [w] }
  /-- a host write to a read-only register -/
  | ignored (rest : List Event) : StepEffect s { s with pending := rest }
  /-- a host write to ARG0..ARG3 -/
  | arg (rest : List Event) (r : ArgReg) (v : Word) : StepEffect s (State.setArg { s with pending := rest } r v)
  /-- a host write to VIN -/
  | vin (rest : List Event) (i : Nat) (v : Word) : i < s.params.nMax.toNat →
      StepEffect s { s with pending := rest, vin := s.vin.write i v }
  /-- a CMD write of a word that is no command -/
  | illegal (rest : List Event) (e : DecodeError) :
      StepEffect s ((State.startCommand { s with pending := rest }).raise (causeOfDecode e))
  /-- a CMD write of a command -/
  | command (rest : List Event) {t : State} : ExecEffect (State.startCommand { s with pending := rest }) t →
      StepEffect s t

theorem step_effect {s t : State} (h : step s = .next t) : StepEffect s t := by
  obtain ⟨-, rfl⟩ | ⟨rest, hp, rfl⟩ | ⟨addr, rest, w, -, -, rfl⟩ | ⟨addr, data, rest, -, -, hw⟩ := step_cases h
  · exact .idle
  · exact .reset rest hp
  · exact .read rest w
  · obtain hrun | ⟨r, rfl⟩ | rfl | ⟨hi, rfl⟩ := portWrite_cases hw
    · obtain ⟨i, -, hi⟩ | ⟨e, -, rfl⟩ := runCommand_cases hrun
      · exact .command rest (exec_effect hi)
      · exact .illegal rest e
    · exact .arg rest r data
    · exact .ignored rest
    · exact .vin rest _ data hi

/-! ### The canonical form of the memories -/

theorem ExecEffect.memoriesWf {s t : State} (h : ExecEffect s t) (hs : s.MemoriesWf) : t.MemoriesWf := by
  obtain ⟨hvin, hvout, hpbuf, hovt⟩ := hs
  cases h with
  | success | result | error => exact ⟨hvin, hvout, hpbuf, hovt⟩
  | construct => exact ⟨hvin, rfl, rfl, rfl⟩
  | drop => exact ⟨hvin, hvout, rfl, rfl⟩
  | install vals p => exact ⟨hvin, hvout, p.buffer_wf, Memory.ofWordsFrom_wf 0 p.table⟩
  | fill vs => exact ⟨hvin, Memory.writeFrom_wf hvout 0 vs, hpbuf, hovt⟩

theorem StepEffect.memoriesWf {s t : State} (h : StepEffect s t) (hs : s.MemoriesWf) : t.MemoriesWf := by
  obtain ⟨hvin, hvout, hpbuf, hovt⟩ := hs
  cases h with
  | idle | read | ignored | illegal => exact ⟨hvin, hvout, hpbuf, hovt⟩
  | reset => exact ⟨rfl, rfl, rfl, rfl⟩
  | arg rest r v => simp [State.MemoriesWf, hvin, hvout, hpbuf, hovt]
  | vin rest i v => exact ⟨Memory.write_wf hvin i v, hvout, hpbuf, hovt⟩
  | command rest h => exact h.memoriesWf ⟨hvin, hvout, hpbuf, hovt⟩

/-- Settles O58: every write to a memory keeps its form, case by case of `StepEffect`. -/
theorem stepKeepsMemoryForm : Obligations.StepKeepsMemoryForm := by
  unfold Obligations.StepKeepsMemoryForm
  exact fun s t hs h => (step_effect h).memoriesWf hs

end Sys2Proof.Machine
end

section
/-! PROOFS. The invariant along a step (spec/10_state.md R28, R29, R39). -/

namespace Sys2Proof.Machine

/-! ### Steps that leave the instance and its encoding alone -/

/-- The instance registers and the encoding of two states agree. -/
structure State.SameInstance (s t : State) : Prop where
  params : t.params = s.params
  configured : t.configured = s.configured
  valid : t.valid = s.valid
  deleg : t.deleg = s.deleg
  mode : t.mode = s.mode
  n : t.n = s.n
  k : t.k = s.k
  words : t.words = s.words
  ovtM : t.ovtM = s.ovtM
  smallW : t.smallW = s.smallW
  idxW : t.idxW = s.idxW
  ew : t.ew = s.ew
  hbits : t.hbits = s.hbits
  pbuf : t.pbuf = s.pbuf
  ovt : t.ovt = s.ovt

/-- The part of the invariant that speaks of the instance and its encoding. -/
def State.InstanceInv (s : State) : Prop :=
  s.LayoutClearWhenInvalid ∧ s.WithinBounds ∧ s.InstanceLegal ∧ s.EncodingReadable

theorem State.SameInstance.layoutWords {s t : State} (h : s.SameInstance t) : t.layoutWords = s.layoutWords := by
  rw [State.layoutWords, State.layoutWords, h.mode, h.deleg, h.n, h.k, h.ovtM, h.hbits, h.ew]

theorem State.SameInstance.decodeAt {s t : State} (h : s.SameInstance t) (i : Nat) : t.decodeAt i = s.decodeAt i :=
  State.decodeAt_congr h.mode h.deleg h.k h.valid h.words h.ovtM h.pbuf h.ovt i

theorem State.SameInstance.layoutClear {s t : State} (h : s.SameInstance t) (hs : s.LayoutClearWhenInvalid) :
    t.LayoutClearWhenInvalid := by
  unfold State.LayoutClearWhenInvalid
  rwa [h.valid, h.words, h.ovtM, h.smallW, h.idxW, h.ew, h.hbits, h.deleg]

theorem State.SameInstance.instanceInv {s t : State} (h : s.SameInstance t) (hs : s.InstanceInv) : t.InstanceInv := by
  obtain ⟨hclear, hbounds, hlegal, hread⟩ := hs
  refine ⟨h.layoutClear hclear, ?_, ?_, ?_⟩
  · unfold State.WithinBounds
    rwa [h.k, h.valid, h.n, h.params, h.words, h.ovtM]
  · unfold State.InstanceLegal
    rwa [h.configured, h.valid, h.mode, h.n, h.k]
  · unfold State.EncodingReadable
    simp only [h.valid, h.pbuf, h.words, h.ovt, h.ovtM, h.n, h.layoutWords, h.decodeAt]
    exact hread

theorem State.sameInstance_setArg (s : State) (r : ArgReg) (v : Word) : s.SameInstance (s.setArg r v) := by
  constructor <;> simp

/-! ### Without an encoding -/

/-- Without an encoding there is nothing to read and no register of the layout to bound. -/
theorem State.instanceInv_of_invalid {t : State} (hv : t.valid = false) (hclear : t.LayoutClearWhenInvalid)
    (hk : t.k.toNat ≤ 32) (hn : t.n.toNat ≤ t.params.nMax.toNat) (hlegal : t.InstanceLegal) : t.InstanceInv := by
  obtain ⟨hwords, hovtM, -⟩ := hclear hv
  refine ⟨hclear, ⟨hk, by simp [hv], hn, ?_, ?_⟩, hlegal, by simp [State.EncodingReadable, hv]⟩
  · simp [hwords]
  · simp [hovtM]

/-- The width test of CFG (42_contract.md R142). -/
theorem kOK_bounds {mode : Mode} {k : Nat} (h : kOK mode k = true) : k ≤ 32 ∧ (KeepsWidth mode → 1 ≤ k) := by
  obtain ⟨h32, h1⟩ := kOK_iff.1 h
  refine ⟨h32, fun hm => h1 ?_⟩
  obtain rfl | rfl | rfl := hm <;> decide

theorem State.instanceInv_construct (s : State) {mode : Mode} {n k : Nat} (hk : kOK mode k = true)
    (hn : n ≤ s.params.nMax.toNat) : (s.construct mode n k).complete.InstanceInv := by
  obtain ⟨hk32, hk1⟩ := kOK_bounds hk
  have hk6 : (BitVec.ofNat 6 k).toNat = k := Nat.mod_eq_of_lt (hk32.trans_lt (by decide))
  have hn32 : (BitVec.ofNat 32 n).toNat = n := Nat.mod_eq_of_lt (hn.trans_lt (s.params.nMax.isLt.trans (by decide)))
  refine State.instanceInv_of_invalid rfl (fun _ => ⟨rfl, rfl, rfl, rfl, rfl, rfl, rfl⟩) ?_ ?_ ⟨nofun, fun _ hm => ?_⟩
  · simpa [hk6] using hk32
  · exact hn32.trans_le hn
  · exact (hk1 hm).trans_eq hk6.symm

theorem State.instanceInv_dropEncoding {s : State} (c : Cause) (hs : s.InstanceInv) :
    (s.dropEncoding.raise c).InstanceInv := by
  obtain ⟨-, ⟨hk, -, hn, -, -⟩, ⟨hnew, hwidth⟩, -⟩ := hs
  refine State.instanceInv_of_invalid rfl (fun _ => ⟨rfl, rfl, rfl, rfl, rfl, rfl, rfl⟩) hk hn ⟨fun hc => ?_, hwidth⟩
  exact ⟨rfl, (hnew hc).2⟩

theorem State.instanceInv_applyReset (s : State) : s.applyReset.InstanceInv := by
  refine State.instanceInv_of_invalid rfl (fun _ => ⟨rfl, rfl, rfl, rfl, rfl, rfl, rfl⟩) ?_ (Nat.zero_le _)
    ⟨fun _ => ⟨rfl, rfl, rfl, rfl⟩, nofun⟩
  simp

/-! ### A new encoding -/

/-- The numbers of a good plan that fits PBUF fit their registers. -/
theorem Plan.Good.install_toNat {p : Plan} {s : State} {vals : List Word} (hp : p.Good s.params vals)
    (hw : p.words ≤ s.params.pbufWords.toNat) :
    (s.install p).k.toNat = p.k ∧ (s.install p).words.toNat = p.words ∧ (s.install p).ovtM.toNat = p.table.length ∧
      (s.install p).ew.toNat = p.ew ∧ (s.install p).hbits.toNat = p.hbits := by
  obtain ⟨hwords, hhbits⟩ := Plan.size_lt_of_le_pbufWords hp hw
  exact ⟨Nat.mod_eq_of_lt (hp.k_le.trans_lt (by decide)), Nat.mod_eq_of_lt hwords,
    Nat.mod_eq_of_lt (hp.table_le.trans_lt s.params.ovtMax.isLt), Nat.mod_eq_of_lt hp.ew_lt, Nat.mod_eq_of_lt hhbits⟩

/-- WORDS of every plan is the number of words of its layout (10_state.md R39 e). -/
theorem layoutWords_install {s : State} {p : Plan} {vals : List Word} (hlen : vals.length = s.n.toNat)
    (hgood : p.Good s.params vals) (hw : p.words ≤ s.params.pbufWords.toNat)
    (hp : plan s.params s.mode s.k.toNat vals = .ok p) : (s.install p).words.toNat = (s.install p).layoutWords := by
  obtain ⟨hk, hwords, hovtM, hew, hhbits⟩ := hgood.install_toNat hw
  have hsearch : ∀ {cls cross}, planSearch s.params cls cross vals = .ok p →
      (p.deleg = true ∧ p.words = ceilDiv (vals.length * p.k) 32) ∨
        (p.deleg = false ∧ p.words = ceilDiv (p.hbits + p.table.length * p.ew) 32) := by
    intro cls cross h
    obtain ⟨-, rfl⟩ | ⟨c, -, -, rfl⟩ := planSearch_eq_ok.1 h
    · exact .inl ⟨rfl, rfl⟩
    · exact .inr ⟨rfl, rfl⟩
  rw [State.layoutWords, hk, hew, hovtM, hwords, hhbits, State.install_n, State.install_mode, State.install_deleg,
    ← hlen]
  cases hm : s.mode <;> rw [hm] at hp
  case noCrossing | crossing => obtain rfl := Except.ok.inj hp; rfl
  case overflowNoCrossing | overflowCrossing => obtain ⟨-, -, rfl⟩ := planFixed_eq_ok.1 hp; rfl
  case searchNoCrossing | searchCrossing =>
    obtain ⟨hd, hwp⟩ | ⟨hd, hwp⟩ := hsearch hp <;> rw [hd] <;> exact hwp

theorem State.instanceInv_install {s : State} {p : Plan} {vals : List Word} (hc : s.configured = true)
    (hlen : vals.length = s.n.toNat) (hneg : s.mode = .noCrossing ∨ vals.any Word.negative = false)
    (hp : plan s.params s.mode s.k.toNat vals = .ok p) (hw : p.words ≤ s.params.pbufWords.toNat) (hs : s.InstanceInv) :
    (s.install p).complete.InstanceInv := by
  obtain ⟨-, ⟨hk32, -, hnmax, -, -⟩, ⟨-, hwidth⟩, -⟩ := hs
  have hn : vals.length < 2 ^ 31 := hlen ▸ hnmax.trans_lt s.params.nMax.isLt
  have hgood := plan_good hn (hwidth hc) hk32 hp
  obtain ⟨hwords32, -⟩ := Plan.size_lt_of_le_pbufWords hgood hw
  obtain ⟨hk, hwords, hovtM, -, -⟩ := hgood.install_toNat hw
  have hkpos : 1 ≤ (s.install p).k.toNat := hk.symm ▸ hgood.k_pos
  have hsame : (s.install p).SameInstance (s.install p).complete := by constructor <;> rfl
  have hread : (s.install p).EncodingReadable := by
    refine fun _ => ⟨fun j => ?_, fun j => ?_, layoutWords_install hlen hgood hw hp, fun i hi => ?_⟩
    · rw [hwords]
      exact p.isSome_read_buffer j
    · rw [hovtM, State.install_ovt, Memory.read_ofWordsFrom, Bool.eq_iff_iff]
      simp
    · have hx : vals[i]? = some (vals[i]'(hlen.symm ▸ hi)) := List.getElem?_eq_getElem _
      exact ⟨_, decodeAt_install_plan hn (hwidth hc) hk32 hneg hp hwords32 hx⟩
  exact hsame.instanceInv ⟨nofun, ⟨hk.trans_le hgood.k_le, fun _ => hkpos, hnmax, hwords.trans_le hw,
    hovtM.trans_le hgood.table_le⟩, ⟨fun h => Bool.noConfusion (hc.symm.trans h), fun _ _ => hkpos⟩, hread⟩

/-! ### Every step -/

theorem ExecEffect.instanceInv {s t : State} (h : ExecEffect s t) (hs : s.InstanceInv) : t.InstanceInv := by
  cases h with
  | success | result | error | fill => exact State.SameInstance.instanceInv (by constructor <;> rfl) hs
  | construct mode hk hn => exact s.instanceInv_construct hk hn
  | drop c => exact State.instanceInv_dropEncoding c hs
  | install vals p hc hlen hneg hp hw => exact State.instanceInv_install hc hlen hneg hp hw hs

theorem StepEffect.instanceInv {s t : State} (h : StepEffect s t) (hs : s.InstanceInv) : t.InstanceInv := by
  have hpending : ∀ rest, State.InstanceInv { s with pending := rest } := fun rest =>
    State.SameInstance.instanceInv (by constructor <;> rfl) hs
  cases h with
  | idle | read | ignored | vin | illegal => exact State.SameInstance.instanceInv (by constructor <;> rfl) hs
  | reset rest => exact State.instanceInv_applyReset _
  | arg rest r v => exact (State.sameInstance_setArg _ r v).instanceInv (hpending rest)
  | command rest h => exact h.instanceInv (State.SameInstance.instanceInv (by constructor <;> rfl) hs)

/-- A command leaves BUSY 0 and its own report, whatever stood before (60_exceptions.md R271, R273). -/
theorem ExecEffect.statusConsistent {s t : State} (h : ExecEffect s t) : t.StatusConsistent := by
  cases h with
  | success | result | construct | install | fill => exact ⟨rfl, rfl, fun h => absurd rfl h⟩
  | error | drop => exact ⟨rfl, rfl, fun _ => rfl⟩

theorem StepEffect.statusConsistent {s t : State} (h : StepEffect s t) (hs : s.StatusConsistent) :
    t.StatusConsistent := by
  cases h with
  | idle | read | ignored | vin => exact hs
  | reset => exact ⟨rfl, rfl, fun h => absurd rfl h⟩
  | arg rest r v => simpa [State.StatusConsistent] using hs
  | illegal => exact ⟨rfl, rfl, fun _ => rfl⟩
  | command rest h => exact h.statusConsistent

theorem ExecEffect.withinDepth {s t : State} (h : ExecEffect s t) (hn : s.n.toNat ≤ s.params.nMax.toNat)
    (hs : s.WithinDepth) : t.WithinDepth := by
  cases h with
  | success | result | error | drop | install => exact hs
  | construct => exact fun j hj => ⟨(hs j hj).1, rfl⟩
  | fill vs hlen =>
    intro j hj
    have hj : s.params.nMax.toNat ≤ j := hj
    obtain ⟨hvin, hvout⟩ := hs j hj
    refine ⟨hvin, ?_⟩
    show (s.vout.writeFrom 0 vs).read j = none
    rw [Memory.read_writeFrom, if_neg (by omega), hvout]

theorem StepEffect.withinDepth {s t : State} (h : StepEffect s t) (hn : s.n.toNat ≤ s.params.nMax.toNat)
    (hs : s.WithinDepth) : t.WithinDepth := by
  cases h with
  | idle | read | ignored | illegal => exact hs
  | reset => exact fun j _ => ⟨rfl, rfl⟩
  | arg rest r v => simpa [State.WithinDepth] using hs
  | vin rest i v hi =>
    intro j hj
    have hj : s.params.nMax.toNat ≤ j := hj
    obtain ⟨hvin, hvout⟩ := hs j hj
    exact ⟨(Memory.read_write_other s.vin i j v (by omega)).trans hvin, hvout⟩
  | command rest h => exact h.withinDepth hn hs

/-- Every step keeps the whole invariant. -/
theorem step_inv {s t : State} (hs : s.Inv) (h : step s = .next t) : t.Inv := by
  obtain ⟨hmem, hclear, hbounds, hlegal, hstatus, hread, hdepth⟩ := hs
  have heff := step_effect h
  obtain ⟨-, -, hn, -, -⟩ := id hbounds
  obtain ⟨hclear', hbounds', hlegal', hread'⟩ := heff.instanceInv ⟨hclear, hbounds, hlegal, hread⟩
  exact ⟨heff.memoriesWf hmem, hclear', hbounds', hlegal', heff.statusConsistent hstatus, hread',
    heff.withinDepth hn hdepth⟩

/-! ### The obligations -/

/-- Settles O59: the registers' part of `step_inv`. -/
theorem stepKeepsRegisterInvariants : Obligations.StepKeepsRegisterInvariants := by
  unfold Obligations.StepKeepsRegisterInvariants
  intro s t hs h
  obtain ⟨-, hclear, hbounds, hlegal, hstatus, -, -⟩ := step_inv hs h
  exact ⟨hclear, hbounds, hlegal, hstatus⟩

/-- Settles O60: the encoding's part of `step_inv`. -/
theorem stepKeepsEncodingReadable : Obligations.StepKeepsEncodingReadable := by
  unfold Obligations.StepKeepsEncodingReadable
  intro s t hs h
  obtain ⟨-, -, -, -, -, hread, hdepth⟩ := step_inv hs h
  exact ⟨hread, hdepth⟩

/-- Settles O57: after reset nothing is encoded and no memory lists a word. -/
theorem resetMeetsInvariant : Obligations.ResetMeetsInvariant := by
  unfold Obligations.ResetMeetsInvariant
  intro p
  obtain ⟨hclear, hbounds, hlegal, hread⟩ := (State.resetWith p).instanceInv_applyReset
  exact ⟨⟨rfl, rfl, rfl, rfl⟩, hclear, hbounds, hlegal, ⟨rfl, rfl, fun h => absurd rfl h⟩, hread, fun _ _ => ⟨rfl, rfl⟩⟩

end Sys2Proof.Machine
end

section
/-! PROOFS. The legal CMD words, and the fields of a word and of PBUF: reading back what was written, what a write
leaves alone, and where slots lie (spec/30_encoding.md R71 to R76; spec/41_barrel.md R120 to R130). -/

namespace Sys2Proof

/-! ### The legal CMD words -/

section
variable {c : Word} {i : Instr}

/-- Bits 31:5 are zero exactly for the words below 0x20 (R71). -/
theorem mbzField_eq_zero_iff : mbzField c = 0 ↔ c.toNat < 0x20 := by
  rw [mbzField, ← BitVec.toNat_inj, BitVec.extractLsb'_toNat, Nat.shiftRight_eq_div_pow]
  have := c.isLt
  simp only [BitVec.ofNat_eq_ofNat, BitVec.toNat_ofNat]
  omega

theorem opcodeField_toNat (c : Word) : (opcodeField c).toNat = c.toNat % 0x20 := by
  rw [opcodeField, BitVec.extractLsb'_toNat, Nat.shiftRight_zero]

/-- A word decodes to a command exactly when bits 31:5 are zero and its opcode is the command's (R72). -/
theorem decode_eq_ok_iff : decode c = .ok i ↔ mbzField c = 0 ∧ opcodeField c = opcodeOf i := by
  by_cases hm : mbzField c = 0
  · rw [← instrOfOpcode_eq_some, decode]
    cases instrOfOpcode (opcodeField c) <;> simp [hm]
  · simp only [decode_of_mbzField_ne_zero hm, hm, reduceCtorEq, false_and]

theorem encode_toNat (i : Instr) : (encode i).toNat = (opcodeOf i).toNat :=
  BitVec.toNat_setWidth_of_le (by decide)

/-- The encoder's word is the only one that decodes to the command (R76). -/
theorem decode_eq_ok_iff_eq_encode : decode c = .ok i ↔ c = encode i := by
  constructor
  · intro h
    obtain ⟨hm, hop⟩ := decode_eq_ok_iff.1 h
    have hlt : c.toNat < 0x20 := mbzField_eq_zero_iff.1 hm
    apply BitVec.eq_of_toNat_eq
    rw [encode_toNat, ← hop, opcodeField_toNat, Nat.mod_eq_of_lt hlt]
  · rintro rfl
    exact decode_encode i

end

/-- Settles O3: a legal word is the encoder's word of its command, and the opcodes are those below 0x10. -/
theorem legalWordsNameOneCommand : Obligations.LegalWordsNameOneCommand := by
  unfold Obligations.LegalWordsNameOneCommand
  refine ⟨fun c i => decode_eq_ok_iff_eq_encode, fun c => ?_⟩
  constructor
  · rintro ⟨i, hi⟩
    rw [decode_eq_ok_iff_eq_encode.1 hi, encode_toNat]
    exact Nat.le_of_lt_succ (opcodeOf_lt i)
  · intro hc
    have hop : (opcodeField c).toNat < 0x10 := by rw [opcodeField_toNat]; omega
    obtain ⟨i, hi⟩ := exists_opcodeOf_eq hop
    exact ⟨i, decode_eq_ok_iff.2 ⟨mbzField_eq_zero_iff.2 (by omega), hi.symm⟩⟩

end Sys2Proof

namespace Sys2Proof.Machine

/-! ### A field of a word -/

section
variable {word v : Word} {off w : Nat}

/-- The field just written reads back, masked to its width (R123 a). -/
theorem extract_insertField_same (h : off + w ≤ 32) : extract (insertField word off w v) off w = v &&& mask w := by
  refine BitVec.eq_of_getLsbD_eq fun i hi => ?_
  rw [extract_getLsbD, insertField_getLsbD _ _ _ _ h, BitVec.getLsbD_and, mask_getLsbD]
  by_cases hiw : i < w
  · simp [hiw, hi]
  · simp [hiw]

/-- A disjoint field reads as before (R123 b). -/
theorem extract_insertField_disjoint (h : off + w ≤ 32) {off2 w2 : Nat}
    (hdis : ∀ b, off2 ≤ b → b < off2 + w2 → ¬(off ≤ b ∧ b < off + w)) :
    extract (insertField word off w v) off2 w2 = extract word off2 w2 := by
  refine BitVec.eq_of_getLsbD_eq fun i _ => ?_
  rw [extract_getLsbD, extract_getLsbD, insertField_getLsbD _ _ _ _ h]
  by_cases hiw : i < w2
  · rw [if_neg (hdis (off2 + i) (by omega) (by omega))]
  · simp [hiw]

/-- Writing back the field that stands there changes nothing (R123 c). -/
theorem insertField_extract_same (h : off + w ≤ 32) : insertField word off w (extract word off w) = word := by
  refine BitVec.eq_of_getLsbD_eq fun i _ => ?_
  rw [insertField_getLsbD _ _ _ _ h, extract_getLsbD]
  by_cases hin : off ≤ i ∧ i < off + w
  · simp [hin, show i - off < w by omega]
  · rw [if_neg hin]

/-- The field that is the whole word (R123 d). -/
theorem insertField_whole : insertField word 0 32 v = v := by
  refine BitVec.eq_of_getLsbD_eq fun i hi => ?_
  rw [insertField_getLsbD _ _ _ _ le_rfl, if_pos (by omega), Nat.sub_zero]

theorem extract_whole : extract word 0 32 = word := by
  refine BitVec.eq_of_getLsbD_eq fun i hi => ?_
  rw [extract_getLsbD, Nat.zero_add, decide_eq_true hi, Bool.true_and]

end

/-- Settles O12: the four laws bit by bit, from `extract_getLsbD` and `insertField_getLsbD`. -/
theorem extractInsertLaws : Obligations.ExtractInsertLaws := by
  unfold Obligations.ExtractInsertLaws
  intro word v off w _ _ hsum
  refine ⟨extract_insertField_same hsum, fun off2 w2 _ _ _ hdis => extract_insertField_disjoint hsum hdis,
    insertField_extract_same hsum, ?_⟩
  rintro rfl rfl
  exact ⟨insertField_whole, extract_whole⟩

/-! ### A field of PBUF -/

section
variable {s t : State} {pos w : Nat} {v : Word}

/-- Reading an undefined word of PBUF has one reason (20_memory.md R66). -/
theorem State.pbufWord_eq_error {j : Nat} {f : Fault} (h : s.pbufWord j = .error f) : f = .pbufUndefined := by
  unfold State.pbufWord at h
  split at h
  · split at h
    · cases h
    · exact (Except.error.inj h).symm
  · exact (Except.error.inj h).symm

theorem State.readField_eq_error {f : Fault} (h : s.readField pos w = .error f) : f = .pbufUndefined := by
  simp only [State.readField] at h
  split at h
  · split at h
    · cases h
    · next hf =>
      cases h
      exact State.pbufWord_eq_error hf
  · split at h
    · cases h
    · next hf =>
      cases h
      exact State.pbufWord_eq_error hf
    · next hf =>
      cases h
      exact State.pbufWord_eq_error hf

/-- A defined word of PBUF gives the bits of the buffer at its place (20_memory.md R56). -/
theorem State.bitAt_of_pbufWord {j p : Nat} {x : Word} (h : s.pbufWord j = .ok x) (hp : p / 32 = j) :
    s.pbuf.bitAt p = some (x.getLsbD (p % 32)) := by
  obtain ⟨-, hread⟩ := State.pbufWord_eq_ok.1 h
  rw [Memory.bitAt, hp, hread, Option.map_some]

/-- A field that reads lies in defined words, and its value is made of the buffer's bits (R127). -/
theorem State.bits_of_readField (hw1 : 1 ≤ w) (hw : w ≤ 32) (h : s.readField pos w = .ok v) :
    s.valid = true ∧ pos + w ≤ s.words.toNat * 32 ∧ v.toNat < 2 ^ w ∧
      ∀ i < w, s.pbuf.bitAt (pos + i) = some (v.getLsbD i) := by
  have hq := Nat.div_add_mod pos 32
  have hql := Nat.mod_lt pos (show 0 < 32 by decide)
  simp only [State.readField] at h
  split at h
  · next hfit =>
    split at h
    · next word hword =>
      cases h
      obtain ⟨⟨hvalid, hlt⟩, -⟩ := State.pbufWord_eq_ok.1 hword
      refine ⟨hvalid, by omega, extract_lt word _ hw, fun i hi => ?_⟩
      rw [State.bitAt_of_pbufWord hword (by omega), extract_getLsbD, decide_eq_true hi, Bool.true_and,
        show (pos + i) % 32 = pos % 32 + i by omega]
    · cases h
  · next hcross =>
    split at h
    · next low high hlow hhigh =>
      cases h
      obtain ⟨⟨hvalid, hlt⟩, -⟩ := State.pbufWord_eq_ok.1 hhigh
      have hbit : ∀ i, (extract low (pos % 32) (32 - pos % 32) |||
          shl32 (extract high 0 (w - (32 - pos % 32))) (32 - pos % 32)).getLsbD i =
            if i < 32 - pos % 32 then low.getLsbD (pos % 32 + i)
            else decide (i < w) && high.getLsbD (i - (32 - pos % 32)) := fun i => by
        rw [BitVec.getLsbD_or, extract_getLsbD, shl32, BitVec.getLsbD_shiftLeft, extract_getLsbD]
        by_cases hi : i < 32 - pos % 32
        · simp [hi]
        · by_cases hiw : i < w
          · simp [hi, hiw, show i < 32 by omega, show i - (32 - pos % 32) < w - (32 - pos % 32) by omega]
          · simp [hi, hiw, show ¬ i - (32 - pos % 32) < w - (32 - pos % 32) by omega]
      refine ⟨hvalid, by omega, Nat.lt_pow_two_of_testBit _ fun i hi => ?_, fun i hi => ?_⟩
      · rw [BitVec.testBit_toNat, hbit i, if_neg (by omega), decide_eq_false (by omega), Bool.false_and]
      · rw [hbit i]
        split
        · rw [State.bitAt_of_pbufWord hlow (by omega), show (pos + i) % 32 = pos % 32 + i by omega]
        · rw [State.bitAt_of_pbufWord hhigh (by omega), decide_eq_true hi, Bool.true_and,
            show (pos + i) % 32 = i - (32 - pos % 32) by omega]
    · cases h
    · cases h

/-- When a field reads, and as what (R127). -/
theorem State.readField_eq_ok_iff (hw1 : 1 ≤ w) (hw : w ≤ 32) :
    s.readField pos w = .ok v ↔ s.valid = true ∧ pos + w ≤ s.words.toNat * 32 ∧ v.toNat < 2 ^ w ∧
      ∀ i < w, s.pbuf.bitAt (pos + i) = some (v.getLsbD i) :=
  ⟨State.bits_of_readField hw1 hw, fun ⟨hvalid, hwords, hlow, hbits⟩ =>
    State.readField_of_bits s pos w v hw1 hw hvalid hwords hlow hbits⟩

/-- A field reads the same from two buffers that agree in its bits. -/
theorem State.readField_congr (hw1 : 1 ≤ w) (hw : w ≤ 32) (hvalid : t.valid = s.valid) (hwords : t.words = s.words)
    (hbits : ∀ i < w, t.pbuf.bitAt (pos + i) = s.pbuf.bitAt (pos + i)) : t.readField pos w = s.readField pos w := by
  have hiff : ∀ v, t.readField pos w = .ok v ↔ s.readField pos w = .ok v := fun v => by
    rw [State.readField_eq_ok_iff hw1 hw, State.readField_eq_ok_iff hw1 hw, hvalid, hwords]
    exact and_congr_right' (and_congr_right' (and_congr_right' (forall₂_congr fun i hi => by rw [hbits i hi])))
  cases hs : s.readField pos w with
  | ok v => exact (hiff v).2 hs
  | error f =>
    cases ht : t.readField pos w with
    | ok v => rw [(hiff v).1 ht] at hs; cases hs
    | error g => rw [State.readField_eq_error hs, State.readField_eq_error ht]

end

/-- Settles O13: a field write sets the bits of its field and no other (`bitAt_writeField`), and a read depends on the
bits of its field alone (`readField_eq_ok_iff`). -/
theorem fieldWriteReadsBack : Obligations.FieldWriteReadsBack := by
  unfold Obligations.FieldWriteReadsBack
  rintro s pos w v hw1 hw ⟨x, hx⟩
  obtain ⟨hvalid, hwords, -, hbits⟩ := State.bits_of_readField hw1 hw hx
  refine ⟨(State.readField_eq_ok_iff hw1 hw).2 ⟨hvalid, hwords, ?_, fun i hi => ?_⟩, fun pos2 w2 hw21 hw2 hdis => ?_⟩
  · rw [toNat_and_mask v hw]
    exact Nat.mod_lt _ (Nat.two_pow_pos w)
  · rw [Memory.bitAt_writeField _ _ _ _ hw, if_pos (by omega), hbits i hi, Nat.add_sub_cancel_left,
      BitVec.getLsbD_and, mask_getLsbD]
    simp [hi, show i < 32 by omega]
  · refine State.readField_congr hw21 hw2 rfl rfl fun i hi => ?_
    rw [Memory.bitAt_writeField _ _ _ _ hw, if_neg (by omega)]

/-! ### Slot positions -/

/-- Settles O14: an aligned slot starts in its word and fits it (`slotPos_aligned_fits`); a contiguous one is at most a
word wide. -/
theorem slotsCrossOnlyWhenContiguous : Obligations.SlotsCrossOnlyWhenContiguous := by
  unfold Obligations.SlotsCrossOnlyWhenContiguous
  intro i w h1 h2
  have hfit : i % (32 / w) * w + w ≤ 32 := slotPos_aligned_fits i h1 h2
  have haligned : slotPos .alignedClass i w = i / (32 / w) * 32 + i % (32 / w) * w := rfl
  have hcontig : slotPos .contigClass i w = i * w := rfl
  rw [haligned, hcontig]
  exact ⟨by omega, by omega, hfit, rfl, by omega, by omega⟩

end Sys2Proof.Machine
end

section
/-! PROOFS. What one step of the host does: the CMD write, operand and VIN writes, reads, the reset input, and the words
the host reads from the registers (spec/10_state.md R20 to R35; spec/20_memory.md R51 to R54). -/

namespace Sys2Proof.Machine

/-! ### The next host event -/

section
variable {s : State} {rest : List Event}

theorem step_of_access {a : Access} (h : s.pending = .access a :: rest) :
    step s = performAccess { s with pending := rest } a := by
  rw [step, nextEvent, h]
  rfl

theorem step_of_reset (h : s.pending = .reset :: rest) :
    step s = .next (State.applyReset { s with pending := rest }) := by
  rw [step, nextEvent, h]
  rfl

/-- A step that writes a command's word to CMD runs the command (30_encoding.md R71, R84). -/
theorem step_of_cmd_write {c : Word} {i : Instr} (hb : s.busy = false)
    (hp : s.pending = .access (.wr cmdAddr c) :: rest) (hd : decode c = .ok i) :
    step s = exec i { s with pending := rest, busy := true } := by
  rw [step_of_access hp, performAccess_wr_cmd (by exact hb), runCommand_of_decode_ok hd]
  rfl

end

/-- Settles O1: the decoder computes on each word. -/
theorem decodeReadsSpecWords : Obligations.DecodeReadsSpecWords := by
  unfold Obligations.DecodeReadsSpecWords
  decide

/-- Settles O4: `step_of_cmd_write` for a CMD write that the host or `withFetchWord` places, `step_of_access` for any
access. -/
theorem stepRunsDecodedCommand : Obligations.StepRunsDecodedCommand := by
  unfold Obligations.StepRunsDecodedCommand
  refine ⟨fun s c i rest hb hp hd _ => step_of_cmd_write hb hp hd, fun s a rest => step_of_access, fun s i hb => ?_⟩
  have hword : BitVec.ofNat 32 ((encode i).toNat % 2 ^ 32) = encode i := by
    rw [Nat.mod_eq_of_lt (encode i).isLt, BitVec.ofNat_toNat, BitVec.setWidth_eq]
  rw [State.withFetchWord, hword]
  exact step_of_cmd_write hb (State.placeCommand_pending s (encode i)) (decode_encode i)

/-- Settles O5: `nextEvent` keeps the state when no event is to come. -/
theorem idleStepKeepsState : Obligations.IdleStepKeepsState := by
  unfold Obligations.IdleStepKeepsState
  exact fun s h => step_eq_next.2 (.inl ⟨h, rfl⟩)

/-- Settles O56: `State.applyReset` is the reset state with the fields of the host kept. -/
theorem resetInputRestoresResetState : Obligations.ResetInputRestoresResetState := by
  unfold Obligations.ResetInputRestoresResetState
  exact fun s rest h => step_of_reset h

/-! ### Host writes -/

/-- A host write to an operand register stores the word (10_state.md R25). -/
theorem performAccess_wr_arg {s : State} {addr : Word} {r : ArgReg} (hb : s.busy = false) (hsp : spaceOf addr = 0)
    (hr : regAt (indexOf addr) = some (.arg r)) (data : Word) :
    performAccess s (.wr addr data) = .next (s.setArg r data) := by
  rw [performAccess_wr_of_idle hb, portWrite_of_regAt_some hsp hr, writeReg]

/-- A host write to VIN stores the word (20_memory.md R51). -/
theorem performAccess_wr_vin {s : State} {addr : Word} (hb : s.busy = false) (hsp : spaceOf addr = 1)
    (hi : indexOf addr < s.params.nMax.toNat) (data : Word) :
    performAccess s (.wr addr data) = .next { s with vin := s.vin.write (indexOf addr) data } := by
  rw [performAccess_wr_of_idle hb, portWrite, hsp]
  exact if_pos hi

/-- Settles O45: one equation per kind of write, and `Memory.write` changes one index. -/
theorem hostWritesStoreOneWord : Obligations.HostWritesStoreOneWord := by
  unfold Obligations.HostWritesStoreOneWord
  intro s data hb
  refine ⟨performAccess_wr_arg hb (r := .arg0) (by decide) (by decide) data,
    performAccess_wr_arg hb (r := .arg1) (by decide) (by decide) data,
    performAccess_wr_arg hb (r := .arg2) (by decide) (by decide) data,
    performAccess_wr_arg hb (r := .arg3) (by decide) (by decide) data, fun i hi => ?_⟩
  refine ⟨s.vin.write i.toNat data, ?_, Memory.read_write_same .., fun j hj => Memory.read_write_other _ _ _ _ hj⟩
  rw [performAccess_wr_vin hb (by simp) (by simpa using hi), indexOf_append]

/-! ### Host reads -/

/-- The words the host has read are no part of what a read answers (20_memory.md R54). -/
theorem portRead_observed (s : State) (ws : List Word) (addr : Word) :
    portRead { s with observed := ws } addr = portRead s addr := by
  have hreg : ∀ r, readReg { s with observed := ws } r = readReg s r := fun r => by cases r <;> rfl
  simp only [portRead, hreg]
  rfl

/-- Settles O47: a read that answers is a `hostRead`, which adds the port's word to those the host has read. -/
theorem readsHaveNoSideEffects : Obligations.ReadsHaveNoSideEffects := by
  unfold Obligations.ReadsHaveNoSideEffects
  intro s t addr h
  rw [performAccess] at h
  split at h
  · cases h
  · obtain ⟨w, hw, rfl⟩ := hostRead_eq_next.1 h
    exact ⟨w, hw, rfl, (portRead_observed s _ addr).trans hw⟩

/-- Settles O48: the register map gives each index its register, and a narrow register is zero-extended. -/
theorem registerReadsReturnState : Obligations.RegisterReadsReturnState := by
  unfold Obligations.RegisterReadsReturnState
  intro s
  have hread : ∀ (addr : Word) (r : Reg), spaceOf addr = 0 → regAt (indexOf addr) = some r →
      portRead s addr = .next (readReg s r) := fun addr r hsp hr => portRead_of_regAt_some hsp hr
  simp only [BitVec.ofNat_toNat]
  refine ⟨hread _ (.arg .arg0) (by decide) (by decide), hread _ (.arg .arg1) (by decide) (by decide),
    hread _ (.arg .arg2) (by decide) (by decide), hread _ (.arg .arg3) (by decide) (by decide),
    hread _ .result (by decide) (by decide), ?_, hread _ .n (by decide) (by decide), hread _ .k (by decide) (by decide),
    hread _ .words (by decide) (by decide), hread _ .ovtM (by decide) (by decide),
    hread _ .smallW (by decide) (by decide), hread _ .idxW (by decide) (by decide),
    hread _ .ew (by decide) (by decide), hread _ .hbits (by decide) (by decide)⟩
  rw [hread _ .mode (by decide) (by decide), readReg]
  cases s.mode <;> rfl

/-- The flags of the STATUS word (10_state.md R27). -/
theorem statusWord_flags (s : State) :
    (statusWord s).getLsbD 0 = s.busy ∧ (statusWord s).getLsbD 1 = s.valid ∧ (statusWord s).getLsbD 2 = s.cross ∧
      (statusWord s).getLsbD 3 = s.faultSeen ∧ (statusWord s).getLsbD 4 = s.configured ∧
      (statusWord s).getLsbD 5 = s.deleg := by
  simp only [statusWord, flagBit, BitVec.getLsbD_append, BitVec.getLsbD_ofBool]
  exact ⟨rfl, rfl, rfl, rfl, rfl, rfl⟩

/-- The report in the STATUS word, and the reserved fields around it (10_state.md R27). -/
theorem statusWord_report (s : State) :
    (statusWord s).extractLsb' 6 2 = 0 ∧ (statusWord s).extractLsb' 8 4 = errCode s.err ∧
      (statusWord s).extractLsb' 12 4 = 0 ∧ (statusWord s).extractLsb' 16 8 = causeCode s.cause ∧
      (statusWord s).extractLsb' 24 8 = 0 := by
  unfold statusWord
  simp (disch := decide) only [BitVec.extractLsb'_append_eq_of_le]
  exact ⟨BitVec.extractLsb'_append_eq_right, BitVec.extractLsb'_append_eq_right, BitVec.extractLsb'_append_eq_right,
    BitVec.extractLsb'_append_eq_right, BitVec.extractLsb'_eq_self⟩

/-- Settles O49: the fields of the STATUS word by their places, and a write to a read-only register. -/
theorem statusWordFields : Obligations.StatusWordFields := by
  unfold Obligations.StatusWordFields
  intro s
  obtain ⟨hbusy, hvalid, hcross, hseen, hconfigured, hdeleg⟩ := statusWord_flags s
  exact ⟨⟨statusWord s, portRead_of_regAt_some (r := .status) (by decide) (by decide), hbusy, hvalid, hcross, hseen,
    hconfigured, hdeleg, statusWord_report s⟩,
    fun data hb => performAccess_wr_readOnly hb (i := 0x06#28) (by decide) (by decide) data⟩

/-! ### Tables of the spec -/

/-- Settles O50: the codes compute. -/
theorem errorCodesAsListed : Obligations.ErrorCodesAsListed := by
  unfold Obligations.ErrorCodesAsListed
  decide

/-- Settles O54: the expansion and the listing compute. -/
theorem commandFormExpandsAsListed : Obligations.CommandFormExpandsAsListed := by
  unfold Obligations.CommandFormExpandsAsListed
  decide

end Sys2Proof.Machine
end

section
/-! PROOFS. COMPRESS: its answer in each case, in the order of the tests, and what follows of the state it leaves
(spec/42_contract.md R150 to R153, R159, R160; spec/20_memory.md R57; spec/43_aligned.md R170 to R176). -/

namespace Sys2Proof.Machine

/-! ### The answers of COMPRESS, in the order of its tests -/

section
variable {s : State} {vals : List Word} {p : Plan}

theorem exec_compress_of_length (hc : s.configured = true) (hl : s.arg0 ≠ s.n) :
    exec .compress s = .next (s.afterFailedCompress .invalidArgument .argLength) := by
  rw [exec, execCompress, if_neg (by simp [hc]), State.argU32_arg0, if_pos (fun h => hl (BitVec.eq_of_toNat_eq h))]
  rfl

section
variable (hc : s.configured = true) (hl : s.arg0 = s.n)
include hc hl

theorem exec_compress_of_unwritten (hv : s.inputs = none) : exec .compress s = .fault .compressVinUnwritten := by
  rw [exec, execCompress, if_neg (by simp [hc]), State.argU32_arg0, if_neg (by simp [hl]), hv]

/-- With an instance and the right length, the values in VIN decide. -/
theorem exec_compress_of_inputs (hv : s.inputs = some vals) : exec .compress s = compressValues s vals := by
  rw [exec, execCompress, if_neg (by simp [hc]), State.argU32_arg0, if_neg (by simp [hl]), hv]

theorem exec_compress_of_negative (hv : s.inputs = some vals) (hm : s.mode ≠ .noCrossing)
    (hneg : vals.any Word.negative = true) :
    exec .compress s = .next (s.afterFailedCompress .invalidArgument .argNegative) := by
  rw [exec_compress_of_inputs hc hl hv]
  exact if_pos ⟨hm, hneg⟩

theorem exec_compress_of_pbufFull (hv : s.inputs = some vals)
    (hn : s.mode = .noCrossing ∨ vals.any Word.negative = false) (hp : plan s.params s.mode s.k.toNat vals = .ok p)
    (hw : s.params.pbufWords.toNat < p.words) :
    exec .compress s = .next (s.afterFailedCompress .capacity .pbufFull) := by
  have hneg : ¬(s.mode ≠ .noCrossing ∧ vals.any Word.negative = true) := by
    obtain h | h := hn <;> simp [h]
  rw [exec_compress_of_inputs hc hl hv]
  simp only [compressValues, if_neg hneg, hp, if_pos hw]
  rfl

end

/-- No values are read when one of them was never written (20_memory.md R69). -/
theorem State.inputs_eq_none : s.inputs = none ↔ ∃ i < s.n.toNat, s.vin.read i = none := by
  constructor
  · intro hnone
    by_contra hall
    push Not at hall
    have hsome : ∀ i, i < s.n.toNat → ∃ v, s.vin.read i = some v := fun i hi => Option.ne_none_iff_exists'.1 (hall i hi)
    choose f hf using hsome
    have hinputs : s.inputs = some (List.ofFn fun i : Fin s.n.toNat => f i i.isLt) :=
      State.inputs_eq_some.2 ⟨by simp, fun i hi => by simp [hi, hf i hi]⟩
    rw [hinputs] at hnone
    cases hnone
  · rintro ⟨i, hi, hnone⟩
    cases hv : s.inputs with
    | none => rfl
    | some vals =>
      obtain ⟨hlen, hread⟩ := State.inputs_eq_some.1 hv
      have hlt : i < vals.length := hlen.symm ▸ hi
      rw [hread i hi, List.getElem?_eq_getElem hlt] at hnone
      cases hnone

end

/-- The answers of COMPRESS and when each is given (R150, R151). -/
inductive CompressOutcome (s : State) : Host.Outcome State Fault Refusal → Prop where
  | notConfigured : s.configured = false →
      CompressOutcome s (.next (s.afterFailedCompress .illegalCommand .notConfigured))
  | length : s.configured = true → s.arg0 ≠ s.n →
      CompressOutcome s (.next (s.afterFailedCompress .invalidArgument .argLength))
  | unwritten : s.configured = true → s.arg0 = s.n → s.inputs = none →
      CompressOutcome s (.fault .compressVinUnwritten)
  | negative (vals : List Word) : s.configured = true → s.arg0 = s.n → s.inputs = some vals →
      s.mode ≠ .noCrossing → vals.any Word.negative = true →
      CompressOutcome s (.next (s.afterFailedCompress .invalidArgument .argNegative))
  | noPlan (vals : List Word) (c : Cause) : s.configured = true → s.arg0 = s.n → s.inputs = some vals →
      s.mode = .noCrossing ∨ vals.any Word.negative = false → plan s.params s.mode s.k.toNat vals = .error c →
      CompressOutcome s (.next (s.afterFailedCompress (classOf c) c))
  | pbufFull (vals : List Word) (p : Plan) : s.configured = true → s.arg0 = s.n → s.inputs = some vals →
      s.mode = .noCrossing ∨ vals.any Word.negative = false → plan s.params s.mode s.k.toNat vals = .ok p →
      s.params.pbufWords.toNat < p.words → CompressOutcome s (.next (s.afterFailedCompress .capacity .pbufFull))
  | installed (vals : List Word) (p : Plan) : s.configured = true → s.arg0 = s.n → s.inputs = some vals →
      s.mode = .noCrossing ∨ vals.any Word.negative = false → plan s.params s.mode s.k.toNat vals = .ok p →
      p.words ≤ s.params.pbufWords.toNat → CompressOutcome s (.next (s.install p).complete)

theorem exec_compress_outcome (s : State) : CompressOutcome s (exec .compress s) := by
  cases hc : s.configured with
  | false =>
    rw [exec_compress_of_unconfigured hc]
    exact .notConfigured hc
  | true =>
    by_cases hl : s.arg0 = s.n
    · cases hv : s.inputs with
      | none =>
        rw [exec_compress_of_unwritten hc hl hv]
        exact .unwritten hc hl hv
      | some vals =>
        by_cases hneg : s.mode ≠ .noCrossing ∧ vals.any Word.negative = true
        · rw [exec_compress_of_negative hc hl hv hneg.1 hneg.2]
          exact .negative vals hc hl hv hneg.1 hneg.2
        · have hn : s.mode = .noCrossing ∨ vals.any Word.negative = false := by
            rwa [not_and_or, not_not, Bool.not_eq_true] at hneg
          cases hp : plan s.params s.mode s.k.toNat vals with
          | error c =>
            rw [execCompress_of_plan_error hc hl hv hn hp]
            exact .noPlan vals c hc hl hv hn hp
          | ok p =>
            by_cases hw : p.words ≤ s.params.pbufWords.toNat
            · rw [execCompress_of_plan hc (by rw [hl]) hv hn hp hw]
              exact .installed vals p hc hl hv hn hp hw
            · rw [exec_compress_of_pbufFull hc hl hv hn hp (Nat.not_le.1 hw)]
              exact .pbufFull vals p hc hl hv hn hp (Nat.not_le.1 hw)
    · rw [exec_compress_of_length hc hl]
      exact .length hc hl

/-- The negative check as the statements make it. -/
theorem valuesPass_iff {mode : Mode} {vals : List Word} :
    (mode = .noCrossing ∨ vals.any Word.negative = false) ↔ (mode = .noCrossing ∨ ∀ v ∈ vals, 0 ≤ v.toInt) :=
  or_congr_right any_negative_eq_false_iff

/-- Settles O19: one equation of `exec .compress` per clause. -/
theorem compressFailsInOrder : Obligations.CompressFailsInOrder := by
  unfold Obligations.CompressFailsInOrder
  intro s hc
  refine ⟨exec_compress_of_length hc, fun hl => ⟨fun hnone => ?_, fun vals hlen hread => ⟨fun hm hneg => ?_,
    fun hn => ⟨fun c hp => ?_, fun p hp hw => ?_⟩⟩⟩⟩
  · exact exec_compress_of_unwritten hc hl (State.inputs_eq_none.2 hnone)
  all_goals have hv : s.inputs = some vals := State.inputs_eq_some.2 ⟨hlen, hread⟩
  · exact exec_compress_of_negative hc hl hv hm (by simpa [Word.negative, Word.s32] using hneg)
  · have hclass : classOf c = .capacity := by obtain rfl | rfl := plan_error hp <;> rfl
    rw [execCompress_of_plan_error hc hl hv (valuesPass_iff.2 hn) hp, hclass]
  · exact exec_compress_of_pbufFull hc hl hv (valuesPass_iff.2 hn) hp hw

/-- Settles O20: `execCompress_of_plan` installs the plan, whose buffer starts from words of zero. -/
theorem compressInstallsPlan : Obligations.CompressInstallsPlan := by
  unfold Obligations.CompressInstallsPlan
  intro s vals p hc hl hlen hread hn hp hw
  have hv : s.inputs = some vals := State.inputs_eq_some.2 ⟨hlen, hread⟩
  refine ⟨p.buffer, Memory.ofWordsFrom 0 p.table,
    execCompress_of_plan hc (by rw [hl]) hv (valuesPass_iff.2 hn) hp hw, fun j => ?_, p.isSome_read_buffer,
    Memory.zeros p.words, Memory.read_zeros p.words, rfl⟩
  simp [Memory.read_ofWordsFrom]

/-! ### Mode 0 -/

theorem planAligned_words {k : Nat} (h1 : 1 ≤ k) (h2 : k ≤ 32) (vals : List Word) :
    (planAligned k vals).words = (vals.length + 32 / k - 1) / (32 / k) := ceilDiv_eq_div _ (vpw_pos h1 h2)

/-- The slots of mode 0 are the data's values from slot 0 on (R171, R174). -/
theorem planAligned_writes (k : Nat) (vals : List Word) :
    (planAligned k vals).writes = valueFields .alignedClass k 0 vals :=
  slotWrites_eq_valueFields .alignedClass k 0 vals

/-- Settles O22: mode 0 installs `planAligned`, whose numbers fit their registers since its words fit PBUF. -/
theorem alignedCompressRegisters : Obligations.AlignedCompressRegisters := by
  unfold Obligations.AlignedCompressRegisters
  intro s vals hc hm h1 h2 hl hlen hread hfit
  rw [← hlen, ← planAligned_words h1 h2] at hfit ⊢
  have hgood : (planAligned s.k.toNat vals).Good s.params vals := planAligned_good h1 h2 vals
  obtain ⟨hwords32, -⟩ := Plan.size_lt_of_le_pbufWords hgood hfit
  obtain ⟨-, hwords, -, -, hhbits⟩ := hgood.install_toNat hfit
  have hpacks := Plan.packsExactly_install s (planAligned s.k.toNat vals) hgood.placeable hwords32
  rw [planAligned_writes] at hpacks
  have hk : BitVec.ofNat 6 s.k.toNat = s.k := by simp
  have hv : s.inputs = some vals := State.inputs_eq_some.2 ⟨hlen, hread⟩
  exact ⟨_, execCompress_of_plan hc (by rw [hl]) hv (.inl hm) (by rw [hm, plan]) hfit, rfl, rfl, hk, rfl, rfl, hwords,
    hhbits.trans (congrArg (· * 32) hwords.symm), rfl, rfl, rfl, rfl, hpacks⟩

/-! ### The capacity bounds -/

/-- A table that overflows OVT_MAX is that of more values than OVT_MAX (45_overflow.md R217; 46_search.md R251). -/
theorem ovtMax_lt_of_plan_ovtFull {params : Params} {mode : Mode} {k : Nat} {vals : List Word}
    (h : plan params mode k vals = .error .ovtFull) : params.ovtMax.toNat < vals.length := by
  have hfixed : ∀ {cls cross}, planFixed params cls cross k vals = .error .ovtFull →
      params.ovtMax.toNat < vals.length := by
    intro cls cross h
    obtain ⟨⟨new, hnew, hlen⟩, -⟩ := splitFixed_spec params.ovfDedup (k - 1) [] vals
    rw [splitFixed_table, List.nil_append] at hnew
    rw [planFixed_eq, hnew] at h
    split at h
    · cases h
    · split at h
      · omega
      · cases h
  have hsearch : ∀ {cls cross}, planSearch params cls cross vals = .error .ovtFull →
      params.ovtMax.toNat < vals.length := by
    intro cls cross h
    cases hsel : selectSplit cls vals with
    | none => rw [planSearch_of_selectSplit_none hsel] at h; cases h
    | some c =>
      obtain ⟨-, bb, -, -, rfl⟩ := selectSplit_eq_some hsel
      rw [planSearch_of_selectSplit_some hsel] at h
      split at h
      · next hlt => exact hlt.trans_le (largeValues_length_le bb vals)
      · cases h
  cases mode with
  | noCrossing | crossing => cases h
  | overflowNoCrossing | overflowCrossing => exact hfixed h
  | searchNoCrossing | searchCrossing => exact hsearch h

/-- Settles O30: no plan takes more than two words a value (`plan_good`), and no table more entries than there are
values. -/
theorem capacityBoundsSuffice : Obligations.CapacityBoundsSuffice := by
  unfold Obligations.CapacityBoundsSuffice
  intro s t hnmax hk32 hk1 hexec
  have hwords : ∀ vals p, s.inputs = some vals → plan s.params s.mode s.k.toNat vals = .ok p →
      p.words ≤ 2 * s.n.toNat := by
    intro vals p hv hp
    obtain ⟨hlen, -⟩ := State.inputs_eq_some.1 hv
    have hgood := plan_good (hlen ▸ hnmax.trans_lt s.params.nMax.isLt) hk1 hk32 hp
    exact hgood.words_le.trans_eq (by rw [hlen])
  have houtcome := exec_compress_outcome s
  rw [hexec] at houtcome
  refine ⟨fun vals p hv hn hp => ⟨hwords vals p hv hp, fun hc hl hw => ?_⟩, fun hpbuf => ?_, fun hovt => ?_⟩
  · have hfull := exec_compress_of_pbufFull hc hl hv (valuesPass_iff.2 hn) hp hw
    obtain rfl := Host.Outcome.next.inj (hexec.symm.trans hfull)
    rfl
  · cases houtcome with
    | notConfigured | length | negative | installed => nofun
    | noPlan vals c _ _ _ _ hp =>
      obtain rfl | rfl := plan_error hp <;> nofun
    | pbufFull vals p _ _ hv _ hp hw =>
      have := hwords vals p hv hp
      omega
  · cases houtcome with
    | notConfigured | length | negative | installed | pbufFull => nofun
    | noPlan vals c _ _ hv _ hp =>
      rintro rfl
      obtain ⟨hlen, -⟩ := State.inputs_eq_some.1 hv
      have := ovtMax_lt_of_plan_ovtFull hp
      omega

/-! ### What a COMPRESS does not read -/

/-- Only the modes that keep the width of CFG read it (R152). -/
theorem plan_congr_width {params : Params} {mode : Mode} {k k' : Nat} {vals : List Word}
    (h : KeepsWidth mode → k' = k) : plan params mode k' vals = plan params mode k vals := by
  cases mode with
  | noCrossing | overflowNoCrossing | overflowCrossing => rw [h (by simp [KeepsWidth])]
  | crossing | searchNoCrossing | searchCrossing => rfl

/-- Two states agree in what a COMPRESS leaves; K and CROSS count on success, since a failure keeps them. -/
def State.SameCompressed (t t' : State) : Prop :=
  t'.pbuf = t.pbuf ∧ t'.ovt = t.ovt ∧ t'.valid = t.valid ∧ t'.deleg = t.deleg ∧ t'.words = t.words ∧
    t'.ovtM = t.ovtM ∧ t'.smallW = t.smallW ∧ t'.idxW = t.idxW ∧ t'.ew = t.ew ∧ t'.hbits = t.hbits ∧
    t'.err = t.err ∧ t'.cause = t.cause ∧ (t.err = .ok → t'.k = t.k ∧ t'.cross = t.cross)

theorem State.sameCompressed_install (s u : State) (p : Plan) :
    (s.install p).complete.SameCompressed (u.install p).complete :=
  ⟨rfl, rfl, rfl, rfl, rfl, rfl, rfl, rfl, rfl, rfl, rfl, rfl, fun _ => ⟨rfl, rfl⟩⟩

theorem State.sameCompressed_failed (s u : State) {e : ErrClass} (c : Cause) (he : e ≠ .ok) :
    (s.afterFailedCompress e c).SameCompressed (u.afterFailedCompress e c) :=
  ⟨rfl, rfl, rfl, rfl, rfl, rfl, rfl, rfl, rfl, rfl, rfl, rfl, fun h => absurd h he⟩

/-- Settles O32: the earlier encoding is overwritten unread; two states that agree in what COMPRESS reads meet the same
case of `CompressOutcome`. -/
theorem compressIgnoresEarlierEncoding : Obligations.CompressIgnoresEarlierEncoding := by
  unfold Obligations.CompressIgnoresEarlierEncoding
  refine ⟨fun s pbuf ovt words ovtM hbits smallW idxW ew valid deleg => rfl, ?_⟩
  intro s u hparams hmode hn harg hvin hconf hk
  have hinputs : u.inputs = s.inputs := by rw [State.inputs, State.inputs, hvin, hn]
  have hplan : ∀ vals, plan u.params u.mode u.k.toNat vals = plan s.params s.mode s.k.toNat vals := fun vals => by
    rw [hparams, hmode]
    exact plan_congr_width fun hm => by rw [hk hm]
  have houtcome := exec_compress_outcome s
  refine ⟨fun f hf => ?_, fun t ht => ?_⟩
  · rw [hf] at houtcome
    cases houtcome with
    | unwritten hc hl hv => exact exec_compress_of_unwritten (hconf.trans hc) (by rw [harg, hn, hl]) (hinputs.trans hv)
  · rw [ht] at houtcome
    cases houtcome with
    | notConfigured hc => exact ⟨_, exec_compress_of_unconfigured (hconf.trans hc), s.sameCompressed_failed u _ nofun⟩
    | length hc hl =>
      exact ⟨_, exec_compress_of_length (hconf.trans hc) (by rwa [harg, hn]), s.sameCompressed_failed u _ nofun⟩
    | negative vals hc hl hv hm hneg =>
      exact ⟨_, exec_compress_of_negative (hconf.trans hc) (by rw [harg, hn, hl]) (hinputs.trans hv) (hmode ▸ hm) hneg,
        s.sameCompressed_failed u _ nofun⟩
    | noPlan vals c hc hl hv hneg hp =>
      refine ⟨_, execCompress_of_plan_error (hconf.trans hc) (by rw [harg, hn, hl]) (hinputs.trans hv) (hmode ▸ hneg)
        ((hplan vals).trans hp), s.sameCompressed_failed u _ ?_⟩
      obtain rfl | rfl := plan_error hp <;> nofun
    | pbufFull vals p hc hl hv hneg hp hw =>
      exact ⟨_, exec_compress_of_pbufFull (hconf.trans hc) (by rw [harg, hn, hl]) (hinputs.trans hv) (hmode ▸ hneg)
        ((hplan vals).trans hp) (hparams ▸ hw), s.sameCompressed_failed u _ nofun⟩
    | installed vals p hc hl hv hneg hp hw =>
      exact ⟨_, execCompress_of_plan (hconf.trans hc) (by rw [harg, hn, hl]) (hinputs.trans hv) (hmode ▸ hneg)
        ((hplan vals).trans hp) (hparams ▸ hw), s.sameCompressed_install u p⟩

end Sys2Proof.Machine
end

section
/-! PROOFS. The candidates of the search: their large values, widths, header and cost (spec/46_search.md R241 to
R245). -/

namespace Sys2Proof.Machine

section
variable {vals : List Word} {bb : Nat}

/-- Below the width of the data the greatest value is large (R241, R243). -/
theorem maxVal_mem_largeOf (h1 : 1 ≤ bb) (hbb : bb < dataBits vals) : maxVal vals ∈ largeOf bb vals := by
  have hpos : 0 < (maxVal vals).s32 := by
    by_contra hle
    have : dataBits vals = 1 := bitsReq_nonpos (Int.not_lt.1 hle)
    omega
  have hne : vals ≠ [] := by
    rintro rfl
    exact absurd hpos (by decide)
  have hpow : 2 ^ bb ≤ 2 ^ (dataBits vals - 1) := Nat.pow_le_pow_right Nat.two_pos (Nat.le_sub_one_of_lt hbb)
  exact List.mem_filter.2 ⟨maxVal_mem hne, by simpa using hpow.trans (two_pow_bitsReq_sub_one_le hpos)⟩

/-- No value needs more bits than the data (R109, R241). -/
theorem bitsReq_le_dataBits (hn : vals.any Word.negative = false) {v : Word} (hv : v ∈ vals) :
    bitsReq v ≤ dataBits vals := by
  by_cases hpos : 0 < v.s32
  · obtain ⟨heq, -⟩ := toNat_of_s32_pos hpos
    rw [bitsReq_le_iff hpos, heq]
    exact_mod_cast lt_two_pow_dataBits hn hv
  · rw [bitsReq_nonpos (Int.not_lt.1 hpos)]
    exact (bitsReq_range _).1

theorem maxBitsReq_le_of_forall_le {us : List Word} {w : Nat} (h : ∀ v ∈ us, bitsReq v ≤ w) : maxBitsReq us ≤ w := by
  suffices hfold : ∀ a ≤ w, us.foldl (fun a v => max a (bitsReq v)) a ≤ w from hfold 0 (Nat.zero_le w)
  induction us with
  | nil => exact fun a ha => ha
  | cons v us ih =>
    rw [List.forall_mem_cons] at h
    exact fun a ha => ih h.2 _ (max_le ha h.1)

/-- The entries of a candidate are as wide as the data, since the greatest value is one of them (R243). -/
theorem candidate_kOv (cls : LayoutClass) (hn : vals.any Word.negative = false) (h1 : 1 ≤ bb)
    (hbb : bb < dataBits vals) : (candidate cls vals bb).kOv = dataBits vals := by
  show maxBitsReq (largeValues bb vals) = dataBits vals
  rw [largeValues_eq_largeOf]
  apply Nat.le_antisymm
  · exact maxBitsReq_le_of_forall_le fun v hv => bitsReq_le_dataBits hn (List.mem_filter.1 hv).1
  · exact bitsReq_le_maxBitsReq (maxVal_mem_largeOf h1 hbb)

end

/-- Settles O27: the width of the data by `lt_two_pow_dataBits` and `dataBits_eq_one_or_exists_le`; a candidate's widths
by `candidate_kOv`, `candidate_widths` and `ceilLog2_le_iff`. -/
theorem everyCandidateHasLargeValue : Obligations.EveryCandidateHasLargeValue := by
  unfold Obligations.EveryCandidateHasLargeValue
  intro cls vals hnonneg hlen
  have hn : vals.any Word.negative = false := any_negative_eq_false_iff.2 hnonneg
  obtain ⟨hlo, hhi⟩ : 1 ≤ dataBits vals ∧ dataBits vals ≤ 31 := bitsReq_range (maxVal vals)
  refine ⟨⟨hlo, hhi, fun v => lt_two_pow_dataBits hn, dataBits_eq_one_or_exists_le vals⟩, fun bb h1 hbb => ?_⟩
  have hlarge : (candidate cls vals bb).large = largeOf bb vals := largeValues_eq_largeOf bb vals
  have hidx : (candidate cls vals bb).idxBits = ceilLog2 (largeOf bb vals).length :=
    congrArg (fun large => ceilLog2 (List.length large)) hlarge
  have hkOv := candidate_kOv cls hn h1 hbb
  obtain ⟨hwidth, -, hwidth32⟩ := candidate_widths cls hlen hbb
  have hcount : (largeOf bb vals).length ≤ 2 ^ (candidate cls vals bb).idxBits := hidx ▸ le_two_pow_ceilLog2 _
  have hpayload : 2 ^ (candidate cls vals bb).idxBits ≤ 2 ^ ((candidate cls vals bb).slotWidth - 1) :=
    Nat.pow_le_pow_right Nat.two_pos (by omega)
  refine ⟨rfl, hlarge, List.length_pos_of_mem (maxVal_mem_largeOf h1 hbb), hkOv, by omega, hcount,
    fun w hw => hidx ▸ (ceilLog2_le_iff _ w).2 hw, hwidth, hwidth32, hcount.trans hpayload, ?_, ?_, ?_⟩
  · rintro rfl
    rfl
  · rintro rfl
    exact congrArg (· * 32) (slotWords_alignedClass vals.length (by omega) hwidth32)
  · rw [← hkOv, ← hlarge]
    rfl

end Sys2Proof.Machine
end

section
/-! PROOFS. The accessors and DECOMPRESS, the sizes a COMPRESS leaves, and where a command may fault
(spec/42_contract.md R144 to R148, R156, R158, R160; spec/70_reset_and_hazards.md section 3). -/

namespace Sys2Proof.Machine

/-! ### The accessors -/

section
variable {s : State} (hc : s.configured = true)
include hc

theorem exec_cbitlen_of_configured :
    exec .cbitlen s = .next (s.afterResult (BitVec.ofNat 32 (s.words.toNat * 32))) :=
  requireConfigured_of_configured hc _

theorem exec_compressed_of_configured : exec .compressed s = .next (s.afterResult s.words) :=
  requireConfigured_of_configured hc _

theorem exec_crosses_of_configured : exec .crosses s = .next (s.afterResult (if s.cross then 1 else 0)) := by
  have hbit : (flagBit s.cross).setWidth 32 = if s.cross then (1 : Word) else 0 := by cases s.cross <;> rfl
  rw [← hbit]
  exact requireConfigured_of_configured hc _

end

/-- CBITLEN does not wrap while WORDS is below 2^27 (R147). -/
theorem cbitlen_toNat {words : Word} (h : words.toNat < 2 ^ 27) :
    (BitVec.ofNat 32 (words.toNat * 32)).toNat = words.toNat * 32 :=
  Nat.mod_eq_of_lt (by omega)

/-- Settles O17: each accessor passes the check of CONFIGURED and returns its register. -/
theorem accessorsReturnRegisters : Obligations.AccessorsReturnRegisters := by
  unfold Obligations.AccessorsReturnRegisters
  intro s hc
  exact ⟨requireConfigured_of_configured hc _, requireConfigured_of_configured hc _, exec_crosses_of_configured hc,
    exec_compressed_of_configured hc, _, exec_cbitlen_of_configured hc, cbitlen_toNat⟩

/-! ### The sizes a COMPRESS leaves -/

/-- Mode 1 and a delegated COMPRESS have the contiguous plan (46_search.md R247). -/
theorem plan_contiguous {params : Params} {mode : Mode} {k : Nat} {vals : List Word} {p : Plan}
    (hp : plan params mode k vals = .ok p) (h : mode = .crossing ∨ p.deleg = true) :
    p = planContig vals ∨ p = planDelegated vals := by
  have hsearch : ∀ {cls cross}, p.deleg = true → planSearch params cls cross vals = .ok p → p = planDelegated vals := by
    intro cls cross hd hp
    obtain ⟨-, rfl⟩ | ⟨c, -, -, rfl⟩ := planSearch_eq_ok.1 hp
    · rfl
    · cases hd
  cases mode with
  | noCrossing =>
    obtain rfl := Except.ok.inj hp
    cases h.resolve_left nofun
  | crossing => exact .inl (Except.ok.inj hp).symm
  | overflowNoCrossing | overflowCrossing =>
    obtain ⟨-, -, rfl⟩ := planFixed_eq_ok.1 hp
    cases h.resolve_left nofun
  | searchNoCrossing | searchCrossing => exact .inr (hsearch (h.resolve_left nofun) hp)

/-- Settles O33: WORDS is at most PBUF_WORDS, so CBITLEN does not wrap; the contiguous plan rounds its bits up to whole
words. -/
theorem sizeAccounting : Obligations.SizeAccounting := by
  unfold Obligations.SizeAccounting
  intro s t hnmax hexec hok
  obtain ⟨c, hne, rfl⟩ | ⟨vals, p, hc, -, hv, -, hp, hw, rfl⟩ := execCompress_cases hexec
  · exact absurd (classOf_eq_ok_iff.1 hok) hne
  have hwords : (s.install p).complete.words.toNat = p.words :=
    Nat.mod_eq_of_lt (hw.trans_lt (s.params.pbufWords.isLt.trans (by decide)))
  have hct : (s.install p).complete.configured = true := hc
  refine ⟨⟨_, _, exec_cbitlen_of_configured hct, exec_compressed_of_configured hct, cbitlen_toNat ?_⟩, fun h => ?_⟩
  · exact hwords ▸ hw.trans_lt s.params.pbufWords.isLt
  · obtain ⟨hlen, -⟩ := State.inputs_eq_some.1 hv
    obtain ⟨hbits, hk31⟩ : p.words = ceilDiv (vals.length * p.k) 32 ∧ p.k ≤ 31 := by
      obtain rfl | rfl := plan_contiguous hp h <;> exact ⟨rfl, (bitsReq_range _).2⟩
    have hk : (s.install p).complete.k.toNat = p.k := Nat.mod_eq_of_lt (hk31.trans_lt (by decide))
    have hn : (s.install p).complete.n.toNat = vals.length := hlen.symm
    rw [hwords, hk, hn, hbits]
    exact ⟨le_ceilDiv_mul _ (by decide), ceilDiv_mul_lt _ (by decide)⟩

/-! ### What DECOMPRESS answers, in the order of its tests -/

section
variable {s : State} (hc : s.configured = true)
include hc

theorem exec_decompress_of_length (hl : s.arg0 ≠ s.n) :
    exec .decompress s = .next (s.afterError .invalidArgument .outLength) := by
  rw [exec, execDecompress, requireConfigured_of_configured hc]
  exact if_pos fun h => hl (BitVec.eq_of_toNat_eq h)

theorem exec_decompress_of_unencoded (hl : s.arg0 = s.n) (hv : s.valid = false) :
    exec .decompress s = .fault .decompressUnencoded := by
  rw [exec, execDecompress, requireConfigured_of_configured hc]
  exact (if_neg (by simp [hl])).trans (if_pos hv)

theorem exec_decompress_of_decodeFrom {vs : List Word} (hl : s.arg0 = s.n) (hv : s.valid = true)
    (hvs : s.decodeFrom 0 s.n.toNat = .ok vs) :
    exec .decompress s = .next (State.afterResult { s with vout := s.vout.writeFrom 0 vs } s.n) := by
  rw [exec, execDecompress, requireConfigured_of_configured hc, hvs]
  exact (if_neg (by simp [hl])).trans (if_neg (by simp [hv]))

end

/-- When every slot decodes, so does the whole range. -/
theorem State.exists_decodeFrom_eq_ok {s : State} {n : Nat} (h : ∀ i < n, ∃ v, s.decodeAt i = .ok v) :
    ∃ vs, s.decodeFrom 0 n = .ok vs := by
  choose f hf using h
  refine ⟨List.ofFn fun i : Fin n => f i i.isLt, State.decodeFrom_eq_ok.2 ⟨by simp, fun j v hj => ?_⟩⟩
  obtain ⟨hlt, rfl⟩ := List.getElem?_eq_some_iff.1 hj
  rw [List.length_ofFn] at hlt
  rw [Nat.zero_add, hf j hlt, List.getElem_ofFn]

/-- Settles O35: one equation of `exec .decompress` per clause; VOUT by `Memory.read_writeFrom`. -/
theorem decompressFillsVout : Obligations.DecompressFillsVout := by
  unfold Obligations.DecompressFillsVout
  refine ⟨by decide, fun s => ⟨exec_decompress_of_unconfigured, fun hc => ⟨exec_decompress_of_length hc, fun hl =>
    ⟨exec_decompress_of_unencoded hc hl, fun hv hslots => ?_⟩⟩⟩⟩
  obtain ⟨vs, hvs⟩ := State.exists_decodeFrom_eq_ok hslots
  obtain ⟨hlen, hdecode⟩ := State.decodeFrom_eq_ok.1 hvs
  refine ⟨s.vout.writeFrom 0 vs, exec_decompress_of_decodeFrom hc hl hv hvs, fun i hi => ?_, fun i hi => ?_⟩
  · have hx : vs[i]? = some (vs[i]'(hlen.symm ▸ hi)) := List.getElem?_eq_getElem _
    refine ⟨_, Nat.zero_add i ▸ hdecode i _ hx, ?_⟩
    rw [Memory.read_writeFrom, if_pos (by omega), Nat.sub_zero, hx]
  · rw [Memory.read_writeFrom, if_neg (by omega)]

/-- Settles O36: the equations of GET and DECOMPRESS without an encoding. -/
theorem unencodedQueriesFault : Obligations.UnencodedQueriesFault := by
  unfold Obligations.UnencodedQueriesFault
  exact fun s hc hv => ⟨fun hi => exec_get_of_unencoded hc hi hv, fun hl => exec_decompress_of_unencoded hc hl hv⟩

/-! ### Where a command may fault -/

section
variable {s : State}

/-- GET faults on an unencoded instance alone, when what is encoded can be read (R156). -/
theorem exec_get_next_or_unencoded (hread : s.EncodingReadable) :
    (∃ t, exec .get s = .next t) ∨ (exec .get s = .fault .getUnencoded ∧ s.configured = true ∧ s.valid = false ∧
      s.arg0.toNat < s.n.toNat) := by
  cases hc : s.configured with
  | false => exact .inl ⟨_, exec_get_of_unconfigured hc⟩
  | true =>
    obtain hi | hi := Nat.lt_or_ge s.arg0.toNat s.n.toNat
    · cases hv : s.valid with
      | false => exact .inr ⟨exec_get_of_unencoded hc hi hv, rfl, rfl, hi⟩
      | true =>
        obtain ⟨-, -, -, hslots⟩ := hread hv
        obtain ⟨v, hd⟩ := hslots _ hi
        exact .inl ⟨_, exec_get_of_decodeAt_ok hc hi hv hd⟩
    · exact .inl ⟨_, exec_get_of_index_above hc hi⟩

/-- DECOMPRESS faults on an unencoded instance alone, when what is encoded can be read (R156). -/
theorem exec_decompress_next_or_unencoded (hread : s.EncodingReadable) :
    (∃ t, exec .decompress s = .next t) ∨ (exec .decompress s = .fault .decompressUnencoded ∧ s.configured = true ∧
      s.valid = false ∧ s.arg0 = s.n) := by
  cases hc : s.configured with
  | false => exact .inl ⟨_, exec_decompress_of_unconfigured hc⟩
  | true =>
    by_cases hl : s.arg0 = s.n
    · cases hv : s.valid with
      | false => exact .inr ⟨exec_decompress_of_unencoded hc hl hv, rfl, rfl, hl⟩
      | true =>
        obtain ⟨-, -, -, hslots⟩ := hread hv
        obtain ⟨vs, hvs⟩ := State.exists_decodeFrom_eq_ok hslots
        exact .inl ⟨_, exec_decompress_of_decodeFrom hc hl hv hvs⟩
    · exact .inl ⟨_, exec_decompress_of_length hc hl⟩

/-- COMPRESS faults on a VIN word never written alone (20_memory.md R69). -/
theorem exec_compress_next_or_unwritten : (∃ t, exec .compress s = .next t) ∨
    (exec .compress s = .fault .compressVinUnwritten ∧ s.configured = true ∧ s.arg0 = s.n ∧
      ∃ j < s.n.toNat, s.vin.read j = none) := by
  have houtcome := exec_compress_outcome s
  cases h : exec .compress s <;> rw [h] at houtcome
  case next t => exact .inl ⟨t, rfl⟩
  case fault f =>
    cases houtcome with
    | unwritten hc hl hv => exact .inr ⟨rfl, hc, hl, State.inputs_eq_none.1 hv⟩
  case refused r => cases houtcome

theorem exists_ite_eq_next (p : Prop) [Decidable p] (a b : State) :
    ∃ t, (if p then .next a else .next b : Host.Outcome State Fault Refusal) = .next t := by
  by_cases h : p
  · exact ⟨a, if_pos h⟩
  · exact ⟨b, if_neg h⟩

/-- The utilities and the accessors always answer a next state, as NOP and CFG do (60_exceptions.md R276). -/
theorem exec_next_of_total {i : Instr} (hi : i ∉ [Instr.get, .decompress, .compress]) : ∃ t, exec i s = .next t := by
  cases i with
  | get | decompress | compress => simp at hi
  | nop | bitsReq | ceilLog2 => exact ⟨_, rfl⟩
  | cfg =>
    cases hm : modeOf s.arg0.toNat with
    | none => exact ⟨_, exec_cfg_of_reserved_mode hm⟩
    | some mode =>
      cases hk : kOK mode s.arg2.toNat with
      | false => exact ⟨_, exec_cfg_of_not_kOK hm hk⟩
      | true =>
        obtain hn | hn := Nat.lt_or_ge s.params.nMax.toNat s.arg1.toNat
        · exact ⟨_, exec_cfg_of_count_above hm hk hn⟩
        · exact ⟨_, exec_cfg_of_valid hm hk hn⟩
  | mask | ceilDiv | slotExtract | slotInsert | size | bpv | cbitlen | crosses | compressed =>
    exact exists_ite_eq_next _ _ _

end

/-- Settles O37: thirteen commands always answer, and the other three fault in the one case each that the spec leaves
unspecified. -/
theorem commandsFaultOnlyWhereUnspecified : Obligations.CommandsFaultOnlyWhereUnspecified := by
  unfold Obligations.CommandsFaultOnlyWhereUnspecified
  intro i s hread
  by_cases hi : i ∈ [Instr.get, .decompress, .compress]
  · simp only [List.mem_cons, List.not_mem_nil, or_false] at hi
    obtain rfl | rfl | rfl := hi
    · exact (exec_get_next_or_unencoded hread).imp_right fun h => .inl ⟨rfl, h⟩
    · exact (exec_decompress_next_or_unencoded hread).imp_right fun h => .inr (.inl ⟨rfl, h⟩)
    · exact exec_compress_next_or_unwritten.imp_right fun h => .inr (.inr ⟨rfl, h⟩)
  · exact .inl (exec_next_of_total hi)

end Sys2Proof.Machine
end

section
/-! PROOFS. What a command reads: two states that agree in it leave the same, up to what the command leaves alone
(spec/30_encoding.md R77; spec/60_exceptions.md R271, R273; spec/70_reset_and_hazards.md R316). -/

namespace Sys2Proof.Machine

/-! ### Agreement in what a command reads and writes -/

/-- The operands a command reads: its row of the table of R77. -/
def Instr.operands : Instr → List ArgReg
  | .nop | .size | .bpv | .cbitlen | .crosses | .compressed => []
  | .compress | .get | .decompress | .bitsReq | .mask | .ceilLog2 => [.arg0]
  | .ceilDiv => [.arg0, .arg1]
  | .cfg | .slotExtract => [.arg0, .arg1, .arg2]
  | .slotInsert => [.arg0, .arg1, .arg2, .arg3]

/-- Two states agree in all that the command `i` reads. -/
structure State.SameReads (i : Instr) (s u : State) : Prop where
  arg : ∀ r ∈ Instr.operands i, u.arg r = s.arg r
  params : u.params = s.params
  configured : u.configured = s.configured
  valid : u.valid = s.valid
  cross : u.cross = s.cross
  mode : u.mode = s.mode
  n : u.n = s.n
  k : u.k = s.k
  words : u.words = s.words
  decodeAt : ∀ j, u.decodeAt j = s.decodeAt j
  inputs : i = .compress → u.inputs = s.inputs

/-- What any command writes into `s` and into `u` leaves states that `w` relates. -/
structure State.SameWrites (w : State → State) (s u : State) : Prop where
  complete : u.complete = w s.complete
  setResult : ∀ v, (u.setResult v).complete = w (s.setResult v).complete
  raise : ∀ c ≠ Cause.noCause, u.raise c = w (s.raise c)
  construct : ∀ mode n k, (u.construct mode n k).complete = w (s.construct mode n k).complete
  drop : ∀ c ≠ Cause.noCause, u.dropEncoding.raise c = w (s.dropEncoding.raise c)
  install : ∀ p, (u.install p).complete = w (s.install p).complete
  fill : ∀ vs v, (State.setResult { u with vout := u.vout.writeFrom 0 vs } v).complete =
    w (State.setResult { s with vout := s.vout.writeFrom 0 vs } v).complete

/-- An outcome with the next state changed by `w`. -/
def mapNext (w : State → State) : Host.Outcome State Fault Refusal → Host.Outcome State Fault Refusal
  | .next t => .next (w t)
  | .fault f => .fault f
  | .refused r => .refused r

theorem ite_eq_mapNext {w : State → State} {p : Prop} [Decidable p] {a b a' b' : Host.Outcome State Fault Refusal}
    (ha : a = mapNext w a') (hb : b = mapNext w b') : (if p then a else b) = mapNext w (if p then a' else b') := by
  rw [ha, hb, apply_ite (mapNext w)]

section
variable {i : Instr} {s u : State} {w : State → State}

theorem State.SameWrites.succeedWith (hw : State.SameWrites w s u) {v v' : Word} (hv : v' = v) :
    Machine.succeedWith v' u = mapNext w (Machine.succeedWith v s) := hv ▸ congrArg _ (hw.setResult v')

theorem State.SameWrites.failWith (hw : State.SameWrites w s u) {c : Cause} (hc : c ≠ .noCause) :
    Machine.failWith c u = mapNext w (Machine.failWith c s) := congrArg _ (hw.raise c hc)

theorem State.SameWrites.failCompress (hw : State.SameWrites w s u) {c : Cause} (hc : c ≠ .noCause) :
    Machine.failCompress c u = mapNext w (Machine.failCompress c s) := congrArg _ (hw.drop c hc)

theorem requireConfigured_mapNext (hr : State.SameReads i s u) (hw : State.SameWrites w s u)
    {run : State → Host.Outcome State Fault Refusal} (h : run u = mapNext w (run s)) :
    requireConfigured u run = mapNext w (requireConfigured s run) := by
  rw [requireConfigured, requireConfigured, hr.configured]
  exact ite_eq_mapNext h (hw.failWith nofun)

/-- An accessor reads its register `v` (R144 to R148). -/
theorem accessor_mapNext (hr : State.SameReads i s u) (hw : State.SameWrites w s u) {v : State → Word}
    (hv : v u = v s) :
    requireConfigured u (fun x => Machine.succeedWith (v x) x) =
      mapNext w (requireConfigured s fun x => Machine.succeedWith (v x) x) :=
  requireConfigured_mapNext hr hw (hw.succeedWith hv)

theorem State.SameReads.decodeFrom (hr : State.SameReads i s u) (j count : Nat) :
    u.decodeFrom j count = s.decodeFrom j count := by
  induction count generalizing j with
  | zero => rfl
  | succ count ih => rw [State.decodeFrom, State.decodeFrom, hr.decodeAt, ih]

/-! ### One lemma per group of commands -/

theorem execCfg_mapNext (hr : State.SameReads .cfg s u) (hw : State.SameWrites w s u) :
    execCfg u = mapNext w (execCfg s) := by
  have h0 := hr.arg .arg0 (by decide)
  have h1 := hr.arg .arg1 (by decide)
  have h2 := hr.arg .arg2 (by decide)
  simp only [execCfg, State.argU32, h0, h1, h2, hr.params]
  cases modeOf (s.arg .arg0).u32 with
  | none => exact hw.failWith nofun
  | some mode =>
    exact ite_eq_mapNext (hw.failWith nofun) (ite_eq_mapNext (hw.failWith nofun) (congrArg _ (hw.construct ..)))

theorem compressValues_mapNext (hr : State.SameReads .compress s u) (hw : State.SameWrites w s u)
    (vals : List Word) : compressValues u vals = mapNext w (compressValues s vals) := by
  simp only [compressValues, hr.mode, hr.params, hr.k]
  refine ite_eq_mapNext (hw.failCompress nofun) ?_
  cases hp : plan s.params s.mode s.k.toNat vals with
  | error c =>
    refine hw.failCompress ?_
    obtain rfl | rfl := plan_error hp <;> nofun
  | ok p => exact ite_eq_mapNext (hw.failCompress nofun) (congrArg _ (hw.install p))

theorem execCompress_mapNext (hr : State.SameReads .compress s u) (hw : State.SameWrites w s u) :
    execCompress u = mapNext w (execCompress s) := by
  have h0 := hr.arg .arg0 (by decide)
  simp only [execCompress, State.argU32, h0, hr.configured, hr.n, hr.inputs rfl]
  refine ite_eq_mapNext (hw.failCompress nofun) (ite_eq_mapNext (hw.failCompress nofun) ?_)
  cases s.inputs with
  | none => rfl
  | some vals => exact compressValues_mapNext hr hw vals

theorem execGet_mapNext (hr : State.SameReads .get s u) (hw : State.SameWrites w s u) :
    execGet u = mapNext w (execGet s) := by
  have h0 := hr.arg .arg0 (by decide)
  refine requireConfigured_mapNext hr hw ?_
  simp only [State.argU32, h0, hr.n, hr.valid, hr.decodeAt]
  refine ite_eq_mapNext (hw.failWith nofun) (ite_eq_mapNext rfl ?_)
  cases s.decodeAt (s.arg .arg0).u32 with
  | ok v => exact hw.succeedWith rfl
  | error f => rfl

theorem execDecompress_mapNext (hr : State.SameReads .decompress s u) (hw : State.SameWrites w s u) :
    execDecompress u = mapNext w (execDecompress s) := by
  have h0 := hr.arg .arg0 (by decide)
  refine requireConfigured_mapNext hr hw ?_
  simp only [State.argU32, h0, hr.n, hr.valid, hr.decodeFrom]
  refine ite_eq_mapNext (hw.failWith nofun) (ite_eq_mapNext rfl ?_)
  cases s.decodeFrom 0 s.n.toNat with
  | ok vs =>
    have hfill := hw.fill vs s.n
    rw [hr.n, hr.valid] at hfill
    exact congrArg _ hfill
  | error f => rfl

/-- A command reads only its operands, the parameters, the instance and the encoding, and COMPRESS also VIN (R77). -/
theorem exec_mapNext (hr : State.SameReads i s u) (hw : State.SameWrites w s u) : exec i u = mapNext w (exec i s) := by
  cases i with
  | nop => exact congrArg _ hw.complete
  | cfg => exact execCfg_mapNext hr hw
  | compress => exact execCompress_mapNext hr hw
  | get => exact execGet_mapNext hr hw
  | decompress => exact execDecompress_mapNext hr hw
  | size => exact accessor_mapNext hr hw (v := State.n) hr.n
  | bpv => exact accessor_mapNext hr hw (v := fun x => x.k.setWidth 32) (congrArg _ hr.k)
  | cbitlen =>
    exact accessor_mapNext hr hw (v := fun x => BitVec.ofNat 32 (x.words.toNat * 32)) (by simp only [hr.words])
  | crosses => exact accessor_mapNext hr hw (v := fun x => (flagBit x.cross).setWidth 32) (by simp only [hr.cross])
  | compressed => exact accessor_mapNext hr hw (v := State.words) hr.words
  | bitsReq =>
    simp only [exec, execBitsReq, hr.arg .arg0 (by decide)]
    exact hw.succeedWith rfl
  | ceilLog2 =>
    simp only [exec, execCeilLog2, State.argS32, hr.arg .arg0 (by decide)]
    exact hw.succeedWith rfl
  | mask =>
    simp only [exec, execMask, State.argS32, hr.arg .arg0 (by decide)]
    exact ite_eq_mapNext (hw.failWith nofun) (hw.succeedWith rfl)
  | ceilDiv =>
    simp only [exec, execCeilDiv, State.argS32, hr.arg .arg0 (by decide), hr.arg .arg1 (by decide)]
    exact ite_eq_mapNext (hw.failWith nofun) (hw.succeedWith rfl)
  | slotExtract =>
    simp only [exec, execSlotExtract, State.argU32, hr.arg .arg0 (by decide), hr.arg .arg1 (by decide),
      hr.arg .arg2 (by decide)]
    exact ite_eq_mapNext (hw.succeedWith rfl) (hw.failWith nofun)
  | slotInsert =>
    simp only [exec, execSlotInsert, State.argU32, hr.arg .arg0 (by decide), hr.arg .arg1 (by decide),
      hr.arg .arg2 (by decide), hr.arg .arg3 (by decide)]
    exact ite_eq_mapNext (hw.succeedWith rfl) (hw.failWith nofun)

theorem exec_next_of_mapNext (h : exec i u = mapNext w (exec i s)) {t : State} (ht : exec i s = .next t) :
    exec i u = .next (w t) := by rw [h, ht, mapNext]

theorem exec_fault_of_mapNext (h : exec i u = mapNext w (exec i s)) {f : Fault} (hf : exec i s = .fault f) :
    exec i u = .fault f := by rw [h, hf, mapNext]

end

/-! ### The obligations -/

/-- Settles O43: VIN is no part of what a command other than COMPRESS reads, and no command writes it. -/
theorem onlyCompressReadsVin : Obligations.OnlyCompressReadsVin := by
  unfold Obligations.OnlyCompressReadsVin
  intro i s vin hi
  have hr : State.SameReads i s { s with vin := vin } := by
    refine ⟨fun r _ => by cases r <;> rfl, rfl, rfl, rfl, rfl, rfl, rfl, rfl, rfl, fun j => ?_, fun h => absurd h hi⟩
    exact State.decodeAt_congr rfl rfl rfl rfl rfl rfl rfl rfl j
  have hw : State.SameWrites (fun t => { t with vin := vin }) s { s with vin := vin } := by
    constructor <;> intros <;> rfl
  have h := exec_mapNext hr hw
  exact ⟨fun t => exec_next_of_mapNext h, fun f => exec_fault_of_mapNext h⟩

/-- An operand that the table of R77 marks with a dash. -/
theorem notMem_operands_of_unlisted {i : Instr} {r : ArgReg}
    (h : i ∈ [Instr.nop, .size, .bpv, .cbitlen, .crosses, .compressed] ∨
      (i ∈ [Instr.compress, .get, .decompress, .bitsReq, .mask, .ceilLog2] ∧ r ≠ .arg0) ∨
      (i = .ceilDiv ∧ r ≠ .arg0 ∧ r ≠ .arg1) ∨ (i ∈ [Instr.cfg, .slotExtract] ∧ r = .arg3)) :
    r ∉ Instr.operands i := by
  cases i <;> simp_all [Instr.operands]

/-- Settles O44: an operand that a command does not list is no part of what it reads, and no command writes it. -/
theorem unlistedOperandsAreNotRead : Obligations.UnlistedOperandsAreNotRead := by
  unfold Obligations.UnlistedOperandsAreNotRead
  intro i r s v hi
  have hr : State.SameReads i s (s.setArg r v) := by
    refine ⟨fun q hq => State.arg_setArg_other s v fun h => notMem_operands_of_unlisted hi (h ▸ hq), by simp, by simp,
      by simp, by simp, by simp, by simp, by simp, by simp, fun j => ?_, fun _ => by simp [State.inputs]⟩
    exact (State.sameInstance_setArg s r v).decodeAt j
  have hw : State.SameWrites (fun t => t.setArg r v) s (s.setArg r v) := by
    cases r <;> constructor <;> intros <;> rfl
  have h := exec_mapNext hr hw
  exact ⟨fun t => exec_next_of_mapNext h, fun f => exec_fault_of_mapNext h⟩

/-- A report without a cause keeps FAULTSEEN (60_exceptions.md R273). -/
theorem ExecEffect.faultSeen_of_ok {s t : State} (h : ExecEffect s t) (hok : t.err = .ok) :
    t.faultSeen = s.faultSeen := by
  cases h with
  | success | result | construct | install | fill => rfl
  | error c hc | drop c hc => exact absurd (classOf_eq_ok_iff.1 hok) hc

/-- Settles O38: the report of a command is its own (`ExecEffect.statusConsistent`), and the report before it is no part
of what it reads. -/
theorem everyCommandReports : Obligations.EveryCommandReports := by
  unfold Obligations.EveryCommandReports
  intro i s t h
  obtain ⟨hbusy, herr, hseen⟩ := (exec_effect h).statusConsistent
  refine ⟨hbusy, herr ▸ classOf_eq_ok_iff, herr, (exec_effect h).faultSeen_of_ok, hseen, fun e c f => ?_⟩
  have hr : State.SameReads i s { s with err := e, cause := c, faultSeen := f } := by
    refine ⟨fun r _ => by cases r <;> rfl, rfl, rfl, rfl, rfl, rfl, rfl, rfl, rfl, fun j => ?_, fun _ => rfl⟩
    exact State.decodeAt_congr rfl rfl rfl rfl rfl rfl rfl rfl j
  have hw : State.SameWrites (fun t => { t with faultSeen := if t.err = .ok then f else true }) s
      { s with err := e, cause := c, faultSeen := f } := by
    constructor
    case raise => exact fun c hc => by simp [State.raise, classOf_eq_ok_iff, hc]
    case drop => exact fun c hc => by simp [State.raise, State.dropEncoding, classOf_eq_ok_iff, hc]
    all_goals intros; rfl
  exact exec_next_of_mapNext (exec_mapNext hr hw) h

end Sys2Proof.Machine
end

section
/-! PROOFS. The frames of the commands, VALID and the sticky flags along a step (spec/30_encoding.md R77;
spec/10_state.md R29, R30, R31; spec/70_reset_and_hazards.md R300). -/

namespace Sys2Proof.Machine

/-! ### The frame of each command -/

/-- Modes 0, 2 and 3 keep the width of CFG (42_contract.md R152). -/
theorem plan_k_of_keepsWidth {params : Params} {mode : Mode} {k : Nat} {vals : List Word} {p : Plan}
    (hm : KeepsWidth mode) (hp : plan params mode k vals = .ok p) : p.k = k := by
  obtain rfl | rfl | rfl := hm
  · obtain rfl := Except.ok.inj hp
    rfl
  · obtain ⟨-, -, rfl⟩ := planFixed_eq_ok.1 hp
    rfl
  · obtain ⟨-, -, rfl⟩ := planFixed_eq_ok.1 hp
    rfl

/-- Settles O42: what each command writes, from the one list of its outcomes. -/
theorem commandFrames : Obligations.CommandFrames := by
  unfold Obligations.CommandFrames
  refine fun s t => ⟨fun h => ?_, fun i hi h => ?_, fun h => ?_, fun h => ?_, fun h => ?_⟩
  · obtain rfl : s.complete = t := Host.Outcome.next.inj h
    rfl
  · have hscalar : Instr.scalar i = true := by
      clear h
      revert i
      decide
    obtain ⟨v, rfl⟩ | ⟨c, -, rfl⟩ := exec_scalar_cases hscalar h <;> rfl
  · obtain ⟨c, -, rfl⟩ | ⟨vs, -, -, hvs, rfl⟩ := execDecompress_cases h
    · exact ⟨rfl, fun _ _ => rfl⟩
    · obtain ⟨hlen, -⟩ := State.decodeFrom_eq_ok.1 hvs
      refine ⟨rfl, fun a ha => ?_⟩
      exact (Memory.read_writeFrom s.vout 0 vs a).trans (if_neg (by omega))
  · obtain ⟨mode, -, -, -, rfl⟩ | ⟨c, -, rfl⟩ := execCfg_cases h <;> rfl
  · obtain ⟨c, -, rfl⟩ | ⟨vals, p, -, -, -, -, hp, -, rfl⟩ := execCompress_cases h
    · exact ⟨rfl, fun _ => rfl⟩
    · refine ⟨rfl, fun hm => ?_⟩
      rw [State.complete_k, State.install_k, plan_k_of_keepsWidth hm hp, BitVec.ofNat_toNat, BitVec.setWidth_eq]

/-! ### The sticky flags -/

theorem ExecEffect.sticky {s t : State} (h : ExecEffect s t) :
    (s.faultSeen = true → t.faultSeen = true) ∧ (s.configured = true → t.configured = true) := by
  cases h with
  | success | result | install | fill => exact ⟨id, id⟩
  | error | drop => exact ⟨fun _ => rfl, id⟩
  | construct => exact ⟨id, fun _ => rfl⟩

/-- Settles O40: of all that a step can do only the reset input clears a sticky flag. -/
theorem onlyResetClearsStickyFlags : Obligations.OnlyResetClearsStickyFlags := by
  unfold Obligations.OnlyResetClearsStickyFlags
  intro s t h hreset
  cases step_effect h with
  | idle | read | ignored | vin => exact ⟨id, id⟩
  | reset rest hp => exact absurd hp (hreset rest)
  | arg rest r v => simp
  | illegal => exact ⟨fun _ => rfl, id⟩
  | command rest heff => exact heff.sticky

/-! ### VALID -/

section
variable {s t : State}

theorem exec_compress_valid (h : exec .compress s = .next t) :
    (t.err = .ok → t.valid = true) ∧ (t.err ≠ .ok → t.valid = false) := by
  obtain ⟨c, hc, rfl⟩ | ⟨vals, p, -, -, -, -, -, -, rfl⟩ := execCompress_cases h
  · exact ⟨fun hok => absurd (classOf_eq_ok_iff.1 hok) hc, fun _ => rfl⟩
  · exact ⟨fun _ => rfl, fun herr => absurd rfl herr⟩

theorem exec_cfg_valid (h : exec .cfg s = .next t) :
    (t.err = .ok → t.valid = false) ∧ (t.err ≠ .ok → t.valid = s.valid) := by
  obtain ⟨mode, -, -, -, rfl⟩ | ⟨c, hc, rfl⟩ := execCfg_cases h
  · exact ⟨fun _ => rfl, fun herr => absurd rfl herr⟩
  · exact ⟨fun hok => absurd (classOf_eq_ok_iff.1 hok) hc, fun _ => rfl⟩

theorem exec_valid_of_ne {i : Instr} (hi : i ≠ .compress) (hi' : i ≠ .cfg) (h : exec i s = .next t) :
    t.valid = s.valid := by
  cases i with
  | compress => exact absurd rfl hi
  | cfg => exact absurd rfl hi'
  | nop =>
    obtain rfl : s.complete = t := Host.Outcome.next.inj h
    rfl
  | decompress => obtain ⟨c, -, rfl⟩ | ⟨vs, -, -, -, rfl⟩ := execDecompress_cases h <;> rfl
  | _ => obtain ⟨v, rfl⟩ | ⟨c, -, rfl⟩ := exec_scalar_cases rfl h <;> rfl

theorem ExecEffect.layoutClear (h : ExecEffect s t) (hs : s.LayoutClearWhenInvalid) : t.LayoutClearWhenInvalid := by
  cases h with
  | success | result | error | fill => exact hs
  | construct | drop => exact fun _ => ⟨rfl, rfl, rfl, rfl, rfl, rfl, rfl⟩
  | install => exact nofun

theorem StepEffect.layoutClear (h : StepEffect s t) (hs : s.LayoutClearWhenInvalid) : t.LayoutClearWhenInvalid := by
  cases h with
  | idle | read | ignored | vin | illegal => exact hs
  | reset => exact fun _ => ⟨rfl, rfl, rfl, rfl, rfl, rfl, rfl⟩
  | arg rest r v => exact (State.sameInstance_setArg _ r v).layoutClear hs
  | command rest h => exact h.layoutClear hs

end

/-- Settles O41: VALID after each command by the list of its outcomes, and `StepEffect.layoutClear`. -/
theorem validFollowsCompressAndCfg : Obligations.ValidFollowsCompressAndCfg := by
  unfold Obligations.ValidFollowsCompressAndCfg
  refine ⟨fun s t => exec_compress_valid, fun s t => exec_cfg_valid, fun i s t => exec_valid_of_ne,
    fun s t rest hp h => ?_, fun p _ => ⟨rfl, rfl, rfl, rfl, rfl, rfl, rfl⟩,
    fun s t hs h => (step_effect h).layoutClear hs⟩
  obtain rfl := Host.Outcome.next.inj ((step_of_reset hp).symm.trans h)
  rfl

end Sys2Proof.Machine
end
